-- ==== Sys2Proof/Word.lean ====
section
/-! DEFINITION. The two bit-vector types of the block: a 32-bit register or command word
(`10_state.md` R20, `30_encoding.md` R80) and a destination byte (`20_memory.md` R53). -/

namespace Sys2Proof

/-- A 32-bit quantity: a register, a command word, a word handed to the write port. -/
abbrev Word := BitVec 32

/-- One byte of the destination space. -/
abbrev Byte := BitVec 8

end Sys2Proof
end

