-- ==== Sys2Proof/Machine/Bits.lean ====
section
/-! DEFINITION. The notation of `00_scope.md` R11: slices, concatenation, the two byte orders of a 32-bit
word, byte swap, and division rounded up. Values are natural numbers (R12) and words are 32 bits. -/

namespace Sys2Proof.Machine

/-- `v[hi:lo]` as an unsigned number of `hi - lo + 1` bits (R11). -/
def slice (v hi lo : Nat) : Nat := v / 2 ^ lo % 2 ^ (hi + 1 - lo)

/-- `ceil_div(a, b)` for `a >= 1`, `b >= 1` (R11). -/
def ceilDiv (a b : Nat) : Nat := (a + b - 1) / b

/-- `{f1, f2, ..}`: the concatenation of fields, the first in the most significant position, each given
as its value and its width (R11). -/
def concatFrom : Nat → List (Nat × Nat) → Nat
  | acc, [] => acc
  | acc, (v, width) :: fs => concatFrom (acc * 2 ^ width + v % 2 ^ width) fs

/-- Concatenation into a 32-bit word (R11). -/
def concatWord (fields : List (Nat × Nat)) : Word := BitVec.ofNat 32 (concatFrom 0 fields)

/-- Byte `m` of a word, byte 0 the least significant: `w[8m+7 : 8m]`. -/
def byteOf (w : Word) (m : Nat) : Byte := w.extractLsb' (8 * m) 8

/-- `LE(w)`: the bytes of a word stored little-endian, lowest offset first (R11). -/
def leBytes (w : Word) : List Byte := [byteOf w 0, byteOf w 1, byteOf w 2, byteOf w 3]

/-- `BE(w)`: the bytes of a word stored big-endian, lowest offset first (R11). -/
def beBytes (w : Word) : List Byte := [byteOf w 3, byteOf w 2, byteOf w 1, byteOf w 0]

/-- `bswap32(w)` (R11). -/
def bswap32 (w : Word) : Word := byteOf w 0 ++ byteOf w 1 ++ byteOf w 2 ++ byteOf w 3

/-- The number whose bit `b` is `f b`, for `b` below the width. -/
def bitsNumber (f : Nat → Bool) : Nat → Nat
  | 0 => 0
  | n + 1 => bitsNumber f n + (f n).toNat * 2 ^ n

/-- The 32-bit word whose bit `b` is `f b`. -/
def wordOfBits (f : Nat → Bool) : Word := BitVec.ofNat 32 (bitsNumber f 32)

/-- A truth value as bit 0 of a register. -/
def bit0 (b : Bool) : Word := BitVec.ofNat 32 b.toNat

end Sys2Proof.Machine
end

