-- ==== Sys2Proof/Machine/Names.lean ====
section
/-! DEFINITION. The closed sets of names the spec uses: wire formats (`30_encoding.md` R88), command
faults (`60_exceptions.md` R231, R244), registers (`10_state.md` R20), and the numbers it gives them. -/

namespace Sys2Proof.Machine

/-- The seven wire formats (`30_encoding.md` R88). -/
inductive WireFormat where
  | rgb8b | rgb8r | yuv8 | r210 | yuv10 | r12b | r12l
deriving DecidableEq, Repr

/-- The FMT value of a format (R88). -/
def WireFormat.number : WireFormat → Nat
  | .rgb8b => 1
  | .rgb8r => 2
  | .yuv8 => 3
  | .r210 => 4
  | .yuv10 => 5
  | .r12b => 6
  | .r12l => 7

/-- The format an FMT value names; 0 and 8 to 255 name none (R88, R89). -/
def WireFormat.ofNumber : Nat → Option WireFormat
  | 1 => some .rgb8b
  | 2 => some .rgb8r
  | 3 => some .yuv8
  | 4 => some .r210
  | 5 => some .yuv10
  | 6 => some .r12b
  | 7 => some .r12l
  | _ => none

/-- The ways a geometry can be malformed (`60_exceptions.md` R234). -/
inductive GeometryFault where
  | width | height | floorTooLarge | strideTooSmall | strideMisaligned
deriving DecidableEq, Repr

/-- The sub-code ERR_INFO records (R244). -/
def GeometryFault.subCode : GeometryFault → Nat
  | .width => 1
  | .height => 2
  | .floorTooLarge => 3
  | .strideTooSmall => 4
  | .strideMisaligned => 5

/-- The faults a command can end with (`60_exceptions.md` R231). They are reported by the machine in
STATUS and ERR_INFO and are no stop of the model. -/
inductive CommandFault where
  /-- carries the FMT value (R232) -/
  | unsupportedFormat (fmt : Nat)
  /-- carries what is malformed (R234) -/
  | malformedGeometry (g : GeometryFault)
  /-- carries the length needed, saturated (R235) -/
  | bufferTooSmall (needed : Nat)
  /-- carries the command word (R237) -/
  | illegalCommand (c : Word)
deriving DecidableEq, Repr

/-- The error code of a fault, the value of STATUS.ERR (R231). -/
def CommandFault.code : CommandFault → Nat
  | .unsupportedFormat _ => 1
  | .malformedGeometry _ => 2
  | .bufferTooSmall _ => 3
  | .illegalCommand _ => 4

/-- What ERR_INFO records of a fault (R231, R244). -/
def CommandFault.info : CommandFault → Word
  | .unsupportedFormat fmt => BitVec.ofNat 32 fmt
  | .malformedGeometry g => BitVec.ofNat 32 g.subCode
  | .bufferTooSmall needed => BitVec.ofNat 32 needed
  | .illegalCommand c => c

/-- The nine registers (`10_state.md` R20). -/
inductive Reg where
  | cmd | status | result | errInfo | width | height | stride | dstLen | cfg
deriving DecidableEq, Repr

/-- The byte offset of a register (R20). -/
def Reg.offset : Reg → Nat
  | .cmd => 0x00
  | .status => 0x04
  | .result => 0x08
  | .errInfo => 0x0C
  | .width => 0x10
  | .height => 0x14
  | .stride => 0x18
  | .dstLen => 0x1C
  | .cfg => 0x20

/-- The register a host access of `bits` bits at a byte offset reaches: only whole, aligned 32-bit
accesses at the nine offsets reach one (`10_state.md` R20, R21). -/
def Reg.ofAccess (offset bits : Nat) : Option Reg :=
  if bits ≠ 32 then none
  else if offset = 0x00 then some .cmd
  else if offset = 0x04 then some .status
  else if offset = 0x08 then some .result
  else if offset = 0x0C then some .errInfo
  else if offset = 0x10 then some .width
  else if offset = 0x14 then some .height
  else if offset = 0x18 then some .stride
  else if offset = 0x1C then some .dstLen
  else if offset = 0x20 then some .cfg
  else none

end Sys2Proof.Machine
end

