-- ==== Sys2Proof/Syntax.lean ====
section
/-! DEFINITION. The instruction set of the block: the 17 commands of `30_encoding.md` R94, one
constructor per row of the opcode table, in the table's order. -/

namespace Sys2Proof

/-- A command. A CLAMP command carries its only operand, the immediate VAL of format C (R82, R85), as
the number the spec reads it as; the operands of GEOM and PACK commands are registers named implicitly
(`10_state.md` R25). -/
inductive Instr where
  | clamp8 (val : Nat)
  | clamp10 (val : Nat)
  | clamp12 (val : Nat)
  | geomRgb8b
  | geomRgb8r
  | geomYuv8
  | geomR210
  | geomYuv10
  | geomR12b
  | geomR12l
  | packRgb8b
  | packRgb8r
  | packYuv8
  | packR210
  | packYuv10
  | packR12b
  | packR12l
deriving DecidableEq, Repr

end Sys2Proof
end

