-- ==== Sys2Proof/WellFormed.lean ====
section
/-! DEFINITION. Which commands the encoding can express, and which 32-bit words are commands: the
checks of `30_encoding.md` R84 to R90, each written from the rule that lists it and not from the
decoder. -/

namespace Sys2Proof

/-- The immediate of format C is 16 bits wide (`30_encoding.md` R82, R85). -/
def immediateFits (val : Nat) : Bool := decide (val < 2 ^ 16)

/-- A command is well-formed when its operands fit the fields of its encoding. -/
def Instr.wellFormed : Instr → Bool
  | .clamp8 v => immediateFits v
  | .clamp10 v => immediateFits v
  | .clamp12 v => immediateFits v
  | .geomRgb8b => true
  | .geomRgb8r => true
  | .geomYuv8 => true
  | .geomR210 => true
  | .geomYuv10 => true
  | .geomR12b => true
  | .geomR12l => true
  | .packRgb8b => true
  | .packRgb8r => true
  | .packYuv8 => true
  | .packR210 => true
  | .packYuv10 => true
  | .packR12b => true
  | .packR12l => true

/-- OP selects an operation (R83): 0 and 4 to 15 are reserved. -/
def opDefined (c : Word) : Bool := (c.extractLsb' 28 4 == 1#4) || (c.extractLsb' 28 4 == 2#4) || (c.extractLsb' 28 4 == 3#4)

/-- The word is of format C (R83): OP = 1. -/
def isFormatC (c : Word) : Bool := c.extractLsb' 28 4 == 1#4

/-- The ZERO field of the word's format is 0 (R81, R82, R86). -/
def zeroFieldClear (c : Word) : Bool :=
  if isFormatC c then c.extractLsb' 16 8 == 0#8 else c.extractLsb' 8 20 == 0#20

/-- A format C word names a declared bit depth: DEP is 8, 10 or 12 (R84). -/
def depthDeclared (c : Word) : Bool :=
  !isFormatC c || (c.extractLsb' 24 4 == 8#4) || (c.extractLsb' 24 4 == 10#4) || (c.extractLsb' 24 4 == 12#4)

/-- The word is not in the list of illegal command words of R90. -/
def legalWord (c : Word) : Bool := opDefined c && zeroFieldClear c && depthDeclared c

/-- A format F word names a recognised wire format: FMT is 1 to 7 (R88, R89). -/
def formatRecognised (c : Word) : Bool :=
  isFormatC c || (decide (1 ≤ (c.extractLsb' 0 8).toNat) && decide ((c.extractLsb' 0 8).toNat ≤ 7))

/-- The word is one of the 17 commands (R91: everything else is an unsupported format or illegal). -/
def commandWord (c : Word) : Bool := legalWord c && formatRecognised c

end Sys2Proof
end

