-- ==== Sys2Proof/Decode.lean ====
section
/-! DEFINITION. The decoder of `30_encoding.md` R87, total on the 2^32 command words, and after it the
encoder, written from the formats of R81 and R82 and the table of R94. -/

namespace Sys2Proof

open Machine

/-- The GEOM command of a format (R94). -/
def geomInstr : WireFormat → Instr
  | .rgb8b => .geomRgb8b
  | .rgb8r => .geomRgb8r
  | .yuv8 => .geomYuv8
  | .r210 => .geomR210
  | .yuv10 => .geomYuv10
  | .r12b => .geomR12b
  | .r12l => .geomR12l

/-- The PACK command of a format (R94). -/
def packInstr : WireFormat → Instr
  | .rgb8b => .packRgb8b
  | .rgb8r => .packRgb8r
  | .yuv8 => .packYuv8
  | .r210 => .packR210
  | .yuv10 => .packYuv10
  | .r12b => .packR12b
  | .r12l => .packR12l

/-- The format a PACK command packs; none for the other commands. -/
def packFormatOf : Instr → Option WireFormat
  | .clamp8 _ => none
  | .clamp10 _ => none
  | .clamp12 _ => none
  | .geomRgb8b => none
  | .geomRgb8r => none
  | .geomYuv8 => none
  | .geomR210 => none
  | .geomYuv10 => none
  | .geomR12b => none
  | .geomR12l => none
  | .packRgb8b => some .rgb8b
  | .packRgb8r => some .rgb8r
  | .packYuv8 => some .yuv8
  | .packR210 => some .r210
  | .packYuv10 => some .yuv10
  | .packR12b => some .r12b
  | .packR12l => some .r12l

/-- The decoder, line by line as R87 orders it: a word selects exactly one of the 17 commands or raises
IllegalCommand or UnsupportedFormat. -/
def decode (c : Word) : Except CommandFault Instr :=
  let op := slice c.toNat 31 28
  if op = 1 then
    if slice c.toNat 23 16 ≠ 0 then .error (.illegalCommand c)
    else if slice c.toNat 27 24 = 8 then .ok (.clamp8 (slice c.toNat 15 0))
    else if slice c.toNat 27 24 = 10 then .ok (.clamp10 (slice c.toNat 15 0))
    else if slice c.toNat 27 24 = 12 then .ok (.clamp12 (slice c.toNat 15 0))
    else .error (.illegalCommand c)
  else if op = 2 ∨ op = 3 then
    if slice c.toNat 27 8 ≠ 0 then .error (.illegalCommand c)
    else match WireFormat.ofNumber (slice c.toNat 7 0) with
      | none => .error (.unsupportedFormat (slice c.toNat 7 0))
      | some f => if op = 2 then .ok (geomInstr f) else .ok (packInstr f)
  else .error (.illegalCommand c)

/-- The instruction the decoder reads from a table row's bits. CMD is a number without a byte order
(`20_memory.md` R59), so the bits are the word. -/
def decodeTableWord (nbits w : Nat) : Option Instr :=
  match decode (BitVec.ofNat 32 (w % 2 ^ nbits)) with
  | .ok i => some i
  | .error _ => none

/-- A format C word (R82). -/
def encodeC (dep val : Nat) : Word := concatWord [(1, 4), (dep, 4), (0, 8), (val, 16)]

/-- A format F word (R81). -/
def encodeF (op fmt : Nat) : Word := concatWord [(op, 4), (0, 20), (fmt, 8)]

/-- The word of a command (R94). -/
def encode : Instr → Word
  | .clamp8 v => encodeC 8 v
  | .clamp10 v => encodeC 10 v
  | .clamp12 v => encodeC 12 v
  | .geomRgb8b => encodeF 2 1
  | .geomRgb8r => encodeF 2 2
  | .geomYuv8 => encodeF 2 3
  | .geomR210 => encodeF 2 4
  | .geomYuv10 => encodeF 2 5
  | .geomR12b => encodeF 2 6
  | .geomR12l => encodeF 2 7
  | .packRgb8b => encodeF 3 1
  | .packRgb8r => encodeF 3 2
  | .packYuv8 => encodeF 3 3
  | .packR210 => encodeF 3 4
  | .packYuv10 => encodeF 3 5
  | .packR12b => encodeF 3 6
  | .packR12l => encodeF 3 7

end Sys2Proof
end

