-- ==== Sys2Proof/Machine/Memory.lean ====
section
/-! DEFINITION. The two host-owned memories (`20_memory.md` R50): a list of (address, value) pairs with
strictly rising addresses. An address that is not listed has no value: nothing has written it since
power-on (`70_reset_and_hazards.md` R263, R272; log entries 3 and 4). -/

namespace Sys2Proof.Machine

/-- A memory of values of one size, sparse, by address. -/
abbrev Memory (α : Type) := List (Nat × α)

/-- The canonical form: addresses strictly rising. No listed entry can equal what an unlisted address
reads as, since that is no value. -/
abbrev Memory.wf {α : Type} (m : Memory α) : Prop := List.Pairwise (fun x y => x.1 < y.1) m

/-- What an unlisted address reads as: no value. -/
def Memory.unlisted {α : Type} : Option α := none

/-- The value at an address, if it has one. -/
def Memory.read? {α : Type} : Memory α → Nat → Option α
  | [], _ => Memory.unlisted
  | (k, v) :: m, a => if a = k then some v else Memory.read? m a

/-- Write one value, keeping the addresses rising. -/
def Memory.write {α : Type} : Memory α → Nat → α → Memory α
  | [], a, v => [(a, v)]
  | (k, x) :: m, a, v =>
    if a < k then (a, v) :: (k, x) :: m
    else if a = k then (a, v) :: m
    else (k, x) :: Memory.write m a v

/-- Write a list of (address, value) pairs, in order. -/
def Memory.writeAll {α : Type} : Memory α → List (Nat × α) → Memory α
  | m, [] => m
  | m, (a, v) :: ws => Memory.writeAll (Memory.write m a v) ws

end Sys2Proof.Machine
end

