-- ==== Sys2Proof/Config.lean ====
section
/-! DEFINITION. What an implementation of the block fixes (`00_scope.md` R10) and the values the spec
leaves free. The free values have no body: nothing can be proved of which value they take. -/

namespace Sys2Proof

/-- Where one bit of a 12-bit group comes from: bit `bit` of channel `channel` (0 = A, 1 = B, 2 = C) of
pixel slot `slot` (`46_pack_rgb12.md` R182). -/
structure SampleBit where
  slot : Nat
  channel : Nat
  bit : Nat
deriving DecidableEq, Repr

/-- The named parameters of the block (`00_scope.md` R10). `LATENCY` is no field: no rule depends on it
(`70_reset_and_hazards.md` R274) and the agenda of the state holds any finite value of it. The parameter
`HOST_LE` is read through the constant register CFG (`10_state.md` R31); the field here is the value
CFG has after reset. -/
structure Config where
  /-- `HOST_LE`: byte-lane order of the destination write port (`20_memory.md` R57). -/
  hostLe : Bool
  /-- `R210_WORD` (`44_pack_r210.md` R161). -/
  r210Word : Nat → Nat → Nat → Word
  /-- `R12_MAP`: which sample bit goes to bit `b` of word `k` of a group (`46_pack_rgb12.md` R182). -/
  r12Map : Nat → Nat → SampleBit

/-- A byte the spec calls "any value": what a host read of a lent byte returns (`70_reset_and_hazards.md`
R267), and what a PACK cut off by reset would have made of samples without a value (R262, R272). The first
argument is the count of such events so far, the second the byte offset. -/
opaque Config.freeByte : Nat → Nat → Byte

/-- A choice between two values the spec leaves open for one destination byte: whether a PACK cut off by reset
has stored it (R262), and whether the host's byte or that of the PACK it was lent to is left (R267). Same
arguments. -/
opaque Config.freeChoice : Nat → Nat → Bool

/-- Which of the values a raced source container held an engine read returns, read by read (R268): the count of
such events, the offset of the destination byte the read is for, the container. -/
opaque Config.freePick : Nat → Nat → Nat → Nat

/-- What a destination byte holds that nothing has written since power-on, "the platform's matter" (R263). -/
opaque Config.powerOnByte : Nat → Byte

end Sys2Proof
end

