-- ==== Sys2Proof/Machine/Params.lean ====
section
/-! DEFINITION. The default values of the open parameters (`00_scope.md` R10). -/

namespace Sys2Proof.Machine

/-- `R210_WORD`, default: two zero bits, then A, B, C from the most significant bit (`44_pack_r210.md`
R161). -/
def defaultR210Word (a b c : Nat) : Word := concatWord [(0, 2), (a, 10), (b, 10), (c, 10)]

/-- `R12_MAP`, default: bit `b` of word `k` is bit `32k + b` of the stream in which sample `j` fills bits
`12j + 11 .. 12j` and sample `j` is channel `j mod 3` of slot `j div 3` (`46_pack_rgb12.md` R182). -/
def defaultR12Map (k b : Nat) : SampleBit :=
  let p := 32 * k + b
  { slot := p / 12 / 3, channel := p / 12 % 3, bit := p % 12 }

/-- The default configuration (`00_scope.md` R10), which the machine's step runs with. DESIGN CHOICE, log
entries 1, 9 and 10: `execWith`, `stepWith` and `State.resetOf` take any configuration, `exec`, `step` and
`State.reset` are theirs at this one. -/
def defaultConfig : Config :=
  { hostLe := true, r210Word := defaultR210Word, r12Map := defaultR12Map }

end Sys2Proof.Machine
end

