-- ==== Sys2Proof/Machine/State.lean ====
section
/-! DEFINITION. The state of the machine: the nine registers and the sequencer of `10_state.md`, the reset
input of `70_reset_and_hazards.md` R260, the two memories of `20_memory.md` R50, and the model's own
fields that let one deterministic step show both agents. -/

namespace Sys2Proof.Machine

/-- A value of the sequencer: the row and the group in progress (`10_state.md` R33). -/
structure Seq where
  row : Nat
  group : Nat
deriving DecidableEq, Repr

/-- A destination the host lent to a PACK: bytes `0 .. rows * stride - 1`, of which the command stores the first
`stored` of each row, none if its checks fail (`70_reset_and_hazards.md` R267, R270; `20_memory.md` R62). -/
structure Loan where
  rows : Nat
  stride : Nat
  stored : Nat
deriving DecidableEq, Repr

/-- What the host can do next (`00_scope.md` R9, `70_reset_and_hazards.md` R266), and the turn of the engine
(`00_scope.md` R8), which falls among the host's actions wherever the agenda says. -/
inductive HostAction where
  /-- the engine's turn -/
  | engine
  /-- a write access of `bits` bits at a byte offset of the register space -/
  | writeReg (offset bits : Nat) (v : Word)
  /-- a read access -/
  | readReg (offset bits : Nat)
  /-- a write access with the value the host's last read returned (`MOVR`, `30_encoding.md` R93) -/
  | writeBack (offset bits : Nat)
  /-- read STATUS until DONE reads 1 (`WAIT`, R93); if it does not yet, the engine moves after `reads` more
  reads -/
  | wait (reads : Nat)
  /-- write a source container -/
  | writeSrc (index : Nat) (v : BitVec 16)
  /-- read a source container -/
  | readSrc (index : Nat)
  /-- write a destination byte -/
  | writeDst (offset : Nat) (b : Byte)
  /-- read a destination byte -/
  | readDst (offset : Nat)
  /-- assert the reset input -/
  | assertReset
  /-- release the reset input -/
  | releaseReset
deriving DecidableEq, Repr

/-- The state. -/
structure State where
  /-- CMD (R20, R26) -/
  cmd : Word
  /-- STATUS (R20, R27) -/
  status : Word
  /-- RESULT (R20, R29) -/
  result : Word
  /-- ERR_INFO (R20, R30) -/
  errInfo : Word
  /-- WIDTH (R20, R22) -/
  width : Word
  /-- HEIGHT (R20, R22) -/
  height : Word
  /-- STRIDE (R20, R23) -/
  stride : Word
  /-- DST_LEN (R20, R24) -/
  dstLen : Word
  /-- CFG (R20, R31): constant, bit 0 is `HOST_LE` -/
  cfg : Word
  /-- the sequencer, which exists only while BUSY = 1 (R33) -/
  seq : Option Seq
  /-- the reset input is asserted (R260) -/
  resetLine : Bool
  /-- the source space (R52) -/
  src : Memory (BitVec 16)
  /-- the destination space (R53) -/
  dst : List Host.Cell
  /-- the MODEL's own: the host's coming actions and the engine's turns among them; log entry 5 -/
  agenda : List HostAction
  /-- the MODEL's own: what the host's last read returned; log entry 6 -/
  rdata : Word
  /-- the MODEL's own: the source containers the host wrote while they were lent, each with the value it had
  before (R268); log entry 7 -/
  srcRaces : List (Nat × Option (BitVec 16))
  /-- the MODEL's own: the destination bytes the host wrote while they were lent (R267); log entry 7 -/
  dstRaces : List Nat
  /-- the MODEL's own: the destinations lent to PACK commands since the host last read DONE = 1 (R267); log
  entry 7 -/
  lent : List Loan
  /-- the MODEL's own: how many events have used free values; log entry 8 -/
  choices : Nat
deriving DecidableEq, Repr

/-- The stop of the model that the spec asks for: a container with no value is read. -/
inductive Fault where
  /-- A source container nothing has written is read, by the engine in a PACK command or by the host. Safe:
  the spec asks a model to fault or refuse (`70_reset_and_hazards.md` R272). -/
  | srcUndefined (index : Nat)
deriving DecidableEq, Repr

/-- The moves the model does not have. -/
inductive Refusal where
  /-- Raised by no arm of this model: kept for an instruction without a meaning. Safe. -/
  | notModelled (mnemonic : String)
  /-- Raised by a host register access of a width other than 32 bits, misaligned, or above offset 0x20:
  "a model refuses it" (`10_state.md` R21). Safe. -/
  | registerAccess (offset bits : Nat)
  /-- Raised by a host register access while reset is asserted: "a model refuses them"
  (`70_reset_and_hazards.md` R260). Safe. -/
  | accessDuringReset
deriving DecidableEq, Repr

/-- The machine right after reset (`10_state.md` R36, `70_reset_and_hazards.md` R261): every register 0 but
CFG = `HOST_LE`, the engine idle, no sequencer, the reset input released. Nothing is written in either
memory and the host has nothing to do (log entries 3 to 8). -/
def State.resetOf (cfg : Config) : State :=
  { cmd := 0, status := 0, result := 0, errInfo := 0, width := 0, height := 0, stride := 0, dstLen := 0
    cfg := bit0 cfg.hostLe, seq := none, resetLine := false, src := [], dst := []
    agenda := [], rdata := 0, srcRaces := [], dstRaces := [], lent := [], choices := 0 }

/-- The machine right after reset, at the defaults of R10. -/
def State.reset : State := State.resetOf defaultConfig

end Sys2Proof.Machine
end

