-- ==== Sys2Proof/Machine/Flags.lean ====
section
/-! DEFINITION. The only flags of the block: the fields of STATUS (`10_state.md` R27, R28, R35). -/

namespace Sys2Proof.Machine

/-- A STATUS word from its fields; every other bit is 0 (R27). -/
def statusWord (err : Nat) (done busy : Bool) : Word :=
  concatWord [(0, 24), (err, 4), (0, 2), (done.toNat, 1), (busy.toNat, 1)]

/-- `{DONE = 0, BUSY = 1, ERR = 0}`: entered by a launch (R28). -/
def statusBusy : Word := statusWord 0 false true

/-- `{DONE = 1, BUSY = 0, ERR = err}`: entered at completion (R28). -/
def statusDone (err : Nat) : Word := statusWord err true false

/-- STATUS.BUSY. -/
def State.busy (s : State) : Bool := s.status.getLsbD 0

/-- STATUS.DONE. -/
def State.done (s : State) : Bool := s.status.getLsbD 1

/-- STATUS.ERR. -/
def State.err (s : State) : Nat := slice s.status.toNat 7 4

/-- `HOST_LE`, as CFG reads it (R31). -/
def State.hostLe (s : State) : Bool := s.cfg.getLsbD 0

end Sys2Proof.Machine
end

