-- ==== Sys2Proof/Machine/Operands.lean ====
section
/-! DEFINITION. How commands read their operands (`10_state.md` R22 to R25; `30_encoding.md` R85). The
immediate VAL of a CLAMP command is an argument of its meaning. -/

namespace Sys2Proof.Machine

/-- `sext(x[WIDTH])`, a mathematical integer (R22). -/
abbrev State.widthOperand (s : State) : Int := s.width.toInt

/-- `sext(x[HEIGHT])` (R22). -/
abbrev State.heightOperand (s : State) : Int := s.height.toInt

/-- `x[STRIDE]`, unsigned (R23). -/
abbrev State.strideOperand (s : State) : Nat := s.stride.toNat

/-- `x[DST_LEN]`, unsigned (R24). -/
abbrev State.dstLenOperand (s : State) : Nat := s.dstLen.toNat

end Sys2Proof.Machine
end

