-- ==== Sys2Proof/Machine/Ops.lean ====
section
/-! DEFINITION. The named operations on the state: launching and completing a command, fault entry,
reset of the registers, the register port, and the two memories. Each says once what the spec says once. -/

namespace Sys2Proof.Machine

/-- Launch: a write of CMD that is accepted stores the word and starts the command (`10_state.md` R26).
BUSY is entered with DONE and ERR cleared; RESULT and ERR_INFO keep their old values (R28). The sequencer
comes into being at the start of the reference order (R33; log entry 2). -/
def launch (c : Word) (s : State) : State :=
  { s with cmd := c, status := statusBusy, seq := some { row := 0, group := 0 }
           srcRaces := [], dstRaces := [] }

/-- Completion with success: RESULT, ERR_INFO = 0 and STATUS = done change in one step (`10_state.md` R28,
R29, R30), and the sequencer ceases to exist (R33). -/
def completeOk (value : Nat) (s : State) : State :=
  { s with result := BitVec.ofNat 32 value, errInfo := 0, status := statusDone 0, seq := none }

/-- Fault entry, the block's one way of taking an exception (`60_exceptions.md` R236): RESULT = 0,
ERR_INFO = the detail, STATUS = done with the code; nothing else changes. There is no handler and no
return: the next `launch` is accepted like after a success (R240). -/
def raiseFault (f : CommandFault) (s : State) : State :=
  { s with result := 0, errInfo := f.info, status := statusDone f.code, seq := none }

/-- The registers at their reset values; CFG is a constant and stays (`70_reset_and_hazards.md` R261,
`10_state.md` R31, R36). -/
def resetRegisters (s : State) : State :=
  { s with cmd := 0, status := 0, result := 0, errInfo := 0, width := 0, height := 0, stride := 0
           dstLen := 0, seq := none }

/-- A register read: the current value, no side effect (`10_state.md` R32). -/
def readReg (r : Reg) (s : State) : Word :=
  match r with
  | .cmd => s.cmd
  | .status => s.status
  | .result => s.result
  | .errInfo => s.errInfo
  | .width => s.width
  | .height => s.height
  | .stride => s.stride
  | .dstLen => s.dstLen
  | .cfg => s.cfg

/-- A register write: ignored while BUSY (`10_state.md` R26, R32); a write of CMD launches (R26); a write
of a read-only register is ignored (R21); any value is storable in an operand register (R22). -/
def writeReg (r : Reg) (v : Word) (s : State) : State :=
  if s.busy then s
  else match r with
    | .cmd => launch v s
    | .width => { s with width := v }
    | .height => { s with height := v }
    | .stride => { s with stride := v }
    | .dstLen => { s with dstLen := v }
    | .status => s
    | .result => s
    | .errInfo => s
    | .cfg => s

/-- The sequencer moves (`47_dispatch.md` R204, `seq <- (y, g)`). -/
def setSeq (q : Seq) (s : State) : State := { s with seq := some q }

/-- Replace the destination space. -/
def setDst (d : Memory Byte) (s : State) : State := { s with dst := d }

/-- Replace the source space. -/
def setSrc (m : Memory (BitVec 16)) (s : State) : State := { s with src := m }

/-- The host takes the value its read returned. -/
def setRdata (v : Word) (s : State) : State := { s with rdata := v }

/-- The host's remaining actions. -/
def setAgenda (l : List HostAction) (s : State) : State := { s with agenda := l }

/-- The reset input changes level. -/
def setResetLine (b : Bool) (s : State) : State := { s with resetLine := b }

/-- The host wrote a lent source container, which held `old` before (`70_reset_and_hazards.md` R268). -/
def noteSrcRace (i : Nat) (old : Option (BitVec 16)) (s : State) : State :=
  { s with srcRaces := (i, old) :: s.srcRaces }

/-- The host wrote a lent destination byte (R267). -/
def noteDstRace (o : Nat) (s : State) : State := { s with dstRaces := o :: s.dstRaces }

/-- The host lends a destination (R270). -/
def addLoan (l : Loan) (s : State) : State := { s with lent := l :: s.lent }

/-- Every lent destination is the host's alone again. -/
def returnLoans (s : State) : State := { s with lent := [] }

/-- A use of free values is over: the next one is another. -/
def nextChoice (s : State) : State := { s with choices := s.choices + 1 }

/-- `MemRead(i, 2)`: the whole container as an unsigned number (`20_memory.md` R52); a container nothing
has written has no value (`70_reset_and_hazards.md` R272). -/
def memRead (src : Memory (BitVec 16)) (i : Nat) : Except Fault Nat :=
  match Memory.read? src i with
  | none => .error (.srcUndefined i)
  | some v => .ok v.toNat

/-- The values a raced container held before the host's writes, newest first; none if one of them is no value
(R268, R272). -/
def racedValues : List (Nat × Option (BitVec 16)) → Nat → Option (List (BitVec 16))
  | [], _ => some []
  | (j, old) :: rs, i =>
    if j = i then
      match old, racedValues rs i with
      | some v, some vs => some (v :: vs)
      | _, _ => none
    else racedValues rs i

/-- One of the values: `v` if there is no other, else the `n`-th, counted round. -/
def pickValue (n : Nat) (v : BitVec 16) : List (BitVec 16) → BitVec 16
  | [] => v
  | w :: ws => (v :: w :: ws).getD (n % (ws.length + 2)) v

/-- The engine's read of source container `i` for the destination byte at offset `o`: the container's value
(`20_memory.md` R52) or, if the host wrote it while it was lent, the old or the new one, read by read
(`70_reset_and_hazards.md` R268). A container that had no value has none to return (R272). -/
def engineRead (s : State) (o i : Nat) : Except Fault Nat :=
  match Memory.read? s.src i, racedValues s.srcRaces i with
  | some v, some vs => .ok (pickValue (Config.freePick s.choices o i) v vs).toNat
  | _, _ => .error (.srcUndefined i)

/-- The byte at a destination offset: the space has one at every offset (`20_memory.md` R53; log entry 4). -/
def dstByte (s : State) (o : Nat) : Byte := (Memory.read? s.dst o).getD (Config.powerOnByte o)

/-- Carry a function that can stop along a list, in order; the first stop is the answer. -/
def collect {ε α β : Type} (f : α → Except ε β) : List α → Except ε (List β)
  | [] => .ok []
  | a :: as =>
    match f a with
    | .error e => .error e
    | .ok b =>
      match collect f as with
      | .error e => .error e
      | .ok bs => .ok (b :: bs)

/-- The bytes at consecutive offsets from `o`. -/
def cellsAt (o : Nat) : List Byte → List Host.Cell
  | [] => []
  | b :: bs => (o, b) :: cellsAt (o + 1) bs

end Sys2Proof.Machine
end

