-- ==== Sys2Proof/Machine/Clamp.lean ====
section
/-! DEFINITION. The Range Clamper and the CLAMP commands (`40_clamp.md`). -/

namespace Sys2Proof.Machine

/-- `clamp(s, d) = min(s, 2^d - 1)` (R110). -/
def clamp (v d : Nat) : Nat := min v (2 ^ d - 1)

/-- CLAMP.8 (R114). -/
def execClamp8 (val : Nat) (s : State) : Host.Outcome State Fault Refusal :=
  .next (completeOk (clamp val 8) s)

/-- CLAMP.10 (R115). -/
def execClamp10 (val : Nat) (s : State) : Host.Outcome State Fault Refusal :=
  .next (completeOk (clamp val 10) s)

/-- CLAMP.12 (R116). -/
def execClamp12 (val : Nat) (s : State) : Host.Outcome State Fault Refusal :=
  .next (completeOk (clamp val 12) s)

end Sys2Proof.Machine
end

