-- ==== Sys2Proof/Machine/Descriptor.lean ====
section
/-! DEFINITION. The Format Descriptor table of `47_dispatch.md` R200: one constant, from which the clamp
depth, the floor stride and the group function of every format are read (R201). -/

namespace Sys2Proof.Machine

/-- Channel semantics of a format. -/
inductive Channels where
  | rgb | yuv
deriving DecidableEq, Repr

/-- Byte order column of R200. -/
inductive ByteOrder where
  | littleWord | bytes | bigWord
deriving DecidableEq, Repr

/-- Which group function packs a group, with its constant argument (R200). -/
inductive GroupFunction where
  | rgb8 (swap : Bool)
  | yuv8
  | r210
  | yuv10
  | r12 (be : Bool)
deriving DecidableEq, Repr

/-- A row of the table (R200). -/
structure Descriptor where
  depth : Nat
  channels : Channels
  byteOrder : ByteOrder
  groupPixels : Nat
  groupBytes : Nat
  rowPixels : Nat
  rowAlign : Nat
  group : GroupFunction
deriving DecidableEq, Repr

/-- The table (R200). -/
def descriptor : WireFormat → Descriptor
  | .rgb8b => { depth := 8, channels := .rgb, byteOrder := .littleWord, groupPixels := 1, groupBytes := 4
                rowPixels := 1, rowAlign := 4, group := .rgb8 false }
  | .rgb8r => { depth := 8, channels := .rgb, byteOrder := .littleWord, groupPixels := 1, groupBytes := 4
                rowPixels := 1, rowAlign := 4, group := .rgb8 true }
  | .yuv8 => { depth := 8, channels := .yuv, byteOrder := .bytes, groupPixels := 2, groupBytes := 4
               rowPixels := 2, rowAlign := 4, group := .yuv8 }
  | .r210 => { depth := 10, channels := .rgb, byteOrder := .bigWord, groupPixels := 1, groupBytes := 4
               rowPixels := 64, rowAlign := 256, group := .r210 }
  | .yuv10 => { depth := 10, channels := .yuv, byteOrder := .littleWord, groupPixels := 1, groupBytes := 4
                rowPixels := 1, rowAlign := 4, group := .yuv10 }
  | .r12b => { depth := 12, channels := .rgb, byteOrder := .bigWord, groupPixels := 8, groupBytes := 36
               rowPixels := 8, rowAlign := 36, group := .r12 true }
  | .r12l => { depth := 12, channels := .rgb, byteOrder := .littleWord, groupPixels := 8, groupBytes := 36
               rowPixels := 8, rowAlign := 36, group := .r12 false }

end Sys2Proof.Machine
end

