-- ==== Sys2Proof/Machine/Geometry.lean ====
section
/-! DEFINITION. The Row Geometry Calculator and the GEOM commands (`41_geometry.md`). -/

namespace Sys2Proof.Machine

/-- `floor_stride(fmt, w) = ceil_div(w, row_pixels) * row_align`, an exact integer (R121). -/
def floorStride (f : WireFormat) (w : Nat) : Nat :=
  ceilDiv w (descriptor f).rowPixels * (descriptor f).rowAlign

/-- The checks of a GEOM command in the order of R128, and the floor stride they leave. -/
def geomCheck (f : WireFormat) (s : State) : Except CommandFault Nat :=
  if s.widthOperand ≤ 0 then .error (.malformedGeometry .width)
  else if 2 ^ 32 ≤ floorStride f s.widthOperand.toNat then .error (.malformedGeometry .floorTooLarge)
  else .ok (floorStride f s.widthOperand.toNat)

/-- The common sequence of every GEOM command (R128). -/
def geomCommand (f : WireFormat) (s : State) : Host.Outcome State Fault Refusal :=
  match geomCheck f s with
  | .error e => .next (raiseFault e s)
  | .ok fs => .next (completeOk fs s)

/-- GEOM.RGB8B (R129). -/
def execGeomRgb8b (s : State) : Host.Outcome State Fault Refusal := geomCommand .rgb8b s

/-- GEOM.RGB8R (R130). -/
def execGeomRgb8r (s : State) : Host.Outcome State Fault Refusal := geomCommand .rgb8r s

/-- GEOM.YUV8 (R131). -/
def execGeomYuv8 (s : State) : Host.Outcome State Fault Refusal := geomCommand .yuv8 s

/-- GEOM.R210 (R132). -/
def execGeomR210 (s : State) : Host.Outcome State Fault Refusal := geomCommand .r210 s

/-- GEOM.YUV10 (R133). -/
def execGeomYuv10 (s : State) : Host.Outcome State Fault Refusal := geomCommand .yuv10 s

/-- GEOM.R12B (R134). -/
def execGeomR12b (s : State) : Host.Outcome State Fault Refusal := geomCommand .r12b s

/-- GEOM.R12L (R135). -/
def execGeomR12l (s : State) : Host.Outcome State Fault Refusal := geomCommand .r12l s

end Sys2Proof.Machine
end

