-- ==== Sys2Proof/Machine/Packers.lean ====
section
/-! DEFINITION. The group functions: clamped pixel slots in, the bytes of one group out, in ascending
offset order. Words pass through the 32-bit write port, whose lane order is `HOST_LE` (`20_memory.md`
R57); the bytes do not depend on it (R58). -/

namespace Sys2Proof.Machine

/-- A pixel: its channels A, B, C in source order (`00_scope.md` R14). -/
structure Pixel where
  a : Nat
  b : Nat
  c : Nat
deriving DecidableEq, Repr

/-- The pixel of an unused slot (`47_dispatch.md` R208). -/
def zeroPixel : Pixel := { a := 0, b := 0, c := 0 }

/-- Channel 0, 1 or 2 of a pixel (`20_memory.md` R54). -/
def Pixel.channel (p : Pixel) : Nat → Nat
  | 0 => p.a
  | 1 => p.b
  | _ => p.c

/-- The `i`-th pixel slot of a group. -/
def slotPixel (P : List Pixel) (i : Nat) : Pixel := P.getD i zeroPixel

/-- The bytes the 32-bit write port places for the word it is handed: bits 7:0 at the lowest offset when
`HOST_LE = 1`, bits 31:24 when it is 0 (`20_memory.md` R57). -/
def portBytes (hostLe : Bool) (handed : Word) : List Byte :=
  if hostLe then leBytes handed else beBytes handed

/-- Store a word little-endian: the port is handed `w` or, if its lanes are big-endian, `bswap32(w)`
(R57). -/
def storeLe (hostLe : Bool) (w : Word) : List Byte :=
  portBytes hostLe (if hostLe then w else bswap32 w)

/-- Store a word big-endian: the port is handed `bswap32(w)` or, if its lanes are big-endian, `w` (R57,
`44_pack_r210.md` R163). -/
def storeBe (hostLe : Bool) (w : Word) : List Byte :=
  portBytes hostLe (if hostLe then bswap32 w else w)

/-- The word of an 8-bit RGB pixel (`42_pack_rgb8.md` R142). -/
def rgb8Word (swap : Bool) (p : Pixel) : Word :=
  if swap then concatWord [(0xFF, 8), (p.c, 8), (p.b, 8), (p.a, 8)]
  else concatWord [(0xFF, 8), (p.a, 8), (p.b, 8), (p.c, 8)]

/-- `group_rgb8(P, swap)` (R142). -/
def groupRgb8 (hostLe swap : Bool) (P : List Pixel) : List Byte :=
  storeLe hostLe (rgb8Word swap (slotPixel P 0))

/-- `group_yuv8(P)`: `[u0, y0, v0, y1]`, four single bytes (`43_pack_yuv8.md` R152). -/
def groupYuv8 (P : List Pixel) : List Byte :=
  [BitVec.ofNat 8 (slotPixel P 0).b, BitVec.ofNat 8 (slotPixel P 0).a,
   BitVec.ofNat 8 (slotPixel P 0).c, BitVec.ofNat 8 (slotPixel P 1).a]

/-- `group_r210(P)`: the configured word, stored big-endian (`44_pack_r210.md` R162). -/
def groupR210 (cfg : Config) (hostLe : Bool) (P : List Pixel) : List Byte :=
  storeBe hostLe (cfg.r210Word (slotPixel P 0).a (slotPixel P 0).b (slotPixel P 0).c)

/-- `YUV10_WORD(y, u, v) = {0b00, v[9:0], y[9:0], u[9:0]}` (`45_pack_yuv10.md` R171). -/
def yuv10Word (y u v : Nat) : Word := concatWord [(0, 2), (v, 10), (y, 10), (u, 10)]

/-- `group_yuv10(P)`: stored little-endian (R172). -/
def groupYuv10 (hostLe : Bool) (P : List Pixel) : List Byte :=
  storeLe hostLe (yuv10Word (slotPixel P 0).a (slotPixel P 0).b (slotPixel P 0).c)

/-- The sample bit a place of the group carries (`46_pack_rgb12.md` R182). -/
def sampleBitOf (P : List Pixel) (r : SampleBit) : Bool :=
  ((slotPixel P r.slot).channel r.channel).testBit r.bit

/-- Word `W_k` of a 12-bit group under a map (R182). -/
def r12Word (cfg : Config) (P : List Pixel) (k : Nat) : Word :=
  wordOfBits (fun b => sampleBitOf P (cfg.r12Map k b))

/-- `group_r12(P, be)`: nine words, big-endian for R12B, little-endian for R12L (R184 to R186). -/
def groupR12 (cfg : Config) (hostLe be : Bool) (P : List Pixel) : List Byte :=
  (List.range 9).flatMap fun k =>
    if be then storeBe hostLe (r12Word cfg P k) else storeLe hostLe (r12Word cfg P k)

/-- The group function a descriptor row names (`47_dispatch.md` R200). -/
def applyGroup (cfg : Config) (hostLe : Bool) (g : GroupFunction) (P : List Pixel) : List Byte :=
  match g with
  | .rgb8 swap => groupRgb8 hostLe swap P
  | .yuv8 => groupYuv8 P
  | .r210 => groupR210 cfg hostLe P
  | .yuv10 => groupYuv10 hostLe P
  | .r12 be => groupR12 cfg hostLe be P

end Sys2Proof.Machine
end

