-- ==== Sys2Proof/Machine/Pack.lean ====
section
/-! DEFINITION. The Format Dispatcher's common PACK sequence (`47_dispatch.md` R204): the checks, the pixel
fetch with clamping, the groups in reference order, completion. The sequence takes any configuration. -/

namespace Sys2Proof.Machine

/-- The operands of a PACK command that passed its checks, and its floor stride. -/
structure PackGeometry where
  w : Nat
  h : Nat
  st : Nat
  fs : Nat
deriving DecidableEq, Repr

/-- The checks of a PACK command, in the order of R204 (R205, R206, R207). -/
def packCheck (f : WireFormat) (s : State) : Except CommandFault PackGeometry :=
  let fs := floorStride f s.widthOperand.toNat
  let st := s.strideOperand
  let needed := s.heightOperand.toNat * st
  if s.widthOperand ≤ 0 then .error (.malformedGeometry .width)
  else if s.heightOperand ≤ 0 then .error (.malformedGeometry .height)
  else if 2 ^ 32 ≤ fs then .error (.malformedGeometry .floorTooLarge)
  else if st < fs then .error (.malformedGeometry .strideTooSmall)
  else if st % (descriptor f).rowAlign ≠ 0 then .error (.malformedGeometry .strideMisaligned)
  else if s.dstLenOperand < needed then .error (.bufferTooSmall (min needed (2 ^ 32 - 1)))
  else .ok { w := s.widthOperand.toNat, h := s.heightOperand.toNat, st := st, fs := fs }

/-- `src_index(y, x, c)` (`20_memory.md` R54). -/
def srcIndex (w y x c : Nat) : Nat := 3 * (y * w + x) + c

/-- `dst_offset(y, k)` (`20_memory.md` R55). -/
def dstOffset (st y k : Nat) : Nat := y * st + k

/-- One clamped sample, through the reads `rd` of the engine. -/
def fetchSample (rd : Nat → Except Fault Nat) (d i : Nat) : Except Fault Nat :=
  match rd i with
  | .error e => .error e
  | .ok v => .ok (clamp v d)

/-- `px(y, x)` (R208): a slot at or beyond the width is the zero pixel without any source read. -/
def fetchPixel (rd : Nat → Except Fault Nat) (d w y x : Nat) : Except Fault Pixel :=
  if x < w then
    match fetchSample rd d (srcIndex w y x 0) with
    | .error e => .error e
    | .ok a =>
      match fetchSample rd d (srcIndex w y x 1) with
      | .error e => .error e
      | .ok b =>
        match fetchSample rd d (srcIndex w y x 2) with
        | .error e => .error e
        | .ok c => .ok { a := a, b := b, c := c }
  else .ok zeroPixel

/-- The pixel slots of group `q` (R204). -/
def fetchGroup (rd : Nat → Except Fault Nat) (f : WireFormat) (w : Nat) (q : Seq) : Except Fault (List Pixel) :=
  collect (fun k => fetchPixel rd (descriptor f).depth w q.row (q.group * (descriptor f).groupPixels + k))
    (List.range (descriptor f).groupPixels)

/-- The offset of the first byte of group `q` (R204). -/
def groupOffset (f : WireFormat) (g : PackGeometry) (q : Seq) : Nat :=
  dstOffset g.st q.row (q.group * (descriptor f).groupBytes)

/-- The bytes of group `q`, from the engine's reads for the destination byte at offset `o` (R204). -/
def packBytes (cfg : Config) (f : WireFormat) (g : PackGeometry) (s : State) (q : Seq) (o : Nat) :
    Except Fault (List Byte) :=
  match fetchGroup (engineRead s o) f g.w q with
  | .error e => .error e
  | .ok P => .ok (applyGroup cfg s.hostLe (descriptor f).group P)

/-- Byte `t` of group `q`, from reads of its own (`20_memory.md` R61: reads may be repeated). -/
def packByte (cfg : Config) (f : WireFormat) (g : PackGeometry) (s : State) (q : Seq) (t : Nat) :
    Except Fault Byte :=
  match packBytes cfg f g s q (groupOffset f g q + t) with
  | .error e => .error e
  | .ok B => .ok (B.getD t 0)

/-- The bytes of group `q` at their destination offsets (R204). Only a source that the host raced with makes
the reads of one byte differ from those of another (`70_reset_and_hazards.md` R268). -/
def packGroup (cfg : Config) (f : WireFormat) (g : PackGeometry) (s : State) (q : Seq) :
    Except Fault (Seq × List Host.Cell) :=
  match (match s.srcRaces with
    | [] => packBytes cfg f g s q (groupOffset f g q)
    | _ :: _ => collect (packByte cfg f g s q) (List.range (descriptor f).groupBytes)) with
  | .error e => .error e
  | .ok B => .ok (q, cellsAt (groupOffset f g q) B)

/-- The groups of a PACK in reference order: rows ascending and, within a row, groups ascending (R204,
`10_state.md` R33). -/
def seqOrder (rows groups : Nat) : List Seq :=
  (List.range rows).flatMap fun y => (List.range groups).map fun g => { row := y, group := g }

/-- `groups_per_row` (R209). -/
def groupsPerRow (f : WireFormat) (fs : Nat) : Nat := fs / (descriptor f).groupBytes

/-- The groups of a command that passed its checks. -/
def commandGroups (f : WireFormat) (g : PackGeometry) : List Seq := seqOrder g.h (groupsPerRow f g.fs)

/-- Every group of the command with the bytes it is to store. -/
def packGroups (cfg : Config) (f : WireFormat) (g : PackGeometry) (s : State) :
    Except Fault (List (Seq × List Host.Cell)) :=
  collect (packGroup cfg f g s) (commandGroups f g)

/-- The command's byte ends in its place, but for a byte the host wrote while it was lent: there the host's or
the command's (`70_reset_and_hazards.md` R267). -/
def cellLands (s : State) (x : Host.Cell) : Bool :=
  !(s.dstRaces.contains x.1 && Config.freeChoice s.choices x.1)

/-- Store the bytes of one group with the sequencer at it (R204). -/
def storeGroup (s : State) (x : Seq × List Host.Cell) : State :=
  setDst (Memory.writeAll s.dst (x.2.filter (cellLands s))) (setSeq x.1 s)

/-- The free values of a raced command are used up. -/
def closeRace (s : State) : State :=
  if s.srcRaces.isEmpty && s.dstRaces.isEmpty then s else nextChoice s

/-- The common PACK sequence (R204). Every check and every source read comes before the first store, so
that a command that faults has stored nothing (`60_exceptions.md` R236); the order of accesses is not
observable (`20_memory.md` R63). -/
def packCommand (cfg : Config) (f : WireFormat) (s : State) : Host.Outcome State Fault Refusal :=
  match packCheck f s with
  | .error e => .next (raiseFault e s)
  | .ok g =>
    match packGroups cfg f g s with
    | .error e => .fault e
    | .ok groups => .next (completeOk g.fs (closeRace (groups.foldl storeGroup s)))

end Sys2Proof.Machine
end

