-- ==== Sys2Proof/Machine/HostPort.lean ====
section
/-! DEFINITION. What each action of the host does (`70_reset_and_hazards.md` R260 to R272, `10_state.md`
R21, R26, R32), and the fetch of the launched command word. -/

namespace Sys2Proof.Machine

/-- The command in CMD, decoded (`30_encoding.md` R87): the block's only fetch (`20_memory.md` R67). -/
def fetchCommand (s : State) : Except CommandFault Instr := decode s.cmd

/-- The format of the PACK command that is running, if one is. -/
def runningPack (s : State) : Option WireFormat :=
  if s.busy then
    match fetchCommand s with
    | .ok i => packFormatOf i
    | .error _ => none
  else none

/-- The source container is lent to a running PACK: index below `3 * WIDTH * HEIGHT` (R268, R270). After DONE = 1 no
engine read is left that a write could race with. -/
def srcLent (s : State) (i : Nat) : Bool :=
  (runningPack s).isSome && decide (i < 3 * s.widthOperand.toNat * s.heightOperand.toNat)

/-- The byte belongs to the lent range (R267). -/
def Loan.covers (l : Loan) (o : Nat) : Bool := decide (o < l.rows * l.stride)

/-- The byte is one that the command stores (`20_memory.md` R62). -/
def Loan.stores (l : Loan) (o : Nat) : Bool := l.covers o && decide (o % l.stride < l.stored)

/-- The destination of the PACK that is running, if one is. Its operands cannot change while it runs (`10_state.md`
R32). -/
def runningLoan (s : State) : Option Loan :=
  match runningPack s with
  | none => none
  | some f => some
    { rows := s.heightOperand.toNat, stride := s.strideOperand
      stored := match packCheck f s with
        | .ok g => g.fs
        | .error _ => 0 }

/-- At the launch of a PACK the host lends it the destination (`70_reset_and_hazards.md` R270). -/
def lend (s : State) : State :=
  match runningLoan s with
  | none => s
  | some l => addLoan l s

/-- The destination byte is lent: a PACK was launched on its range and the host has not read DONE = 1 since
(R267). -/
def dstLent (s : State) (o : Nat) : Bool := s.lent.any fun l => l.covers o

/-- A register access by the host (`10_state.md` R21, `70_reset_and_hazards.md` R260): refused while reset
is asserted, refused when it reaches no register. -/
def regAccess (offset bits : Nat) (s : State) : Except Refusal Reg :=
  if s.resetLine then .error .accessDuringReset
  else match Reg.ofAccess offset bits with
    | none => .error (.registerAccess offset bits)
    | some r => .ok r

/-- A register write by the host; one that launches a PACK lends it the destination. -/
def acceptWrite (r : Reg) (v : Word) (s : State) : State :=
  if r = .cmd ∧ s.busy = false then lend (writeReg r v s) else writeReg r v s

/-- The host has read a register: if it saw DONE = 1, the lent destinations are its own again (R267). -/
def hostSaw (r : Reg) (s : State) : State :=
  if r = .status ∧ s.done = true then returnLoans s else s

/-- The host writes a register. -/
def hostWriteReg (offset bits : Nat) (v : Word) (s : State) : Host.Outcome State Fault Refusal :=
  match regAccess offset bits s with
  | .error e => .refused e
  | .ok r => .next (acceptWrite r v s)

/-- The host reads a register. -/
def hostReadReg (offset bits : Nat) (s : State) : Host.Outcome State Fault Refusal :=
  match regAccess offset bits s with
  | .error e => .refused e
  | .ok r => .next (setRdata (readReg r s) (hostSaw r s))

/-- One round of `WAIT` (`30_encoding.md` R93): read STATUS; if DONE does not read 1, read again, after the
engine's turn once the reads it lets pass are over. How many those are is the agenda's to say: the spec sets no
bound (`70_reset_and_hazards.md` R274). -/
def hostWait (reads : Nat) (s : State) : Host.Outcome State Fault Refusal :=
  match regAccess Reg.status.offset 32 s with
  | .error e => .refused e
  | .ok r =>
    .next (setRdata (readReg r s)
      (if s.done then hostSaw r s
      else match reads with
        | 0 => setAgenda (.engine :: .wait 0 :: s.agenda) s
        | k + 1 => setAgenda (.wait k :: s.agenda) s))

/-- The host writes a source container: freely, or as a race with the PACK it lent it to (R268). -/
def hostWriteSrc (i : Nat) (v : BitVec 16) (s : State) : Host.Outcome State Fault Refusal :=
  .next (setSrc (Memory.write s.src i v) (if srcLent s i then noteSrcRace i (Memory.read? s.src i) s else s))

/-- The host reads a source container; one nothing has written has no value (R272). -/
def hostReadSrc (i : Nat) (s : State) : Host.Outcome State Fault Refusal :=
  match memRead s.src i with
  | .error e => .fault e
  | .ok v => .next (setRdata (BitVec.ofNat 32 v) s)

/-- The host writes a destination byte (R266). A byte that the running PACK will store is noted as a race, settled
when the command completes; a byte that a completed PACK stored, before the host has read DONE = 1, ends as the
host's or the command's (R267). A lent byte that no command stores has the host's value alone. -/
def hostWriteDst (o : Nat) (b : Byte) (s : State) : Host.Outcome State Fault Refusal :=
  .next (if (runningLoan s).any fun l => l.stores o then setDst (Memory.write s.dst o b) (noteDstRace o s)
    else if s.lent.any fun l => l.stores o then
      nextChoice (if Config.freeChoice s.choices o then setDst (Memory.write s.dst o b) s else s)
    else setDst (Memory.write s.dst o b) s)

/-- The host reads a destination byte: its value (R266), or any value of a byte that is lent (R267). -/
def hostReadDst (o : Nat) (s : State) : Host.Outcome State Fault Refusal :=
  if dstLent s o then .next (setRdata ((Config.freeByte s.choices o).setWidth 32) (nextChoice s))
  else .next (setRdata ((dstByte s o).setWidth 32) s)

/-- The bytes a PACK cut off by reset would have given group `q` (R262); from samples without a value it would
have given any. -/
def abandonedGroup (cfg : Config) (f : WireFormat) (g : PackGeometry) (s : State) (q : Seq) : List Host.Cell :=
  match packGroup cfg f g s q with
  | .ok x => x.2
  | .error _ => cellsAt (groupOffset f g q)
      ((List.range (descriptor f).groupBytes).map fun t => Config.freeByte s.choices (groupOffset f g q + t))

/-- The bytes a PACK cut off by reset has stored: those the free choice picks; the others keep their old value
(R262). -/
def abandonedCells (cfg : Config) (f : WireFormat) (g : PackGeometry) (s : State) : List Host.Cell :=
  ((commandGroups f g).flatMap (abandonedGroup cfg f g s)).filter fun x => Config.freeChoice s.choices x.1

/-- What reset does to the destination: nothing (R263), unless it cuts off a PACK that passed its checks
(R262). -/
def abandonCommand (cfg : Config) (s : State) : State :=
  match runningPack s with
  | none => s
  | some f =>
    match packCheck f s with
    | .error _ => s
    | .ok g => nextChoice (setDst (Memory.writeAll s.dst (abandonedCells cfg f g s)) s)

/-- The reset input is asserted, at any time (R260, R261, R262). There is no DONE = 1 left to read and nothing is
lent any more (log entry 7). -/
def hostAssertReset (cfg : Config) (s : State) : Host.Outcome State Fault Refusal :=
  .next (setResetLine true (resetRegisters (returnLoans (abandonCommand cfg s))))

/-- The reset input is released: the block is in the reset state (R260; log entry 12). -/
def hostReleaseReset (s : State) : Host.Outcome State Fault Refusal := .next (setResetLine false s)

/-- The host acts (R266). The engine's turn is the step's own and is no action of the host. -/
def hostAct (cfg : Config) (a : HostAction) (s : State) : Host.Outcome State Fault Refusal :=
  match a with
  | .engine => .next s
  | .writeReg offset bits v => hostWriteReg offset bits v s
  | .readReg offset bits => hostReadReg offset bits s
  | .writeBack offset bits => hostWriteReg offset bits s.rdata s
  | .wait reads => hostWait reads s
  | .writeSrc i v => hostWriteSrc i v s
  | .readSrc i => hostReadSrc i s
  | .writeDst o b => hostWriteDst o b s
  | .readDst o => hostReadDst o s
  | .assertReset => hostAssertReset cfg s
  | .releaseReset => hostReleaseReset s

/-- The engine has a command to perform: BUSY, and not held in reset (`00_scope.md` R8). -/
def engineActive (s : State) : Bool := s.busy && !s.resetLine

/-- Put a command word where the engine's next turn performs it: the launch of R26 on a block that is not
held in reset, with the engine's turn first. -/
def placeCommand (c : Word) (s : State) : State :=
  setAgenda (if s.agenda.isEmpty then [] else .engine :: s.agenda) (setResetLine false (lend (launch c s)))

end Sys2Proof.Machine
end

