-- ==== Sys2Proof/Machine/PackCommands.lean ====
section
/-! DEFINITION. The seven PACK commands: the common sequence with each format's descriptor row, over any
configuration and at the default one. -/

namespace Sys2Proof.Machine

/-- PACK.RGB8B over any configuration (`42_pack_rgb8.md` R143). -/
def packRgb8bWith (cfg : Config) (s : State) : Host.Outcome State Fault Refusal := packCommand cfg .rgb8b s

/-- PACK.RGB8B. -/
def execPackRgb8b (s : State) : Host.Outcome State Fault Refusal := packRgb8bWith defaultConfig s

/-- PACK.RGB8R over any configuration (`42_pack_rgb8.md` R144). -/
def packRgb8rWith (cfg : Config) (s : State) : Host.Outcome State Fault Refusal := packCommand cfg .rgb8r s

/-- PACK.RGB8R. -/
def execPackRgb8r (s : State) : Host.Outcome State Fault Refusal := packRgb8rWith defaultConfig s

/-- PACK.YUV8 over any configuration (`43_pack_yuv8.md` R154). -/
def packYuv8With (cfg : Config) (s : State) : Host.Outcome State Fault Refusal := packCommand cfg .yuv8 s

/-- PACK.YUV8. -/
def execPackYuv8 (s : State) : Host.Outcome State Fault Refusal := packYuv8With defaultConfig s

/-- PACK.R210 over any configuration (`44_pack_r210.md` R165). -/
def packR210With (cfg : Config) (s : State) : Host.Outcome State Fault Refusal := packCommand cfg .r210 s

/-- PACK.R210. -/
def execPackR210 (s : State) : Host.Outcome State Fault Refusal := packR210With defaultConfig s

/-- PACK.YUV10 over any configuration (`45_pack_yuv10.md` R173). -/
def packYuv10With (cfg : Config) (s : State) : Host.Outcome State Fault Refusal := packCommand cfg .yuv10 s

/-- PACK.YUV10. -/
def execPackYuv10 (s : State) : Host.Outcome State Fault Refusal := packYuv10With defaultConfig s

/-- PACK.R12B over any configuration (`46_pack_rgb12.md` R188). -/
def packR12bWith (cfg : Config) (s : State) : Host.Outcome State Fault Refusal := packCommand cfg .r12b s

/-- PACK.R12B. -/
def execPackR12b (s : State) : Host.Outcome State Fault Refusal := packR12bWith defaultConfig s

/-- PACK.R12L over any configuration (`46_pack_rgb12.md` R189). -/
def packR12lWith (cfg : Config) (s : State) : Host.Outcome State Fault Refusal := packCommand cfg .r12l s

/-- PACK.R12L. -/
def execPackR12l (s : State) : Host.Outcome State Fault Refusal := packR12lWith defaultConfig s

end Sys2Proof.Machine
end

