-- ==== Sys2Proof/Machine/Dispatch.lean ====
section
/-! DEFINITION. The dispatch of the 17 commands to their meanings, one arm per constructor. -/

namespace Sys2Proof.Machine

/-- The meaning of a command, as the engine performs it in the step that completes it. -/
def exec (i : Instr) (s : State) : Host.Outcome State Fault Refusal :=
  match i with
  | .clamp8 val => Sys2Proof.Machine.execClamp8 val s
  | .clamp10 val => Sys2Proof.Machine.execClamp10 val s
  | .clamp12 val => Sys2Proof.Machine.execClamp12 val s
  | .geomRgb8b => Sys2Proof.Machine.execGeomRgb8b s
  | .geomRgb8r => Sys2Proof.Machine.execGeomRgb8r s
  | .geomYuv8 => Sys2Proof.Machine.execGeomYuv8 s
  | .geomR210 => Sys2Proof.Machine.execGeomR210 s
  | .geomYuv10 => Sys2Proof.Machine.execGeomYuv10 s
  | .geomR12b => Sys2Proof.Machine.execGeomR12b s
  | .geomR12l => Sys2Proof.Machine.execGeomR12l s
  | .packRgb8b => Sys2Proof.Machine.execPackRgb8b s
  | .packRgb8r => Sys2Proof.Machine.execPackRgb8r s
  | .packYuv8 => Sys2Proof.Machine.execPackYuv8 s
  | .packR210 => Sys2Proof.Machine.execPackR210 s
  | .packYuv10 => Sys2Proof.Machine.execPackYuv10 s
  | .packR12b => Sys2Proof.Machine.execPackR12b s
  | .packR12l => Sys2Proof.Machine.execPackR12l s

end Sys2Proof.Machine
end

