-- ==== Sys2Proof/Machine/Parametric.lean ====
section
/-! DEFINITION. The commands over any configuration: `R210_WORD` and `R12_MAP` as an argument (`00_scope.md` R10,
`92_eei_decisions.md` D19, D20). `exec` is this at the default configuration. -/

namespace Sys2Proof.Machine

/-- The meaning of a command in a block of configuration `cfg`. -/
def execWith (cfg : Config) (i : Instr) (s : State) : Host.Outcome State Fault Refusal :=
  match i with
  | .clamp8 v => execClamp8 v s
  | .clamp10 v => execClamp10 v s
  | .clamp12 v => execClamp12 v s
  | .geomRgb8b => execGeomRgb8b s
  | .geomRgb8r => execGeomRgb8r s
  | .geomYuv8 => execGeomYuv8 s
  | .geomR210 => execGeomR210 s
  | .geomYuv10 => execGeomYuv10 s
  | .geomR12b => execGeomR12b s
  | .geomR12l => execGeomR12l s
  | .packRgb8b => packRgb8bWith cfg s
  | .packRgb8r => packRgb8rWith cfg s
  | .packYuv8 => packYuv8With cfg s
  | .packR210 => packR210With cfg s
  | .packYuv10 => packYuv10With cfg s
  | .packR12b => packR12bWith cfg s
  | .packR12l => packR12lWith cfg s

end Sys2Proof.Machine
end

