-- ==== Sys2Proof/Machine/Step.lean ====
section
/-! DEFINITION. One step: the agent the agenda names moves. -/

namespace Sys2Proof.Machine

/-- The engine's turn: it performs the launched command with `run` and completes it (`70_reset_and_hazards.md`
R274); without a command it stays idle (`00_scope.md` R8). A word that is no command ends in fault entry
(`30_encoding.md` R87). -/
def engineTurn (run : Instr → State → Host.Outcome State Fault Refusal) (s : State) :
    Host.Outcome State Fault Refusal :=
  if engineActive s then
    match fetchCommand s with
    | .ok i => run i s
    | .error e => .next (raiseFault e s)
  else .next s

/-- One step of a block of configuration `cfg` whose commands are `run`: the head of the agenda, or the engine
when the host has nothing to do. -/
def stepBy (cfg : Config) (run : Instr → State → Host.Outcome State Fault Refusal) (s : State) :
    Host.Outcome State Fault Refusal :=
  match s.agenda with
  | [] => engineTurn run s
  | .engine :: rest => engineTurn run (setAgenda rest s)
  | a :: rest => hostAct cfg a (setAgenda rest s)

/-- One step. -/
def step (s : State) : Host.Outcome State Fault Refusal := stepBy defaultConfig exec s

/-- One step of a block of any configuration (`00_scope.md` R10). -/
def stepWith (cfg : Config) (s : State) : Host.Outcome State Fault Refusal := stepBy cfg (execWith cfg) s

/-- The state with the command word launched, so that the next step performs it. -/
def State.withFetchWord (s : State) (nbits w : Nat) : State :=
  placeCommand (BitVec.ofNat 32 (w % 2 ^ nbits)) s

end Sys2Proof.Machine
end

