-- ==== Sys2Proof/Machine/HostList.lean ====
section
/-! DEFINITION. The host command list of `30_encoding.md` R92 and its pseudo-instructions (R93): each line
as the host actions it stands for. A list of lines is a program for the agenda. -/

namespace Sys2Proof.Machine

/-- The operand registers `SET` and `MOVR` may name (R92). -/
inductive OperandReg where
  | width | height | stride | dstLen
deriving DecidableEq, Repr

/-- The register an operand register is. -/
def OperandReg.reg : OperandReg → Reg
  | .width => .width
  | .height => .height
  | .stride => .stride
  | .dstLen => .dstLen

/-- A line of the host command list (R92, R93). -/
inductive HostLine where
  | set (r : OperandReg) (v : Int)
  | clamp (d val : Nat)
  | geom (fmt : Nat)
  | pack (fmt : Nat)
  | raw (c : Word)
  | get (r : Reg)
  | wait
  | movr (r : OperandReg)
  | packa (fmt : Nat)
deriving DecidableEq, Repr

/-- A host write of CMD. -/
def writeCmd (c : Word) : HostAction := .writeReg Reg.cmd.offset 32 c

/-- `MOVR <REG>`: `GET RESULT`, then `SET <REG>, <value read>` (R93). -/
def movrActions (r : OperandReg) : List HostAction :=
  [.readReg Reg.result.offset 32, .writeBack r.reg.offset 32]

/-- The actions of a line (R92, R93). `m` and `n` are the STATUS reads its first and second `WAIT` let pass
before the engine moves (any numbers: R274). -/
def HostLine.actions (m n : Nat) : HostLine → List HostAction
  | .set r v => [.writeReg r.reg.offset 32 (BitVec.ofInt 32 v)]
  | .clamp d val => [writeCmd (encodeC d val)]
  | .geom fmt => [writeCmd (encodeF 2 fmt)]
  | .pack fmt => [writeCmd (encodeF 3 fmt)]
  | .raw c => [writeCmd c]
  | .get r => [.readReg r.offset 32]
  | .wait => [.wait m]
  | .movr r => movrActions r
  | .packa fmt =>
    [writeCmd (encodeF 2 fmt), .wait m] ++ movrActions .stride ++ [writeCmd (encodeF 3 fmt), .wait n]

/-- The actions of a program, each line with the reads its waits let pass. -/
def hostActions (lines : List (HostLine × Nat × Nat)) : List HostAction :=
  lines.flatMap fun x => x.1.actions x.2.1 x.2.2

end Sys2Proof.Machine
end

