-- ==== Sys2Proof/Machine/Unpack.lean ====
section
/-! DEFINITION. The synthetic unpackers of `42_pack_rgb8.md` R145, `43_pack_yuv8.md` R155, `44_pack_r210.md`
R166, `45_pack_yuv10.md` R174 and `46_pack_rgb12.md` R190. They are no part of the block; statements use
them. -/

namespace Sys2Proof.Machine

/-- Byte `i` of a group as a number. -/
def byteNat (bs : List Byte) (i : Nat) : Nat := (bs.getD i 0).toNat

/-- A pixel from the four bytes of an 8-bit RGB slot (R145). -/
def unpackRgb8 (swap : Bool) (bs : List Byte) : Pixel :=
  if swap then { a := byteNat bs 0, b := byteNat bs 1, c := byteNat bs 2 }
  else { a := byteNat bs 2, b := byteNat bs 1, c := byteNat bs 0 }

/-- The even pixel of a pair (R155). -/
def unpackYuv8Even (bs : List Byte) : Pixel :=
  { a := byteNat bs 1, b := byteNat bs 0, c := byteNat bs 2 }

/-- The luma of the odd pixel of a pair (R155). -/
def unpackYuv8OddLuma (bs : List Byte) : Nat := byteNat bs 3

/-- The number whose bytes, most significant first, are the four bytes. -/
def beNumber (bs : List Byte) : Nat :=
  byteNat bs 0 * 2 ^ 24 + byteNat bs 1 * 2 ^ 16 + byteNat bs 2 * 2 ^ 8 + byteNat bs 3

/-- The number whose bytes, least significant first, are the bytes. -/
def leNumber : List Byte → Nat
  | [] => 0
  | b :: bs => b.toNat + 2 ^ 8 * leNumber bs

/-- A pixel from the four bytes of a 10-bit RGB slot (R166). -/
def unpackR210 (bs : List Byte) : Pixel :=
  { a := slice (beNumber bs) 29 20, b := slice (beNumber bs) 19 10, c := slice (beNumber bs) 9 0 }

/-- A pixel from the four bytes of a 10-bit YUV slot (R174). -/
def unpackYuv10 (bs : List Byte) : Pixel :=
  { a := slice (leNumber bs) 19 10, b := slice (leNumber bs) 9 0, c := slice (leNumber bs) 29 20 }

/-- Sample `j` of the 288-bit number of a 12-bit group (R190). -/
def unpackSample (n j : Nat) : Nat := slice n (12 * j + 11) (12 * j)

/-- The eight pixels of a little-endian 12-bit group (R190). -/
def unpackR12l (bs : List Byte) : List Pixel :=
  (List.range 8).map fun i =>
    { a := unpackSample (leNumber bs) (3 * i), b := unpackSample (leNumber bs) (3 * i + 1)
      c := unpackSample (leNumber bs) (3 * i + 2) }

/-- Reverse each aligned unit of four bytes. -/
def reverseUnits : List Byte → List Byte
  | a :: b :: c :: d :: bs => d :: c :: b :: a :: reverseUnits bs
  | bs => bs

/-- The eight pixels of a big-endian 12-bit group (R190). -/
def unpackR12b (bs : List Byte) : List Pixel := unpackR12l (reverseUnits bs)

end Sys2Proof.Machine
end

