-- ==== Sys2Proof/Safety.lean ====
section
/-! DEFINITION. The terms in which claims about the machine are stated: whose turn it is, when a PACK is
accepted and on which source, what its pixels are, which invariant holds between steps, and which 12-bit
maps are admissible. -/

namespace Sys2Proof.Machine

/-- The next step is the engine's, and `rest` is what the agenda then holds. -/
def EnginesTurn (s : State) (rest : List HostAction) : Prop :=
  (s.agenda = [] ∧ rest = []) ∨ s.agenda = .engine :: rest

/-- A command word `c` is launched and the next step is the engine's (`10_state.md` R28). -/
def Launched (c : Word) (s : State) (rest : List HostAction) : Prop :=
  s.cmd = c ∧ engineActive s = true ∧ EnginesTurn s rest

/-- WIDTH as a count of pixels, for a positive WIDTH. -/
def widthOf (s : State) : Nat := s.widthOperand.toNat

/-- HEIGHT as a count of rows, for a positive HEIGHT. -/
def heightOf (s : State) : Nat := s.heightOperand.toNat

/-- The conditions under which a PACK passes its checks, for a format whose floor stride for the WIDTH at
hand is `fs` and whose alignment is `align` (`47_dispatch.md` R205 to R207). -/
structure PackAccepted (fs align : Nat) (s : State) : Prop where
  width_pos : 0 < s.widthOperand
  height_pos : 0 < s.heightOperand
  floor_fits : fs < 2 ^ 32
  stride_covers : fs ≤ s.stride.toNat
  stride_aligned : s.stride.toNat % align = 0
  length_covers : heightOf s * s.stride.toNat ≤ s.dstLen.toNat

/-- The launch premise: every source container below `n` holds a value (`70_reset_and_hazards.md` R272). -/
def SrcDefined (s : State) (n : Nat) : Prop := ∀ i, i < n → (Memory.read? s.src i).isSome = true

/-- The launch premise of a PACK: the whole plane is defined. -/
def PlaneDefined (s : State) : Prop := SrcDefined s (3 * widthOf s * heightOf s)

/-- The number in a source container (0 for one without a value; claims that use it assume the premise). -/
def sampleAt (s : State) (i : Nat) : Nat :=
  match Memory.read? s.src i with
  | some v => v.toNat
  | none => 0

/-- The host kept its duties R267 and R268 since the launch. -/
def Unraced (s : State) : Prop := s.srcRaces = [] ∧ s.dstRaces = []

/-- The state without the marks of races. -/
def withoutRaces (s : State) : State := { s with srcRaces := [], dstRaces := [] }

/-- Whatever value a read of a source container below `n` returns, there is one: the launch premise for a
source the host may have raced with (`70_reset_and_hazards.md` R268, R272). -/
def SrcReadable (s : State) (n : Nat) : Prop :=
  SrcDefined s n ∧ ∀ x ∈ s.srcRaces, x.1 < n → x.2.isSome = true

/-- The launch premise of a PACK whose host may have raced with it. -/
def PlaneReadable (s : State) : Prop := SrcReadable s (3 * widthOf s * heightOf s)

/-- A source whose every container holds what it holds in `s` or a value the host's racing writes replaced
(R268): one way the engine's reads can come out. -/
def Reading (s : State) (m : Memory (BitVec 16)) : Prop :=
  ∀ i, Memory.read? m i = Memory.read? s.src i ∨ (i, Memory.read? m i) ∈ s.srcRaces

/-- The seven PACK command words (`30_encoding.md` R94). -/
def packWords : List Word :=
  [0x30000001#32, 0x30000002#32, 0x30000003#32, 0x30000004#32, 0x30000005#32, 0x30000006#32, 0x30000007#32]

/-- How many steps the actions of an agenda take at most while a command runs: one each, and one for each read
a `WAIT` lets pass. -/
def agendaSteps : List HostAction → Nat
  | [] => 0
  | .wait reads :: rest => reads + 1 + agendaSteps rest
  | _ :: rest => 1 + agendaSteps rest

/-- `px(y, x)` at clamp depth `d` (`47_dispatch.md` R208). -/
def pixelAt (s : State) (d y x : Nat) : Pixel :=
  if x < widthOf s then
    { a := min (sampleAt s (3 * (y * widthOf s + x))) (2 ^ d - 1)
      b := min (sampleAt s (3 * (y * widthOf s + x) + 1)) (2 ^ d - 1)
      c := min (sampleAt s (3 * (y * widthOf s + x) + 2)) (2 ^ d - 1) }
  else zeroPixel

/-- Every component of a pixel is below `2 ^ d` (`40_clamp.md` R112 (c)). -/
def Pixel.fits (p : Pixel) (d : Nat) : Prop := p.a < 2 ^ d ∧ p.b < 2 ^ d ∧ p.c < 2 ^ d

/-- An offset lies in the write extent of a PACK: byte `k < fs` of some row (`20_memory.md` R62). -/
def InExtent (rows st fs o : Nat) : Prop := ∃ y k, y < rows ∧ k < fs ∧ o = y * st + k

/-- The state a successful command leaves, memories aside: RESULT, ERR_INFO = 0, STATUS = 0x00000002, and
no sequencer (`10_state.md` R28 to R30, R33). -/
def succeeded (value : Nat) (s : State) : State :=
  { s with result := BitVec.ofNat 32 value, errInfo := 0x00000000#32, status := 0x00000002#32, seq := none }

/-- The state a fault leaves: RESULT = 0, ERR_INFO the detail, STATUS = the code with DONE
(`60_exceptions.md` R236). -/
def faulted (code info : Nat) (s : State) : State :=
  { s with result := 0x00000000#32, errInfo := BitVec.ofNat 32 info
           status := BitVec.ofNat 32 (code * 16 + 2), seq := none }

/-- The legal values of STATUS (`10_state.md` R27). -/
def legalStatus : List Word :=
  [0x00000000#32, 0x00000001#32, 0x00000002#32, 0x00000012#32, 0x00000022#32, 0x00000032#32, 0x00000042#32]

/-- Which ERR_INFO goes with which error code (`60_exceptions.md` R231, R244). -/
def infoFits (err : Nat) (info cmd : Word) : Prop :=
  (err = 0 → info = 0) ∧
  (err = 1 → info.toNat = 0 ∨ (8 ≤ info.toNat ∧ info.toNat ≤ 255)) ∧
  (err = 2 → 1 ≤ info.toNat ∧ info.toNat ≤ 5) ∧
  (err = 3 → 1 ≤ info.toNat) ∧
  (err = 4 → info = cmd)

/-- What holds of the machine between any two steps. -/
structure Inv (s : State) : Prop where
  /-- STATUS has one of its seven legal values (`10_state.md` R27) -/
  status_legal : s.status ∈ legalStatus
  /-- the sequencer exists exactly while BUSY (R33; log entry 2) -/
  seq_busy : s.seq.isSome = s.busy
  /-- CFG bits 31:1 read 0 (R31) -/
  cfg_reserved : s.cfg.toNat < 2
  /-- idle: no command since reset (R27, R28, R36) -/
  idle_clear : s.status = 0 → s.cmd = 0 ∧ s.result = 0 ∧ s.errInfo = 0
  /-- a faulted command left RESULT = 0 (R29) -/
  fault_result : s.done = true → s.err ≠ 0 → s.result = 0
  /-- ERR_INFO fits the error code (R30, `60_exceptions.md` R231) -/
  info_fits : s.done = true → infoFits s.err s.errInfo s.cmd
  /-- while reset is asserted the registers hold their reset values (`70_reset_and_hazards.md` R260) -/
  reset_held : s.resetLine = true →
    s.status = 0 ∧ s.width = 0 ∧ s.height = 0 ∧ s.stride = 0 ∧ s.dstLen = 0
  /-- the destination of a running PACK is lent (R267, R270) -/
  lent_running : ∀ l, runningLoan s = some l → l ∈ s.lent
  /-- both memories are in canonical form -/
  src_wf : Memory.wf s.src
  dst_wf : Memory.wf s.dst

/-- A place of a group carries one of the bits `lo` to `hi - 1` of a sample (`46_pack_rgb12.md` R182). -/
def carries (r : SampleBit) (slot channel lo hi : Nat) : Prop :=
  r.slot = slot ∧ r.channel = channel ∧ lo ≤ r.bit ∧ r.bit < hi

/-- Two samples of a group are neighbours in the order of R182. -/
def Neighbours (i c i' c' : Nat) : Prop := 3 * i + c + 1 = 3 * i' + c' ∨ 3 * i' + c' + 1 = 3 * i + c

/-- A sample straddles bytes as R181 (c) says: eight of its bits, at one end, have a byte of the group to
themselves, and its other four share a byte with the low or the high four bits of a neighbour (log entry 13). -/
def Straddles (m : Nat → Nat → SampleBit) (i c : Nat) : Prop :=
  ∃ lo hi lo' hi', ((lo, hi, lo', hi') = (0, 8, 8, 12) ∨ (lo, hi, lo', hi') = (4, 12, 0, 4)) ∧
    (∃ k b, k < 9 ∧ b < 4 ∧ ∀ n, n < 8 → carries (m k (8 * b + n)) i c lo hi) ∧
    (∃ k b i' c' e, k < 9 ∧ b < 4 ∧ i' < 8 ∧ c' < 3 ∧ Neighbours i c i' c' ∧ (e = 0 ∨ e = 8) ∧
      ∀ n, n < 8 → carries (m k (8 * b + n)) i c lo' hi' ∨ carries (m k (8 * b + n)) i' c' e (e + 4))

/-- An admissible 12-bit map (R181; (a) and (b) are the shape of `groupR12`, (e) and (f) follow): a bijection
between the 288 bits of a group and the 288 bits of its samples (d), in which every sample straddles bytes
(c). -/
structure AdmissibleMap (m : Nat → Nat → SampleBit) : Prop where
  in_range : ∀ k b, k < 9 → b < 32 → (m k b).slot < 8 ∧ (m k b).channel < 3 ∧ (m k b).bit < 12
  injective : ∀ k b k' b', k < 9 → b < 32 → k' < 9 → b' < 32 → m k b = m k' b' → k = k' ∧ b = b'
  surjective : ∀ i c n, i < 8 → c < 3 → n < 12 → ∃ k b, k < 9 ∧ b < 32 ∧ m k b = ⟨i, c, n⟩
  straddles : ∀ i c, i < 8 → c < 3 → Straddles m i c

/-- The nine words of a 12-bit group as `46_pack_rgb12.md` R183 writes them out, for the clamped pixels
`p 0 .. p 7` of its slots. -/
def writtenWord (p : Nat → Pixel) : Nat → Nat
  | 0 => ((p 0).c &&& 0xFF) <<< 24 ||| (p 0).b <<< 12 ||| (p 0).a
  | 1 => ((p 1).c &&& 0xF) <<< 28 ||| (p 1).b <<< 16 ||| (p 1).a <<< 4 ||| (p 0).c >>> 8
  | 2 => (p 2).b <<< 20 ||| (p 2).a <<< 8 ||| (p 1).c >>> 4
  | 3 => ((p 3).b &&& 0xFF) <<< 24 ||| (p 3).a <<< 12 ||| (p 2).c
  | 4 => ((p 4).b &&& 0xF) <<< 28 ||| (p 4).a <<< 16 ||| (p 3).c <<< 4 ||| (p 3).b >>> 8
  | 5 => (p 5).a <<< 20 ||| (p 4).c <<< 8 ||| (p 4).b >>> 4
  | 6 => ((p 6).a &&& 0xFF) <<< 24 ||| (p 5).c <<< 12 ||| (p 5).b
  | 7 => ((p 7).a &&& 0xF) <<< 28 ||| (p 6).c <<< 16 ||| (p 6).b <<< 4 ||| (p 6).a >>> 8
  | _ => (p 7).c <<< 20 ||| (p 7).b <<< 8 ||| (p 7).a >>> 4

/-- The group of eight zero pixels but for one sample, which is `v`. -/
def oneSample (slot channel v : Nat) : List Pixel :=
  (List.range 8).map fun i =>
    if i = slot then
      { a := if channel = 0 then v else 0, b := if channel = 1 then v else 0
        c := if channel = 2 then v else 0 }
    else zeroPixel

/-- The state the registers of `s` are in after reset, the memories and the model's own fields aside
(`10_state.md` R36, `70_reset_and_hazards.md` R261). -/
def inReset (s : State) : State :=
  { s with cmd := 0x00000000#32, status := 0x00000000#32, result := 0x00000000#32, errInfo := 0x00000000#32
           width := 0x00000000#32, height := 0x00000000#32, stride := 0x00000000#32
           dstLen := 0x00000000#32, seq := none, resetLine := true, lent := [] }

/-- A run that stops neither in a fault nor in a refusal within `k` steps. -/
def SafeFor (k : Nat) (s : State) : Prop := ∃ t, Host.Core.run Sys2Proof.core k s = .next t

end Sys2Proof.Machine
end

