-- ==== Sys2Proof/Certificates/Slice0/Obligations.lean ====
section
/-! DEFINITION. The statements for the provers. Each docstring names the rule of `spec/` a statement
formalises, or says that it states a choice of the model and names the log entry. -/

open Sys2Proof Sys2Proof.Machine

/-! ## Encoding -/

/-- `30_encoding.md` R94: the exact words that select each of the 17 commands. -/
def Obligations.OpcodeMapSelectsExactWords : Prop :=
  (∀ (c : Word) (v : Nat), decode c = .ok (.clamp8 v) ↔ v < 2 ^ 16 ∧ c = BitVec.ofNat 32 (0x18000000 + v)) ∧
  (∀ (c : Word) (v : Nat), decode c = .ok (.clamp10 v) ↔ v < 2 ^ 16 ∧ c = BitVec.ofNat 32 (0x1A000000 + v)) ∧
  (∀ (c : Word) (v : Nat), decode c = .ok (.clamp12 v) ↔ v < 2 ^ 16 ∧ c = BitVec.ofNat 32 (0x1C000000 + v)) ∧
  (∀ c : Word, (decode c = .ok .geomRgb8b ↔ c = 0x20000001#32) ∧ (decode c = .ok .geomRgb8r ↔ c = 0x20000002#32) ∧
    (decode c = .ok .geomYuv8 ↔ c = 0x20000003#32) ∧ (decode c = .ok .geomR210 ↔ c = 0x20000004#32) ∧
    (decode c = .ok .geomYuv10 ↔ c = 0x20000005#32) ∧ (decode c = .ok .geomR12b ↔ c = 0x20000006#32) ∧
    (decode c = .ok .geomR12l ↔ c = 0x20000007#32)) ∧
  (∀ c : Word, (decode c = .ok .packRgb8b ↔ c = 0x30000001#32) ∧ (decode c = .ok .packRgb8r ↔ c = 0x30000002#32) ∧
    (decode c = .ok .packYuv8 ↔ c = 0x30000003#32) ∧ (decode c = .ok .packR210 ↔ c = 0x30000004#32) ∧
    (decode c = .ok .packYuv10 ↔ c = 0x30000005#32) ∧ (decode c = .ok .packR12b ↔ c = 0x30000006#32) ∧
    (decode c = .ok .packR12l ↔ c = 0x30000007#32))

/-- Decoding the word of a well-formed command gives the command back, for all 17 commands and every
immediate the encoding admits (`30_encoding.md`, sections 1 to 3). -/
def Obligations.DecodeOfEncodeIsTheCommand : Prop :=
  ∀ i : Instr, i.wellFormed = true → decode (encode i) = .ok i

/-- A word that decodes has one meaning: it is the word the encoder gives that command, which is well-formed
(`30_encoding.md`, section 3). -/
def Obligations.EncodeOfDecodeIsTheWord : Prop :=
  ∀ (c : Word) (i : Instr), decode c = .ok i → i.wellFormed = true ∧ encode i = c

/-- `30_encoding.md` R87, its last sentence: the decoder is total; R90's list decides IllegalCommand, R89
decides UnsupportedFormat, and everything else is a command. -/
def Obligations.EveryWordIsACommandOrOneFault : Prop :=
  ∀ c : Word,
    (legalWord c = false → decode c = .error (.illegalCommand c)) ∧
    (legalWord c = true → formatRecognised c = false → decode c = .error (.unsupportedFormat (c.toNat % 256))) ∧
    (legalWord c = true → formatRecognised c = true → ∃ i, decode c = .ok i)

/-- A few words of `30_encoding.md` R94, one of each family, decode as written there. -/
def Obligations.SampleWordsDecode : Prop :=
  decode 0x180000FE#32 = .ok (.clamp8 0xFE) ∧ decode 0x1A0003FF#32 = .ok (.clamp10 0x3FF) ∧
  decode 0x1C000ABC#32 = .ok (.clamp12 0xABC) ∧ decode 0x20000004#32 = .ok .geomR210 ∧
  decode 0x30000007#32 = .ok .packR12l ∧ decode 0x19000005#32 = .error (.illegalCommand 0x19000005#32) ∧
  decode 0x30000009#32 = .error (.unsupportedFormat 9)

/-! ## The step -/

/-- On the engine's turn, with a command launched, a step is the meaning of the decoded command on the state
without the used-up agenda entry. -/
def Obligations.StepRunsTheLaunchedCommand : Prop :=
  ∀ (c : Word) (s : State) (rest : List HostAction) (i : Instr),
    Launched c s rest → decode c = .ok i → i.wellFormed = true → step s = exec i (setAgenda rest s)

/-- A table word placed by `withFetchWord` is the command the very next step runs, and what comes after it is
the host's agenda as it was (log entry 5). -/
def Obligations.PlacedWordRunsNext : Prop :=
  ∀ (s : State) (nbits w : Nat) (i : Instr), decodeTableWord nbits w = some i →
    step (s.withFetchWord nbits w) = exec i (setAgenda s.agenda (s.withFetchWord nbits w))

/-- `60_exceptions.md` R237 and R232: a launched word that is no command ends in fault entry, with the word
or the FMT value recorded, and nothing else changes. -/
def Obligations.LaunchedBadWordFaults : Prop :=
  ∀ (c : Word) (s : State) (rest : List HostAction), Launched c s rest →
    (legalWord c = false → step s = .next (faulted 4 c.toNat (setAgenda rest s))) ∧
    (legalWord c = true → formatRecognised c = false →
      step s = .next (faulted 1 (c.toNat % 256) (setAgenda rest s)))

/-- The engine is idle without a command (`00_scope.md` R8) and while reset is asserted (`70_reset_and_hazards.md`
R260): its turn changes nothing but the agenda. -/
def Obligations.IdleEngineChangesNothing : Prop :=
  ∀ (s : State) (rest : List HostAction), EnginesTurn s rest → (s.busy = false ∨ s.resetLine = true) →
    step s = .next (setAgenda rest s)

/-! ## CLAMP -/

/-- `40_clamp.md` R114, R115, R116: the result of each CLAMP command, by its meaning and as a launched word;
no register but STATUS, RESULT and ERR_INFO changes and no memory. -/
def Obligations.ClampCommandsSaturate : Prop :=
  (∀ (v : Nat) (s : State),
    exec (.clamp8 v) s = .next (succeeded (min v 255) s) ∧
    exec (.clamp10 v) s = .next (succeeded (min v 1023) s) ∧
    exec (.clamp12 v) s = .next (succeeded (min v 4095) s)) ∧
  (∀ (v : Nat) (s : State) (rest : List HostAction), v < 2 ^ 16 →
    (Launched (BitVec.ofNat 32 (0x18000000 + v)) s rest →
      step s = .next (succeeded (min v 255) (setAgenda rest s))) ∧
    (Launched (BitVec.ofNat 32 (0x1A000000 + v)) s rest →
      step s = .next (succeeded (min v 1023) (setAgenda rest s))) ∧
    (Launched (BitVec.ofNat 32 (0x1C000000 + v)) s rest →
      step s = .next (succeeded (min v 4095) (setAgenda rest s))))

/-- `40_clamp.md` R112: ceiling, idempotence, range and monotonicity, for the three declared depths. -/
def Obligations.ClampLaws : Prop :=
  ∀ d : Nat, d = 8 ∨ d = 10 ∨ d = 12 → ∀ v v' : Nat,
    (2 ^ d - 1 < v → clamp v d = 2 ^ d - 1) ∧ (v ≤ 2 ^ d - 1 → clamp v d = v) ∧
    clamp (clamp v d) d = clamp v d ∧ clamp v d ≤ 2 ^ d - 1 ∧ (v ≤ v' → clamp v d ≤ clamp v' d)

/-! ## GEOM -/

/-- `41_geometry.md` R129, R130, R133: the stride of the word-per-pixel formats, and the two faults. -/
def Obligations.GeomWordPerPixel : Prop :=
  decode 0x20000001#32 = .ok .geomRgb8b ∧ decode 0x20000002#32 = .ok .geomRgb8r ∧
  decode 0x20000005#32 = .ok .geomYuv10 ∧
  ∀ (i : Instr) (s : State), i = .geomRgb8b ∨ i = .geomRgb8r ∨ i = .geomYuv10 →
    (s.width.toInt ≤ 0 → exec i s = .next (faulted 2 1 s)) ∧
    (0 < s.width.toInt → s.width.toInt ≤ 1073741823 →
      exec i s = .next (succeeded (s.width.toInt.toNat * 4) s)) ∧
    (1073741823 < s.width.toInt → exec i s = .next (faulted 2 3 s))

/-- `41_geometry.md` R131. -/
def Obligations.GeomYuv8PixelPairs : Prop :=
  decode 0x20000003#32 = .ok .geomYuv8 ∧
  ∀ s : State,
    (s.width.toInt ≤ 0 → exec .geomYuv8 s = .next (faulted 2 1 s)) ∧
    (0 < s.width.toInt → s.width.toInt ≤ 2147483646 →
      exec .geomYuv8 s = .next (succeeded ((s.width.toInt.toNat + 1) / 2 * 4) s)) ∧
    (s.width.toInt = 2147483647 → exec .geomYuv8 s = .next (faulted 2 3 s))

/-- `41_geometry.md` R132. -/
def Obligations.GeomR210AlignsRows : Prop :=
  decode 0x20000004#32 = .ok .geomR210 ∧
  ∀ s : State,
    (s.width.toInt ≤ 0 → exec .geomR210 s = .next (faulted 2 1 s)) ∧
    (0 < s.width.toInt → s.width.toInt ≤ 1073741760 →
      exec .geomR210 s = .next (succeeded ((s.width.toInt.toNat + 63) / 64 * 256) s)) ∧
    (1073741760 < s.width.toInt → exec .geomR210 s = .next (faulted 2 3 s))

/-- `41_geometry.md` R134, R135. -/
def Obligations.GeomR12GroupsOfEight : Prop :=
  decode 0x20000006#32 = .ok .geomR12b ∧ decode 0x20000007#32 = .ok .geomR12l ∧
  ∀ (i : Instr) (s : State), i = .geomR12b ∨ i = .geomR12l →
    (s.width.toInt ≤ 0 → exec i s = .next (faulted 2 1 s)) ∧
    (0 < s.width.toInt → s.width.toInt ≤ 954437176 →
      exec i s = .next (succeeded ((s.width.toInt.toNat + 7) / 8 * 36) s)) ∧
    (954437176 < s.width.toInt → exec i s = .next (faulted 2 3 s))

/-- `41_geometry.md` R127: the floor stride is monotone, equal to that of the width rounded up to the row
unit, a positive multiple of the alignment, and enough for the pixels. -/
def Obligations.FloorStrideLaws : Prop :=
  ∀ (f : WireFormat) (w w' : Nat), 1 ≤ w →
    (w ≤ w' → floorStride f w ≤ floorStride f w') ∧
    floorStride f w = floorStride f (ceilDiv w (descriptor f).rowPixels * (descriptor f).rowPixels) ∧
    0 < floorStride f w ∧ floorStride f w % (descriptor f).rowAlign = 0 ∧
    (f = .rgb8b ∨ f = .rgb8r ∨ f = .r210 ∨ f = .yuv10 → 4 * w ≤ floorStride f w) ∧
    (f = .yuv8 → 2 * w ≤ floorStride f w ∧ floorStride f w % 4 = 0) ∧
    (f = .r12b ∨ f = .r12l → 9 * w ≤ 2 * floorStride f w ∧ floorStride f w % 36 = 0)

/-! ## PACK: checks -/

/-- `47_dispatch.md` R205, R206, R207: what each check of a PACK command raises, in their order; a command that
passes them all ends in no fault. -/
def Obligations.PackChecksInOrder : Prop :=
  ∀ (i : Instr) (f : WireFormat) (s : State), packFormatOf i = some f →
    (s.width.toInt ≤ 0 → exec i s = .next (faulted 2 1 s)) ∧
    (0 < s.width.toInt →
      (s.height.toInt ≤ 0 → exec i s = .next (faulted 2 2 s)) ∧
      (0 < s.height.toInt →
        (2 ^ 32 ≤ floorStride f (widthOf s) → exec i s = .next (faulted 2 3 s)) ∧
        (floorStride f (widthOf s) < 2 ^ 32 →
          (s.stride.toNat < floorStride f (widthOf s) → exec i s = .next (faulted 2 4 s)) ∧
          (floorStride f (widthOf s) ≤ s.stride.toNat →
            (s.stride.toNat % (descriptor f).rowAlign ≠ 0 → exec i s = .next (faulted 2 5 s)) ∧
            (s.stride.toNat % (descriptor f).rowAlign = 0 →
              s.dstLen.toNat < heightOf s * s.stride.toNat →
                exec i s = .next (faulted 3 (min (heightOf s * s.stride.toNat) (2 ^ 32 - 1)) s)))))) ∧
    (PackAccepted (floorStride f (widthOf s)) (descriptor f).rowAlign s → ∀ t, exec i s = .next t → t.err = 0)

/-! ## PACK: results -/

/-- PACK.RGB8B and PACK.RGB8R complete and store, for every pixel, the bytes of `42_pack_rgb8.md` R142's
table, and change nothing else. -/
def Obligations.PackRgb8StoresPixels : Prop :=
  ∀ s : State, PackAccepted (widthOf s * 4) 4 s → PlaneDefined s → Unraced s →
    (∃ t, exec .packRgb8b s = .next t ∧ t = succeeded (widthOf s * 4) (setDst t.dst s) ∧
      (∀ y x, y < heightOf s → x < widthOf s →
        Memory.read? t.dst (dstOffset s.stride.toNat y (4 * x)) = some (BitVec.ofNat 8 (pixelAt s 8 y x).c) ∧
        Memory.read? t.dst (dstOffset s.stride.toNat y (4 * x + 1)) = some (BitVec.ofNat 8 (pixelAt s 8 y x).b) ∧
        Memory.read? t.dst (dstOffset s.stride.toNat y (4 * x + 2)) = some (BitVec.ofNat 8 (pixelAt s 8 y x).a) ∧
        Memory.read? t.dst (dstOffset s.stride.toNat y (4 * x + 3)) = some 0xFF#8) ∧
      (∀ o, ¬ InExtent (heightOf s) s.stride.toNat (widthOf s * 4) o →
        Memory.read? t.dst o = Memory.read? s.dst o)) ∧
    (∃ t, exec .packRgb8r s = .next t ∧ t = succeeded (widthOf s * 4) (setDst t.dst s) ∧
      (∀ y x, y < heightOf s → x < widthOf s →
        Memory.read? t.dst (dstOffset s.stride.toNat y (4 * x)) = some (BitVec.ofNat 8 (pixelAt s 8 y x).a) ∧
        Memory.read? t.dst (dstOffset s.stride.toNat y (4 * x + 1)) = some (BitVec.ofNat 8 (pixelAt s 8 y x).b) ∧
        Memory.read? t.dst (dstOffset s.stride.toNat y (4 * x + 2)) = some (BitVec.ofNat 8 (pixelAt s 8 y x).c) ∧
        Memory.read? t.dst (dstOffset s.stride.toNat y (4 * x + 3)) = some 0xFF#8) ∧
      (∀ o, ¬ InExtent (heightOf s) s.stride.toNat (widthOf s * 4) o →
        Memory.read? t.dst o = Memory.read? s.dst o))

/-- PACK.YUV8 completes and stores `[u0, y0, v0, y1]` for every pixel pair (`43_pack_yuv8.md` R152, R154); the
luma of the unused slot of an odd width is 0 (R153). -/
def Obligations.PackYuv8StoresPairs : Prop :=
  ∀ s : State, PackAccepted ((widthOf s + 1) / 2 * 4) 4 s → PlaneDefined s → Unraced s →
    ∃ t, exec .packYuv8 s = .next t ∧ t = succeeded ((widthOf s + 1) / 2 * 4) (setDst t.dst s) ∧
      (∀ y p, y < heightOf s → p < (widthOf s + 1) / 2 →
        Memory.read? t.dst (dstOffset s.stride.toNat y (4 * p)) =
          some (BitVec.ofNat 8 (pixelAt s 8 y (2 * p)).b) ∧
        Memory.read? t.dst (dstOffset s.stride.toNat y (4 * p + 1)) =
          some (BitVec.ofNat 8 (pixelAt s 8 y (2 * p)).a) ∧
        Memory.read? t.dst (dstOffset s.stride.toNat y (4 * p + 2)) =
          some (BitVec.ofNat 8 (pixelAt s 8 y (2 * p)).c) ∧
        Memory.read? t.dst (dstOffset s.stride.toNat y (4 * p + 3)) =
          some (BitVec.ofNat 8 (pixelAt s 8 y (2 * p + 1)).a) ∧
        (widthOf s ≤ 2 * p + 1 → Memory.read? t.dst (dstOffset s.stride.toNat y (4 * p + 3)) = some 0x00#8)) ∧
      (∀ o, ¬ InExtent (heightOf s) s.stride.toNat ((widthOf s + 1) / 2 * 4) o →
        Memory.read? t.dst o = Memory.read? s.dst o)

/-- PACK.R210 completes and stores, for each of the 64-slot units' slots, the four bytes of `44_pack_r210.md`
R162's table, with the default `R210_WORD` (log entry 9); slots beyond the width give zero bytes (R164). -/
def Obligations.PackR210StoresWords : Prop :=
  ∀ s : State, PackAccepted ((widthOf s + 63) / 64 * 256) 256 s → PlaneDefined s → Unraced s →
    ∃ t, exec .packR210 s = .next t ∧ t = succeeded ((widthOf s + 63) / 64 * 256) (setDst t.dst s) ∧
      (∀ y x, y < heightOf s → x < (widthOf s + 63) / 64 * 64 →
        Memory.read? t.dst (dstOffset s.stride.toNat y (4 * x)) =
          some (BitVec.ofNat 8 ((pixelAt s 10 y x).a / 16)) ∧
        Memory.read? t.dst (dstOffset s.stride.toNat y (4 * x + 1)) =
          some (BitVec.ofNat 8 ((pixelAt s 10 y x).a % 16 * 16 + (pixelAt s 10 y x).b / 64)) ∧
        Memory.read? t.dst (dstOffset s.stride.toNat y (4 * x + 2)) =
          some (BitVec.ofNat 8 ((pixelAt s 10 y x).b % 64 * 4 + (pixelAt s 10 y x).c / 256)) ∧
        Memory.read? t.dst (dstOffset s.stride.toNat y (4 * x + 3)) =
          some (BitVec.ofNat 8 ((pixelAt s 10 y x).c % 256)) ∧
        (widthOf s ≤ x → ∀ m, m < 4 →
          Memory.read? t.dst (dstOffset s.stride.toNat y (4 * x + m)) = some 0x00#8)) ∧
      (∀ o, ¬ InExtent (heightOf s) s.stride.toNat ((widthOf s + 63) / 64 * 256) o →
        Memory.read? t.dst o = Memory.read? s.dst o)

/-- For every `R210_WORD` (`44_pack_r210.md` R161, `00_scope.md` R10) PACK.R210 completes and stores the word of
every slot big-endian, the word of the zero pixel in the unused ones (R164). -/
def Obligations.R210HoldsForEveryWordFunction : Prop :=
  ∀ (cfg : Config) (s : State), PackAccepted ((widthOf s + 63) / 64 * 256) 256 s → PlaneDefined s → Unraced s →
    ∃ t, execWith cfg .packR210 s = .next t ∧ t = succeeded ((widthOf s + 63) / 64 * 256) (setDst t.dst s) ∧
      (∀ y x m, y < heightOf s → x < (widthOf s + 63) / 64 * 64 → m < 4 →
        Memory.read? t.dst (dstOffset s.stride.toNat y (4 * x + m)) =
          some (byteOf (cfg.r210Word (pixelAt s 10 y x).a (pixelAt s 10 y x).b (pixelAt s 10 y x).c) (3 - m)) ∧
        (widthOf s ≤ x → Memory.read? t.dst (dstOffset s.stride.toNat y (4 * x + m)) =
          some (byteOf (cfg.r210Word 0 0 0) (3 - m)))) ∧
      (∀ o, ¬ InExtent (heightOf s) s.stride.toNat ((widthOf s + 63) / 64 * 256) o →
        Memory.read? t.dst o = Memory.read? s.dst o)

/-- PACK.YUV10 completes and stores, for every pixel, the four bytes of `45_pack_yuv10.md` R172's table. -/
def Obligations.PackYuv10StoresWords : Prop :=
  ∀ s : State, PackAccepted (widthOf s * 4) 4 s → PlaneDefined s → Unraced s →
    ∃ t, exec .packYuv10 s = .next t ∧ t = succeeded (widthOf s * 4) (setDst t.dst s) ∧
      (∀ y x, y < heightOf s → x < widthOf s →
        Memory.read? t.dst (dstOffset s.stride.toNat y (4 * x)) =
          some (BitVec.ofNat 8 ((pixelAt s 10 y x).b % 256)) ∧
        Memory.read? t.dst (dstOffset s.stride.toNat y (4 * x + 1)) =
          some (BitVec.ofNat 8 ((pixelAt s 10 y x).a % 64 * 4 + (pixelAt s 10 y x).b / 256)) ∧
        Memory.read? t.dst (dstOffset s.stride.toNat y (4 * x + 2)) =
          some (BitVec.ofNat 8 ((pixelAt s 10 y x).c % 16 * 16 + (pixelAt s 10 y x).a / 64)) ∧
        Memory.read? t.dst (dstOffset s.stride.toNat y (4 * x + 3)) =
          some (BitVec.ofNat 8 ((pixelAt s 10 y x).c / 16))) ∧
      (∀ o, ¬ InExtent (heightOf s) s.stride.toNat (widthOf s * 4) o →
        Memory.read? t.dst o = Memory.read? s.dst o)

/-- PACK.R12B and PACK.R12L complete and store, for every group of eight slots, the nine words of
`46_pack_rgb12.md` R183 (the default `R12_MAP`, which the spec supplies itself: log entry 10), big-endian
(R185) and little-endian (R184). -/
def Obligations.PackR12StoresNineWords : Prop :=
  ∀ s : State, PackAccepted ((widthOf s + 7) / 8 * 36) 36 s → PlaneDefined s → Unraced s →
    (∃ t, exec .packR12b s = .next t ∧ t = succeeded ((widthOf s + 7) / 8 * 36) (setDst t.dst s) ∧
      (∀ y g k m, y < heightOf s → g < (widthOf s + 7) / 8 → k < 9 → m < 4 →
        Memory.read? t.dst (dstOffset s.stride.toNat y (36 * g + 4 * k + m)) =
          some (byteOf (BitVec.ofNat 32 (writtenWord (fun i => pixelAt s 12 y (8 * g + i)) k)) (3 - m))) ∧
      (∀ o, ¬ InExtent (heightOf s) s.stride.toNat ((widthOf s + 7) / 8 * 36) o →
        Memory.read? t.dst o = Memory.read? s.dst o)) ∧
    (∃ t, exec .packR12l s = .next t ∧ t = succeeded ((widthOf s + 7) / 8 * 36) (setDst t.dst s) ∧
      (∀ y g k m, y < heightOf s → g < (widthOf s + 7) / 8 → k < 9 → m < 4 →
        Memory.read? t.dst (dstOffset s.stride.toNat y (36 * g + 4 * k + m)) =
          some (byteOf (BitVec.ofNat 32 (writtenWord (fun i => pixelAt s 12 y (8 * g + i)) k)) m)) ∧
      (∀ o, ¬ InExtent (heightOf s) s.stride.toNat ((widthOf s + 7) / 8 * 36) o →
        Memory.read? t.dst o = Memory.read? s.dst o))

/-- For every `R12_MAP` that meets `46_pack_rgb12.md` R181 (`00_scope.md` R10) PACK.R12B and PACK.R12L complete
and store, in byte `m` of word `k` of every group, the sample bits the map names for that byte's places: byte
`3 - m` of the word in R12B (R185), byte `m` in R12L (R184). -/
def Obligations.R12HoldsForEveryMap : Prop :=
  ∀ (cfg : Config) (s : State), AdmissibleMap cfg.r12Map →
    PackAccepted ((widthOf s + 7) / 8 * 36) 36 s → PlaneDefined s → Unraced s →
    (∃ t, execWith cfg .packR12b s = .next t ∧ t = succeeded ((widthOf s + 7) / 8 * 36) (setDst t.dst s) ∧
      (∀ y g k m, y < heightOf s → g < (widthOf s + 7) / 8 → k < 9 → m < 4 →
        ∃ B, Memory.read? t.dst (dstOffset s.stride.toNat y (36 * g + 4 * k + m)) = some B ∧
          ∀ n r, n < 8 → r = cfg.r12Map k (8 * (3 - m) + n) →
            B.getLsbD n = ((pixelAt s 12 y (8 * g + r.slot)).channel r.channel).testBit r.bit) ∧
      (∀ o, ¬ InExtent (heightOf s) s.stride.toNat ((widthOf s + 7) / 8 * 36) o →
        Memory.read? t.dst o = Memory.read? s.dst o)) ∧
    (∃ t, execWith cfg .packR12l s = .next t ∧ t = succeeded ((widthOf s + 7) / 8 * 36) (setDst t.dst s) ∧
      (∀ y g k m, y < heightOf s → g < (widthOf s + 7) / 8 → k < 9 → m < 4 →
        ∃ B, Memory.read? t.dst (dstOffset s.stride.toNat y (36 * g + 4 * k + m)) = some B ∧
          ∀ n r, n < 8 → r = cfg.r12Map k (8 * m + n) →
            B.getLsbD n = ((pixelAt s 12 y (8 * g + r.slot)).channel r.channel).testBit r.bit) ∧
      (∀ o, ¬ InExtent (heightOf s) s.stride.toNat ((widthOf s + 7) / 8 * 36) o →
        Memory.read? t.dst o = Memory.read? s.dst o))

/-- `00_scope.md` R10: the parameters are arguments of the machine, which `exec`, `step` and `State.reset` run at
their defaults. `R210_WORD` and `R12_MAP` reach no command but PACK.R210, PACK.R12B and PACK.R12L, and there
nothing but the bytes of the write extent. -/
def Obligations.ParametersReachOnlyTheirBytes : Prop :=
  (∀ i s, execWith defaultConfig i s = exec i s) ∧ (∀ s, stepWith defaultConfig s = step s) ∧
  State.resetOf defaultConfig = State.reset ∧
  (∀ (cfg : Config) (i : Instr) (s : State), i ≠ .packR210 → i ≠ .packR12b → i ≠ .packR12l →
    execWith cfg i s = exec i s) ∧
  (∀ (cfg : Config) (i : Instr) (s t : State), exec i s = .next t →
    ∃ t', execWith cfg i s = .next t' ∧ t' = { t with dst := t'.dst } ∧
      ∀ o, t.err ≠ 0 ∨ (∀ f, packFormatOf i = some f →
          ¬ InExtent (heightOf s) s.stride.toNat (floorStride f (widthOf s)) o) →
        Memory.read? t'.dst o = Memory.read? t.dst o) ∧
  (∀ (cfg : Config) (i : Instr) (s : State), (∃ e, exec i s = .fault e) ↔ ∃ e, execWith cfg i s = .fault e)

/-! ## Layout properties -/

/-- `42_pack_rgb8.md` R145. -/
def Obligations.Rgb8RoundTrip : Prop :=
  ∀ (hostLe swap : Bool) (p : Pixel), p.fits 8 →
    unpackRgb8 swap (groupRgb8 hostLe swap [p]) = p ∧ byteNat (groupRgb8 hostLe swap [p]) 3 = 0xFF

/-- `43_pack_yuv8.md` R155: even pixels in full, odd pixels in their luma, whose chroma leaves no trace. -/
def Obligations.Yuv8RoundTrip : Prop :=
  (∀ p q : Pixel, p.fits 8 → q.fits 8 →
    unpackYuv8Even (groupYuv8 [p, q]) = p ∧ unpackYuv8OddLuma (groupYuv8 [p, q]) = q.a ∧
    ∀ u v : Nat, groupYuv8 [p, ⟨q.a, u, v⟩] = groupYuv8 [p, q]) ∧
  groupYuv8 [⟨255, 255, 255⟩, ⟨255, 255, 255⟩] = [0xFF#8, 0xFF#8, 0xFF#8, 0xFF#8] ∧
  groupYuv8 [zeroPixel, zeroPixel] = [0x00#8, 0x00#8, 0x00#8, 0x00#8]

/-- `44_pack_r210.md` R166 (default `R210_WORD`). -/
def Obligations.R210RoundTrip : Prop :=
  ∀ (hostLe : Bool) (p : Pixel), p.fits 10 →
    unpackR210 (groupR210 defaultConfig hostLe [p]) = p ∧
    slice (beNumber (groupR210 defaultConfig hostLe [p])) 31 30 = 0

/-- `45_pack_yuv10.md` R174. -/
def Obligations.Yuv10RoundTrip : Prop :=
  ∀ hostLe : Bool,
    (∀ p : Pixel, p.fits 10 → unpackYuv10 (groupYuv10 hostLe [p]) = p ∧
      slice (leNumber (groupYuv10 hostLe [p])) 31 30 = 0) ∧
    groupYuv10 hostLe [zeroPixel] = [0x00#8, 0x00#8, 0x00#8, 0x00#8] ∧
    groupYuv10 hostLe [⟨1023, 1023, 1023⟩] = [0xFF#8, 0xFF#8, 0xFF#8, 0x3F#8]

/-- `46_pack_rgb12.md` R190 (default `R12_MAP`): eight clamped pixels come back whole from either variant. -/
def Obligations.R12RoundTrip : Prop :=
  ∀ (hostLe : Bool) (P : List Pixel), P.length = 8 → (∀ p ∈ P, p.fits 12) →
    unpackR12l (groupR12 defaultConfig hostLe false P) = P ∧
    unpackR12b (groupR12 defaultConfig hostLe true P) = P

/-- The default map (`46_pack_rgb12.md` R182) is admissible: a bijection on the 288 bits of a group (R181 (d)) in
which every sample straddles bytes (R181 (c), in the reading of log entry 13). -/
def Obligations.DefaultR12MapIsABijection : Prop := AdmissibleMap defaultConfig.r12Map

/-- `46_pack_rgb12.md` R191, for the default map and any map that meets R181: white is all ones and black
all zeros, in both variants. -/
def Obligations.R12WhiteAndBlackForEveryMap : Prop :=
  ∀ (cfg : Config) (hostLe be : Bool), AdmissibleMap cfg.r12Map ∨ cfg = defaultConfig →
    groupR12 cfg hostLe be (List.replicate 8 ⟨4095, 4095, 4095⟩) = List.replicate 36 0xFF#8 ∧
    groupR12 cfg hostLe be (List.replicate 8 ⟨0, 0, 0⟩) = List.replicate 36 0x00#8

/-- `46_pack_rgb12.md` R181 (f), for any admissible map: one saturated sample sets exactly the places the map
gives its twelve bits, and no other. -/
def Obligations.R12SaturatedSampleSetsItsBits : Prop :=
  ∀ (cfg : Config) (slot channel k b : Nat), AdmissibleMap cfg.r12Map → slot < 8 → channel < 3 → k < 9 → b < 32 →
    (r12Word cfg (oneSample slot channel 4095) k).getLsbD b =
      decide ((cfg.r12Map k b).slot = slot ∧ (cfg.r12Map k b).channel = channel)

/-- `46_pack_rgb12.md` R185: the two variants are each other with every aligned four-byte unit reversed, for
every map. -/
def Obligations.R12VariantsDifferInByteOrderOnly : Prop :=
  ∀ (cfg : Config) (hostLe : Bool) (P : List Pixel),
    reverseUnits (groupR12 cfg hostLe true P) = groupR12 cfg hostLe false P

/-- `46_pack_rgb12.md` R187: in a partial group of `r` clamped pixels, with the default map, every byte of the
R12L group from offset `ceil_div(36 * r, 8)` on is 0. -/
def Obligations.R12PartialGroupZeroFilled : Prop :=
  ∀ (hostLe : Bool) (P : List Pixel) (r t : Nat), P.length = 8 → (∀ p ∈ P, p.fits 12) → r < 8 →
    (∀ i, r ≤ i → i < 8 → slotPixel P i = zeroPixel) → ceilDiv (36 * r) 8 ≤ t → t < 36 → 0 < r →
    byteNat (groupR12 defaultConfig hostLe false P) t = 0

/-! ## What commands leave alone -/

/-- `20_memory.md` R62: an accepted PACK writes every byte of its extent, whatever it held, and no other; a
command that faults writes none; CLAMP and GEOM commands access neither memory. -/
def Obligations.PackWritesExactlyItsExtent : Prop :=
  (∀ (i : Instr) (f : WireFormat) (s : State), packFormatOf i = some f →
    PackAccepted (floorStride f (widthOf s)) (descriptor f).rowAlign s → PlaneDefined s → Unraced s →
    ∃ t, exec i s = .next t ∧
      (∀ o, ¬ InExtent (heightOf s) s.stride.toNat (floorStride f (widthOf s)) o →
        Memory.read? t.dst o = Memory.read? s.dst o) ∧
      (∀ d : Memory Byte, ∃ t', exec i (setDst d s) = .next t' ∧
        ∀ o, InExtent (heightOf s) s.stride.toNat (floorStride f (widthOf s)) o →
          (Memory.read? t.dst o).isSome = true ∧ Memory.read? t'.dst o = Memory.read? t.dst o)) ∧
  (∀ (i : Instr) (s t : State), exec i s = .next t → t.err ≠ 0 → t.dst = s.dst) ∧
  (∀ (i : Instr) (s : State), packFormatOf i = none → ∀ (m : Memory (BitVec 16)) (d : Memory Byte),
    ∃ t, exec i s = .next t ∧ t.src = s.src ∧ t.dst = s.dst ∧
      exec i (setSrc m (setDst d s)) = .next (setSrc m (setDst d t)))

/-- `10_state.md` R25: a command writes STATUS, RESULT, ERR_INFO and destination bytes, and nothing else of the
machine's; it ends DONE. (The sequencer is R33's; the choice counter is the model's own, log entry 8.) -/
def Obligations.CommandsWriteOnlyTheirResults : Prop :=
  ∀ (i : Instr) (s t : State), exec i s = .next t →
    t = { s with status := t.status, result := t.result, errInfo := t.errInfo, dst := t.dst, seq := none
                 choices := t.choices } ∧
    (Unraced s → t.choices = s.choices) ∧
    (t.status = 0x00000002#32 ∨ t.status = 0x00000022#32 ∨ t.status = 0x00000032#32)

/-- `60_exceptions.md` R236: a command that ends with a non-zero ERR has RESULT = 0 and has changed nothing but
RESULT, ERR_INFO and STATUS (and R33's sequencer is gone), and it has read neither memory; a launched word that
the decoder rejects ends the same way, with the code and detail of its fault. -/
def Obligations.FaultsAreAllOrNothing : Prop :=
  (∀ (i : Instr) (s t : State), exec i s = .next t → t.err ≠ 0 →
    t = faulted t.err t.errInfo.toNat s ∧
    ∀ (m : Memory (BitVec 16)) (d : Memory Byte),
      exec i (setSrc m (setDst d s)) = .next (setSrc m (setDst d t))) ∧
  (∀ (c : Word) (s : State) (rest : List HostAction) (e : CommandFault), Launched c s rest →
    decode c = .error e → step s = .next (faulted e.code e.info.toNat (setAgenda rest s)))

/-- `47_dispatch.md` R211 and `70_reset_and_hazards.md` R272: every command completes, but for a PACK that
passes its checks and reads a container that has no value, or had none when the host wrote it during the command
(R268). -/
def Obligations.CommandsStopOnlyOnUndefinedSource : Prop :=
  ∀ (i : Instr) (s : State),
    (∃ t, exec i s = .next t) ∨
    (∃ f n, packFormatOf i = some f ∧ PackAccepted (floorStride f (widthOf s)) (descriptor f).rowAlign s ∧
      n < 3 * widthOf s * heightOf s ∧ (Memory.read? s.src n = none ∨ (n, none) ∈ s.srcRaces) ∧
      exec i s = .fault (.srcUndefined n))

/-- `70_reset_and_hazards.md` R272: an accepted PACK over a plane with a container nothing has written, or had
written when the host wrote it during the command (R268), stops and does not read it as 0. -/
def Obligations.UndefinedSourceStopsThePack : Prop :=
  ∀ (i : Instr) (f : WireFormat) (s : State) (n : Nat), packFormatOf i = some f →
    PackAccepted (floorStride f (widthOf s)) (descriptor f).rowAlign s →
    n < 3 * widthOf s * heightOf s → Memory.read? s.src n = none ∨ (n, none) ∈ s.srcRaces →
    ∃ k, k < 3 * widthOf s * heightOf s ∧ (Memory.read? s.src k = none ∨ (k, none) ∈ s.srcRaces) ∧
      exec i s = .fault (.srcUndefined k)

/-- `20_memory.md` R58: the lane order of the write port (`HOST_LE`, CFG bit 0) changes no byte and no result. -/
def Obligations.BytesDoNotDependOnHostLe : Prop :=
  ∀ (i : Instr) (s t : State) (c : Word), exec i s = .next t →
    exec i { s with cfg := c } = .next { t with cfg := c }

/-- `10_state.md` R34 and `70_reset_and_hazards.md` R276: what a command answers and stores depends only on the
command, its operand registers and the source samples, whatever ran before. -/
def Obligations.CommandsHaveNoHistory : Prop :=
  ∀ (i : Instr) (s s' t : State), exec i s = .next t → Unraced s → Unraced s' →
    s'.width = s.width → s'.height = s.height → s'.stride = s.stride → s'.dstLen = s.dstLen → s'.src = s.src →
    ∃ t', exec i s' = .next t' ∧ t'.status = t.status ∧ t'.result = t.result ∧ t'.errInfo = t.errInfo ∧
      ∀ f, packFormatOf i = some f → t.err = 0 →
        ∀ o, InExtent (heightOf s) s.stride.toNat (floorStride f (widthOf s)) o →
          Memory.read? t'.dst o = Memory.read? t.dst o

/-- `47_dispatch.md` R213: the bytes of row `y` depend only on the samples of row `y`, the format and the
width; not on other rows, on HEIGHT, on STRIDE or on what the destination held. -/
def Obligations.RowsAreIndependent : Prop :=
  ∀ (i : Instr) (f : WireFormat) (s s' : State) (y : Nat), packFormatOf i = some f →
    PackAccepted (floorStride f (widthOf s)) (descriptor f).rowAlign s →
    PackAccepted (floorStride f (widthOf s')) (descriptor f).rowAlign s' →
    PlaneDefined s → PlaneDefined s' → Unraced s → Unraced s' →
    s'.width = s.width → y < heightOf s → y < heightOf s' →
    (∀ x c, x < widthOf s → c < 3 →
      Memory.read? s'.src (srcIndex (widthOf s) y x c) = Memory.read? s.src (srcIndex (widthOf s) y x c)) →
    ∃ t t', exec i s = .next t ∧ exec i s' = .next t' ∧
      ∀ k, k < floorStride f (widthOf s) →
        Memory.read? t'.dst (dstOffset s'.stride.toNat y k) = Memory.read? t.dst (dstOffset s.stride.toNat y k)

/-- A PACK whose host broke R267 or R268 completes with RESULT, ERR_INFO and STATUS as usual. Each byte of its
extent is what the command makes of one way its source reads can come out, every container at its value or at one
that the host's racing writes replaced (`70_reset_and_hazards.md` R268), or, if the host wrote that byte, the
host's (R267). Every byte outside keeps its value. That only the raced bytes are open, so that a byte of the extent
that no race touches is the command's, is the model's reading, log entry 7 (DESIGN CHOICE, unsafe): `20_memory.md`
R65 (c) calls every byte of the extent unspecified then. Which accesses count as races is log entry 7 too. -/
def Obligations.RacedPackStillCompletes : Prop :=
  ∀ (i : Instr) (f : WireFormat) (s : State), packFormatOf i = some f →
    PackAccepted (floorStride f (widthOf s)) (descriptor f).rowAlign s → PlaneReadable s →
    ∃ t u, exec i s = .next t ∧ exec i (withoutRaces s) = .next u ∧
      t = { succeeded (floorStride f (widthOf s)) (setDst t.dst s) with choices := t.choices } ∧
      (∀ y k o, y < heightOf s → k < floorStride f (widthOf s) → o = dstOffset s.stride.toNat y k →
        (∃ m t', Reading s m ∧ exec i (setSrc m (withoutRaces s)) = .next t' ∧
          (Memory.read? t.dst o = Memory.read? t'.dst o ∨
            (o ∈ s.dstRaces ∧ Memory.read? t.dst o = Memory.read? s.dst o))) ∧
        (o ∉ s.dstRaces →
          (∀ x ∈ s.srcRaces, ∀ j c, j < (descriptor f).groupPixels → c < 3 →
            x.1 ≠ srcIndex (widthOf s) y (k / (descriptor f).groupBytes * (descriptor f).groupPixels + j) c) →
          Memory.read? t.dst o = Memory.read? u.dst o)) ∧
      (∀ o, ¬ InExtent (heightOf s) s.stride.toNat (floorStride f (widthOf s)) o →
        Memory.read? t.dst o = Memory.read? s.dst o)

/-! ## The host's port -/

/-- A host write of CMD launches on a block that is not BUSY and is ignored on one that is (`10_state.md` R26,
R28). The launch of a PACK lends it the destination, `HEIGHT` rows of `STRIDE` bytes (`70_reset_and_hazards.md` R267,
R270), of which it stores the floor stride of each row if it passes its checks and else none; no other launch does.
The value of the sequencer at launch, the notes of races and the list of loans are the model's (log entries 2 and 7). -/
def Obligations.CmdWriteLaunches : Prop :=
  ∀ (s : State) (c : Word) (rest : List HostAction), s.agenda = .writeReg 0x00 32 c :: rest →
    s.resetLine = false →
    (s.busy = false → ∃ loans, step s = .next { s with
        agenda := rest, cmd := c, status := 0x00000001#32, seq := some ⟨0, 0⟩
        srcRaces := [], dstRaces := [], lent := loans } ∧
      (c ∉ packWords → loans = s.lent) ∧
      (∀ f, decode c = .ok (packInstr f) → ∃ n, loans = ⟨heightOf s, s.stride.toNat, n⟩ :: s.lent ∧
        (PackAccepted (floorStride f (widthOf s)) (descriptor f).rowAlign s → n = floorStride f (widthOf s)) ∧
        (¬ PackAccepted (floorStride f (widthOf s)) (descriptor f).rowAlign s → n = 0))) ∧
    (s.busy = true → step s = .next { s with agenda := rest })

/-- `10_state.md` R32: while BUSY a host write of any register, that of `MOVR` too, is ignored; a host read
of any register is allowed at any time, has no side effect on the block and returns the current value. (A read that
shows DONE = 1 ends the loans, `70_reset_and_hazards.md` R267, which are the model's own: log entry 7.) -/
def Obligations.BusyIgnoresWritesAndReadsAreFree : Prop :=
  ∀ (s : State) (r : Reg) (v : Word) (rest : List HostAction), s.resetLine = false →
    (s.agenda = .writeReg r.offset 32 v :: rest → s.busy = true → step s = .next { s with agenda := rest }) ∧
    (s.agenda = .writeBack r.offset 32 :: rest → s.busy = true → step s = .next { s with agenda := rest }) ∧
    (s.agenda = .readReg r.offset 32 :: rest → step s = .next { s with
      agenda := rest
      rdata := match r with
        | .cmd => s.cmd
        | .status => s.status
        | .result => s.result
        | .errInfo => s.errInfo
        | .width => s.width
        | .height => s.height
        | .stride => s.stride
        | .dstLen => s.dstLen
        | .cfg => s.cfg
      lent := if r = .status ∧ s.done = true then [] else s.lent })

/-- A host write of an operand register, while the block is not BUSY, stores any value (`10_state.md` R20,
R22, R23, R24), and only there. -/
def Obligations.OperandRegistersStoreAnyValue : Prop :=
  ∀ (s : State) (v : Word) (rest : List HostAction), s.resetLine = false → s.busy = false →
    (s.agenda = .writeReg 0x10 32 v :: rest → step s = .next { s with agenda := rest, width := v }) ∧
    (s.agenda = .writeReg 0x14 32 v :: rest → step s = .next { s with agenda := rest, height := v }) ∧
    (s.agenda = .writeReg 0x18 32 v :: rest → step s = .next { s with agenda := rest, stride := v }) ∧
    (s.agenda = .writeReg 0x1C 32 v :: rest → step s = .next { s with agenda := rest, dstLen := v })

/-- `10_state.md` R21: an access of another width, misaligned or above offset 0x20 is refused, and a write of a
read-only register is ignored. -/
def Obligations.RegisterAccessIsWholeAndAligned : Prop :=
  ∀ (s : State) (offset bits : Nat) (v : Word) (rest : List HostAction), s.resetLine = false →
    (bits ≠ 32 ∨ offset % 4 ≠ 0 ∨ 0x20 < offset →
      (s.agenda = .writeReg offset bits v :: rest → step s = .refused (.registerAccess offset bits)) ∧
      (s.agenda = .writeBack offset bits :: rest → step s = .refused (.registerAccess offset bits)) ∧
      (s.agenda = .readReg offset bits :: rest → step s = .refused (.registerAccess offset bits))) ∧
    (s.agenda = .writeReg offset bits v :: rest ∨ s.agenda = .writeBack offset bits :: rest → bits = 32 →
      offset = 0x04 ∨ offset = 0x08 ∨ offset = 0x0C ∨ offset = 0x20 →
      step s = .next { s with agenda := rest })

/-- `30_encoding.md` R93: a round of `WAIT` reads STATUS; it ends when DONE reads 1 and else reads again, after any
number of reads with the engine's turn in between (`70_reset_and_hazards.md` R274 bounds them not; how many is the
agenda's, log entry 5); the read that shows DONE = 1 ends the loans (R267; log entry 7); `MOVR` copies RESULT into
an operand register. -/
def Obligations.WaitPollsAndMovrCopies : Prop :=
  ∀ (s : State) (rest : List HostAction) (n : Nat), s.resetLine = false →
    (s.agenda = .wait n :: rest → s.done = true → step s = .next { s with
      agenda := rest, rdata := s.status, lent := [] }) ∧
    (s.agenda = .wait (n + 1) :: rest → s.done = false → step s = .next { s with
      agenda := .wait n :: rest, rdata := s.status }) ∧
    (s.agenda = .wait 0 :: rest → s.done = false → step s = .next { s with
      agenda := .engine :: .wait 0 :: rest, rdata := s.status }) ∧
    (∀ r : OperandReg, s.agenda = movrActions r ++ rest → s.busy = false →
      ∃ u, step s = .next u ∧ step u = .next (match r with
        | .width => { s with agenda := rest, rdata := s.result, width := s.result }
        | .height => { s with agenda := rest, rdata := s.result, height := s.result }
        | .stride => { s with agenda := rest, rdata := s.result, stride := s.result }
        | .dstLen => { s with agenda := rest, rdata := s.result, dstLen := s.result }))

/-- The host writes the two memories (`70_reset_and_hazards.md` R266). Lent are the containers below
`3 * WIDTH * HEIGHT` while the PACK runs, for after DONE = 1 no engine read is left (R268), and the bytes of every
loan (R267). A write of a lent container is noted with the value it replaced; a write of a byte that the running PACK
will store is noted, to be settled when it completes; a byte that a finished one stored ends as the host's or as it
was (R267); every other write lands. The notes and the loans are the model's, log entry 7. -/
def Obligations.HostMemoryWritesLand : Prop :=
  (∀ (s : State) (i : Nat),
    srcLent s i = true ↔ s.busy = true ∧ s.cmd ∈ packWords ∧ i < 3 * widthOf s * heightOf s) ∧
  (∀ (s : State) (o : Nat), dstLent s o = true ↔ ∃ l ∈ s.lent, o < l.rows * l.stride) ∧
  ∀ (s : State) (rest : List HostAction),
    (∀ i v, s.agenda = .writeSrc i v :: rest → ∃ t, step s = .next t ∧
      Memory.read? t.src i = some v ∧ (∀ j, j ≠ i → Memory.read? t.src j = Memory.read? s.src j) ∧
      t = { s with agenda := rest, src := t.src, srcRaces := t.srcRaces } ∧
      (srcLent s i = true → t.srcRaces = (i, Memory.read? s.src i) :: s.srcRaces) ∧
      (srcLent s i = false → t.srcRaces = s.srcRaces)) ∧
    (∀ (o : Nat) (b : Byte) (racing held : Prop), s.agenda = .writeDst o b :: rest →
      (racing ↔ ∃ f, runningPack s = some f ∧ PackAccepted (floorStride f (widthOf s)) (descriptor f).rowAlign s ∧
        InExtent (heightOf s) s.stride.toNat (floorStride f (widthOf s)) o) →
      (held ↔ ∃ l ∈ s.lent, o < l.rows * l.stride ∧ o % l.stride < l.stored) →
      ∃ t, step s = .next t ∧ (∀ j, j ≠ o → Memory.read? t.dst j = Memory.read? s.dst j) ∧
        t = { s with agenda := rest, dst := t.dst, dstRaces := t.dstRaces, choices := t.choices } ∧
        (racing → Memory.read? t.dst o = some b ∧ t.dstRaces = o :: s.dstRaces ∧ t.choices = s.choices) ∧
        (¬ racing → t.dstRaces = s.dstRaces) ∧
        (¬ racing → held → (Memory.read? t.dst o = some b ∨ Memory.read? t.dst o = Memory.read? s.dst o) ∧
          t.choices = s.choices + 1) ∧
        (¬ racing → ¬ held → Memory.read? t.dst o = some b ∧ t.choices = s.choices))

/-- `70_reset_and_hazards.md` R267: the destination range of a running PACK is lent, from the launch on, and a loan
stays until the host reads STATUS with DONE = 1. That an assertion of reset ends it too is the model's reading, log
entry 7. -/
def Obligations.LentUntilDoneIsRead : Prop :=
  (∀ (s : State) (f : WireFormat) (o : Nat), Inv s → runningPack s = some f →
    o < heightOf s * s.stride.toNat → dstLent s o = true) ∧
  (∀ s t : State, step s = .next t → (∀ l ∈ s.lent, l ∈ t.lent) ∨
    (t.lent = [] ∧ ((∃ rest, s.agenda = .assertReset :: rest) ∨
      (s.done = true ∧ ∃ rest, s.agenda = .readReg 0x04 32 :: rest ∨ ∃ n, s.agenda = .wait n :: rest))))

/-- What the host's reads of the memories return (`70_reset_and_hazards.md` R266): a source container its value,
and a stop by name if it has none (R272); a destination byte its value, some value if nothing has written it since
power-on (R263; log entry 4), some value if it is lent, until the host has read DONE = 1 (R267). A read changes
neither memory and is no race's note. -/
def Obligations.HostMemoryReadsAnswer : Prop :=
  ∀ (s : State) (rest : List HostAction),
    (∀ i v, s.agenda = .readSrc i :: rest → Memory.read? s.src i = some v →
      step s = .next { s with agenda := rest, rdata := v.setWidth 32 }) ∧
    (∀ i, s.agenda = .readSrc i :: rest → Memory.read? s.src i = none →
      step s = .fault (.srcUndefined i)) ∧
    (∀ o b, s.agenda = .readDst o :: rest → dstLent s o = false → Memory.read? s.dst o = some b →
      step s = .next { s with agenda := rest, rdata := b.setWidth 32 }) ∧
    (∀ o, s.agenda = .readDst o :: rest → dstLent s o = false → Memory.read? s.dst o = none →
      ∃ v : Byte, step s = .next { s with agenda := rest, rdata := v.setWidth 32 }) ∧
    (∀ o, s.agenda = .readDst o :: rest → dstLent s o = true →
      ∃ v : Byte, step s = .next { s with agenda := rest, rdata := v.setWidth 32, choices := s.choices + 1 })

/-! ## Reset -/

/-- `10_state.md` R36, `70_reset_and_hazards.md` R261: the registers after reset, for any configuration (CFG reads
its `HOST_LE`); the sequencer does not exist and the engine is idle. The last clause is the model's choice, log
entry 1 (DESIGN CHOICE): `State.reset` is that state at the default configuration, whose `HOST_LE` is 1. -/
def Obligations.ResetStateIsAllZeroButCfg : Prop :=
  (∀ cfg : Config,
    (State.resetOf cfg).cmd = 0#32 ∧ (State.resetOf cfg).status = 0#32 ∧ (State.resetOf cfg).result = 0#32 ∧
    (State.resetOf cfg).errInfo = 0#32 ∧ (State.resetOf cfg).width = 0#32 ∧ (State.resetOf cfg).height = 0#32 ∧
    (State.resetOf cfg).stride = 0#32 ∧ (State.resetOf cfg).dstLen = 0#32 ∧
    (State.resetOf cfg).cfg = bit0 cfg.hostLe ∧ (State.resetOf cfg).seq = none ∧
    engineActive (State.resetOf cfg) = false) ∧
  State.reset = State.resetOf defaultConfig ∧ defaultConfig.hostLe = true

/-- `70_reset_and_hazards.md` R261 and R263: asserting reset while no PACK runs puts every register but CFG at
its reset value and touches neither memory. That releasing it changes the input alone is the model's reading, log
entry 12: the spec says nothing of the release. That reset ends the loans is the model's, log entry 7. -/
def Obligations.ResetPutsRegistersAtTheirValues : Prop :=
  ∀ (s : State) (rest : List HostAction),
    (s.agenda = .assertReset :: rest → runningPack s = none → step s = .next (inReset (setAgenda rest s))) ∧
    (s.agenda = .releaseReset :: rest → step s = .next { s with agenda := rest, resetLine := false })

/-- `70_reset_and_hazards.md` R260 and R262: reset can be asserted at any time, and the registers then take their
reset values. A PACK that runs is abandoned: each byte of its write extent holds its old value or the value the
command would have given it; every other byte is unchanged. Any other command that is cut off (a CLAMP, a GEOM, a
PACK that would fault) changes no byte. The clause on the bytes of the extent is for a defined and unraced plane; of
any other it says nothing. That an assertion of reset ends the loans (`inReset` has none) is the model's reading, log
entry 7 (DEDUCED): R262 does not say it. -/
def Obligations.ResetAbandonsARunningPack : Prop :=
  (∀ (s : State) (rest : List HostAction), s.agenda = .assertReset :: rest →
    ∃ u, step s = .next u ∧ u = inReset { s with agenda := rest, dst := u.dst, choices := u.choices } ∧
      ∀ o, (∀ f, runningPack s = some f → ¬ InExtent (heightOf s) s.stride.toNat (floorStride f (widthOf s)) o) →
        Memory.read? u.dst o = Memory.read? s.dst o) ∧
  (∀ (s : State) (rest : List HostAction) (f : WireFormat), s.agenda = .assertReset :: rest →
    runningPack s = some f → PackAccepted (floorStride f (widthOf s)) (descriptor f).rowAlign s →
    PlaneDefined s → Unraced s →
    ∃ t u, exec (packInstr f) s = .next t ∧ step s = .next u ∧
      ∀ o, InExtent (heightOf s) s.stride.toNat (floorStride f (widthOf s)) o →
        Memory.read? u.dst o = Memory.read? s.dst o ∨ Memory.read? u.dst o = Memory.read? t.dst o) ∧
  (∀ (s : State) (rest : List HostAction), s.agenda = .assertReset :: rest →
    (∀ f, runningPack s = some f → ¬ PackAccepted (floorStride f (widthOf s)) (descriptor f).rowAlign s) →
    step s = .next (inReset (setAgenda rest s)))

/-- `70_reset_and_hazards.md` R260: while reset is asserted every host access to the register space is refused,
by name. -/
def Obligations.RegistersAreClosedDuringReset : Prop :=
  ∀ (s : State) (offset bits : Nat) (v : Word) (rest : List HostAction), s.resetLine = true →
    (s.agenda = .writeReg offset bits v :: rest → step s = .refused .accessDuringReset) ∧
    (s.agenda = .readReg offset bits :: rest → step s = .refused .accessDuringReset) ∧
    (s.agenda = .writeBack offset bits :: rest → step s = .refused .accessDuringReset) ∧
    (∀ n, s.agenda = .wait n :: rest → step s = .refused .accessDuringReset)

/-! ## The whole machine -/

/-- `10_state.md` R28: the only ways STATUS, RESULT and ERR_INFO change in a step: a launch enters BUSY from a
block that is not BUSY, keeping RESULT and ERR_INFO; a completion leaves BUSY for DONE; reset enters IDLE. -/
def Obligations.StatusStateMachine : Prop :=
  ∀ s t : State, step s = .next t →
    (t.status = s.status ∧ t.result = s.result ∧ t.errInfo = s.errInfo) ∨
    (s.busy = false ∧ t.status = 0x00000001#32 ∧ t.result = s.result ∧ t.errInfo = s.errInfo) ∨
    (s.busy = true ∧ t.done = true ∧ t.busy = false ∧ t.status ∈ legalStatus) ∨
    ((∃ rest, s.agenda = .assertReset :: rest) ∧ t.status = 0#32 ∧ t.result = 0#32 ∧ t.errInfo = 0#32)

/-- The invariant holds of the machine right after reset, whatever the configuration. -/
def Obligations.ResetMeetsTheInvariant : Prop :=
  Inv State.reset ∧ ∀ cfg : Config, Inv (State.resetOf cfg)

/-- Every step, of the engine and of the host, keeps the invariant, from every state that meets it, whatever the
configuration. -/
def Obligations.StepKeepsTheInvariant : Prop :=
  ∀ s t : State, Inv s → (step s = .next t ∨ ∃ cfg : Config, stepWith cfg s = .next t) → Inv t

/-- `70_reset_and_hazards.md` R274, R275 and `47_dispatch.md` R211: a launched command completes. However many host
actions come first, reset not among them (R262), within one step more than the agenda takes at most DONE is 1 and
BUSY 0, unless the run stopped in a fault or a refusal before. (That the engine's turn comes at last is the model's
form of the spec's fairness, log entry 5.) -/
def Obligations.LaunchedCommandEventuallyCompletes : Prop :=
  ∀ s : State, s.busy = true → s.resetLine = false → .assertReset ∉ s.agenda →
    ∃ k, k ≤ agendaSteps s.agenda + 1 ∧
      ∀ t, Host.Core.run core k s = .next t → t.done = true ∧ t.busy = false
end

