-- ==== Sys2Proof/Laws/Bits.lean ====
section
/-! SUPPORT. The notation's own laws: byte swap and the two byte orders, the write port, the bytes of a
concatenation, and the bits of a word built from bits. -/

namespace Sys2Proof.Machine

theorem byteOf_toNat (w : Word) (m : Nat) : (byteOf w m).toNat = w.toNat / 2 ^ (8 * m) % 2 ^ 8 := by
  unfold byteOf
  rw [BitVec.extractLsb'_toNat, Nat.shiftRight_eq_div_pow]

theorem byteOf_bswap32 (w : Word) (m : Nat) (h : m < 4) : byteOf (bswap32 w) m = byteOf w (3 - m) := by
  apply BitVec.eq_of_getLsbD_eq
  intro i hi
  have hm : m = 0 ∨ m = 1 ∨ m = 2 ∨ m = 3 := by omega
  rcases hm with rfl | rfl | rfl | rfl <;>
    simp only [byteOf, bswap32, BitVec.getLsbD_extractLsb', BitVec.getLsbD_append, hi] <;>
    (repeat' split) <;>
    first
      | omega
      | (simp only [decide_true, Bool.true_and]
         rw [decide_eq_true (by omega), Bool.true_and]
         congr 1
         omega)

/-- Handing the port the swapped word reverses the order it stores. -/
theorem leBytes_bswap32 (w : Word) : leBytes (bswap32 w) = beBytes w := by
  simp only [leBytes, beBytes, byteOf_bswap32 w 0 (by omega), byteOf_bswap32 w 1 (by omega),
    byteOf_bswap32 w 2 (by omega), byteOf_bswap32 w 3 (by omega)]

theorem beBytes_bswap32 (w : Word) : beBytes (bswap32 w) = leBytes w := by
  simp only [leBytes, beBytes, byteOf_bswap32 w 0 (by omega), byteOf_bswap32 w 1 (by omega),
    byteOf_bswap32 w 2 (by omega), byteOf_bswap32 w 3 (by omega)]

/-- Whatever the lane order of the port, a word stored little-endian gives `LE(w)`. -/
@[simp] theorem storeLe_eq (hostLe : Bool) (w : Word) : storeLe hostLe w = leBytes w := by
  cases hostLe
  · exact beBytes_bswap32 w
  · rfl

/-- Whatever the lane order of the port, a word stored big-endian gives `BE(w)`. -/
@[simp] theorem storeBe_eq (hostLe : Bool) (w : Word) : storeBe hostLe w = beBytes w := by
  cases hostLe
  · rfl
  · exact leBytes_bswap32 w

theorem byteOf_ofNat (n m : Nat) (h : n < 2 ^ 32) :
    byteOf (BitVec.ofNat 32 n) m = BitVec.ofNat 8 (n / 2 ^ (8 * m)) := by
  apply BitVec.eq_of_toNat_eq
  rw [byteOf_toNat, BitVec.toNat_ofNat, BitVec.toNat_ofNat, Nat.mod_eq_of_lt h]

/-- The number of a 4-byte-field concatenation (`00_scope.md` R11). -/
theorem concatFrom_lt (fs : List (Nat × Nat)) (acc n : Nat) (h : acc < 2 ^ n) :
    concatFrom acc fs < 2 ^ (n + (fs.map Prod.snd).sum) := by
  induction fs generalizing acc n with
  | nil => simpa [concatFrom] using h
  | cons f fs ih =>
    obtain ⟨v, width⟩ := f
    have h1 : acc * 2 ^ width + v % 2 ^ width < 2 ^ (n + width) := by
      have h2 : v % 2 ^ width < 2 ^ width := Nat.mod_lt _ (Nat.two_pow_pos _)
      calc acc * 2 ^ width + v % 2 ^ width < acc * 2 ^ width + 2 ^ width := by omega
        _ = (acc + 1) * 2 ^ width := by ring
        _ ≤ 2 ^ n * 2 ^ width := Nat.mul_le_mul_right _ h
        _ = 2 ^ (n + width) := (pow_add 2 n width).symm
    have := ih _ _ h1
    simpa [concatFrom, Nat.add_assoc] using this

/-- Concatenation is injective field by field: the number of the fields is read back from the low end. -/
theorem concatWord_toNat (fs : List (Nat × Nat)) (h : (fs.map Prod.snd).sum ≤ 32) :
    (concatWord fs).toNat = concatFrom 0 fs := by
  unfold concatWord
  rw [BitVec.toNat_ofNat]
  apply Nat.mod_eq_of_lt
  have := concatFrom_lt fs 0 0 (by norm_num)
  exact lt_of_lt_of_le this (Nat.pow_le_pow_right (by norm_num) (by omega))

theorem bitsNumber_lt (f : Nat → Bool) (n : Nat) : bitsNumber f n < 2 ^ n := by
  induction n with
  | zero => simp [bitsNumber]
  | succ n ih =>
    unfold bitsNumber
    have : (f n).toNat ≤ 1 := Bool.toNat_le _
    have : (f n).toNat * 2 ^ n ≤ 1 * 2 ^ n := Nat.mul_le_mul_right _ this
    rw [pow_succ]
    omega

theorem testBit_bitsNumber (f : Nat → Bool) (n b : Nat) (h : b < n) : (bitsNumber f n).testBit b = f b := by
  induction n with
  | zero => omega
  | succ n ih =>
    unfold bitsNumber
    have hlt := bitsNumber_lt f n
    rw [Nat.add_comm, Nat.mul_comm]
    rcases Nat.lt_succ_iff_lt_or_eq.1 h with hb | rfl
    · rw [Nat.testBit_two_pow_mul_add _ hlt, if_pos hb, ih hb]
    · rw [Nat.testBit_two_pow_mul_add _ hlt, if_neg (lt_irrefl _), Nat.sub_self]
      cases f b <;> rfl

/-- Bit `b` of the word built from bits is bit `b`. -/
theorem getLsbD_wordOfBits (f : Nat → Bool) (b : Nat) (h : b < 32) : (wordOfBits f).getLsbD b = f b := by
  unfold wordOfBits
  rw [BitVec.getLsbD_ofNat, testBit_bitsNumber f 32 b h]
  simp [h]

@[simp] theorem leBytes_length (w : Word) : (leBytes w).length = 4 := rfl

@[simp] theorem beBytes_length (w : Word) : (beBytes w).length = 4 := rfl

/-- The group functions emit `group_bytes` bytes (`47_dispatch.md` R200), whatever the lane order. -/
theorem groupR12_length (cfg : Config) (hostLe be : Bool) (P : List Pixel) :
    (groupR12 cfg hostLe be P).length = 36 := by
  unfold groupR12
  cases be <;> simp [List.range_succ]

theorem applyGroup_length (cfg : Config) (hostLe : Bool) (f : WireFormat) (P : List Pixel) :
    (applyGroup cfg hostLe (descriptor f).group P).length = (descriptor f).groupBytes := by
  cases f <;> simp [descriptor, applyGroup, groupRgb8, groupYuv8, groupR210, groupYuv10, groupR12_length]

/-- The bytes of a group do not depend on `HOST_LE` (`20_memory.md` R58). -/
theorem applyGroup_hostLe (cfg : Config) (h h' : Bool) (g : GroupFunction) (P : List Pixel) :
    applyGroup cfg h g P = applyGroup cfg h' g P := by
  cases g <;> simp [applyGroup, groupRgb8, groupR210, groupYuv10, groupR12]

end Sys2Proof.Machine
end

