-- ==== Sys2Proof/Laws/State.lean ====
section
/-! SUPPORT. What each named update of the state does to each field, and the two ways a command ends. -/

namespace Sys2Proof.Machine

variable (s : State)

@[simp] theorem launch_cmd (c : Word) : (launch c s).cmd = c := rfl
@[simp] theorem launch_status (c : Word) : (launch c s).status = statusBusy := rfl
@[simp] theorem launch_result (c : Word) : (launch c s).result = s.result := rfl
@[simp] theorem launch_errInfo (c : Word) : (launch c s).errInfo = s.errInfo := rfl
@[simp] theorem launch_width (c : Word) : (launch c s).width = s.width := rfl
@[simp] theorem launch_height (c : Word) : (launch c s).height = s.height := rfl
@[simp] theorem launch_stride (c : Word) : (launch c s).stride = s.stride := rfl
@[simp] theorem launch_dstLen (c : Word) : (launch c s).dstLen = s.dstLen := rfl
@[simp] theorem launch_cfg (c : Word) : (launch c s).cfg = s.cfg := rfl
@[simp] theorem launch_seq (c : Word) : (launch c s).seq = some ⟨0, 0⟩ := rfl
@[simp] theorem launch_resetLine (c : Word) : (launch c s).resetLine = s.resetLine := rfl
@[simp] theorem launch_src (c : Word) : (launch c s).src = s.src := rfl
@[simp] theorem launch_dst (c : Word) : (launch c s).dst = s.dst := rfl
@[simp] theorem launch_agenda (c : Word) : (launch c s).agenda = s.agenda := rfl
@[simp] theorem launch_rdata (c : Word) : (launch c s).rdata = s.rdata := rfl
@[simp] theorem launch_srcRaces (c : Word) : (launch c s).srcRaces = [] := rfl
@[simp] theorem launch_dstRaces (c : Word) : (launch c s).dstRaces = [] := rfl
@[simp] theorem launch_lent (c : Word) : (launch c s).lent = s.lent := rfl
@[simp] theorem launch_choices (c : Word) : (launch c s).choices = s.choices := rfl

@[simp] theorem completeOk_cmd (v : Nat) : (completeOk v s).cmd = s.cmd := rfl
@[simp] theorem completeOk_status (v : Nat) : (completeOk v s).status = statusDone 0 := rfl
@[simp] theorem completeOk_result (v : Nat) : (completeOk v s).result = BitVec.ofNat 32 v := rfl
@[simp] theorem completeOk_errInfo (v : Nat) : (completeOk v s).errInfo = 0 := rfl
@[simp] theorem completeOk_width (v : Nat) : (completeOk v s).width = s.width := rfl
@[simp] theorem completeOk_height (v : Nat) : (completeOk v s).height = s.height := rfl
@[simp] theorem completeOk_stride (v : Nat) : (completeOk v s).stride = s.stride := rfl
@[simp] theorem completeOk_dstLen (v : Nat) : (completeOk v s).dstLen = s.dstLen := rfl
@[simp] theorem completeOk_cfg (v : Nat) : (completeOk v s).cfg = s.cfg := rfl
@[simp] theorem completeOk_seq (v : Nat) : (completeOk v s).seq = none := rfl
@[simp] theorem completeOk_resetLine (v : Nat) : (completeOk v s).resetLine = s.resetLine := rfl
@[simp] theorem completeOk_src (v : Nat) : (completeOk v s).src = s.src := rfl
@[simp] theorem completeOk_dst (v : Nat) : (completeOk v s).dst = s.dst := rfl
@[simp] theorem completeOk_agenda (v : Nat) : (completeOk v s).agenda = s.agenda := rfl
@[simp] theorem completeOk_rdata (v : Nat) : (completeOk v s).rdata = s.rdata := rfl
@[simp] theorem completeOk_srcRaces (v : Nat) : (completeOk v s).srcRaces = s.srcRaces := rfl
@[simp] theorem completeOk_dstRaces (v : Nat) : (completeOk v s).dstRaces = s.dstRaces := rfl
@[simp] theorem completeOk_lent (v : Nat) : (completeOk v s).lent = s.lent := rfl
@[simp] theorem completeOk_choices (v : Nat) : (completeOk v s).choices = s.choices := rfl

@[simp] theorem raiseFault_cmd (f : CommandFault) : (raiseFault f s).cmd = s.cmd := rfl
@[simp] theorem raiseFault_status (f : CommandFault) : (raiseFault f s).status = statusDone f.code := rfl
@[simp] theorem raiseFault_result (f : CommandFault) : (raiseFault f s).result = 0 := rfl
@[simp] theorem raiseFault_errInfo (f : CommandFault) : (raiseFault f s).errInfo = f.info := rfl
@[simp] theorem raiseFault_width (f : CommandFault) : (raiseFault f s).width = s.width := rfl
@[simp] theorem raiseFault_height (f : CommandFault) : (raiseFault f s).height = s.height := rfl
@[simp] theorem raiseFault_stride (f : CommandFault) : (raiseFault f s).stride = s.stride := rfl
@[simp] theorem raiseFault_dstLen (f : CommandFault) : (raiseFault f s).dstLen = s.dstLen := rfl
@[simp] theorem raiseFault_cfg (f : CommandFault) : (raiseFault f s).cfg = s.cfg := rfl
@[simp] theorem raiseFault_seq (f : CommandFault) : (raiseFault f s).seq = none := rfl
@[simp] theorem raiseFault_resetLine (f : CommandFault) : (raiseFault f s).resetLine = s.resetLine := rfl
@[simp] theorem raiseFault_src (f : CommandFault) : (raiseFault f s).src = s.src := rfl
@[simp] theorem raiseFault_dst (f : CommandFault) : (raiseFault f s).dst = s.dst := rfl
@[simp] theorem raiseFault_agenda (f : CommandFault) : (raiseFault f s).agenda = s.agenda := rfl
@[simp] theorem raiseFault_rdata (f : CommandFault) : (raiseFault f s).rdata = s.rdata := rfl
@[simp] theorem raiseFault_srcRaces (f : CommandFault) : (raiseFault f s).srcRaces = s.srcRaces := rfl
@[simp] theorem raiseFault_dstRaces (f : CommandFault) : (raiseFault f s).dstRaces = s.dstRaces := rfl
@[simp] theorem raiseFault_lent (f : CommandFault) : (raiseFault f s).lent = s.lent := rfl
@[simp] theorem raiseFault_choices (f : CommandFault) : (raiseFault f s).choices = s.choices := rfl

@[simp] theorem resetRegisters_cmd : (resetRegisters s).cmd = 0 := rfl
@[simp] theorem resetRegisters_status : (resetRegisters s).status = 0 := rfl
@[simp] theorem resetRegisters_result : (resetRegisters s).result = 0 := rfl
@[simp] theorem resetRegisters_errInfo : (resetRegisters s).errInfo = 0 := rfl
@[simp] theorem resetRegisters_width : (resetRegisters s).width = 0 := rfl
@[simp] theorem resetRegisters_height : (resetRegisters s).height = 0 := rfl
@[simp] theorem resetRegisters_stride : (resetRegisters s).stride = 0 := rfl
@[simp] theorem resetRegisters_dstLen : (resetRegisters s).dstLen = 0 := rfl
@[simp] theorem resetRegisters_cfg : (resetRegisters s).cfg = s.cfg := rfl
@[simp] theorem resetRegisters_seq : (resetRegisters s).seq = none := rfl
@[simp] theorem resetRegisters_resetLine : (resetRegisters s).resetLine = s.resetLine := rfl
@[simp] theorem resetRegisters_src : (resetRegisters s).src = s.src := rfl
@[simp] theorem resetRegisters_dst : (resetRegisters s).dst = s.dst := rfl
@[simp] theorem resetRegisters_agenda : (resetRegisters s).agenda = s.agenda := rfl
@[simp] theorem resetRegisters_rdata : (resetRegisters s).rdata = s.rdata := rfl
@[simp] theorem resetRegisters_srcRaces : (resetRegisters s).srcRaces = s.srcRaces := rfl
@[simp] theorem resetRegisters_dstRaces : (resetRegisters s).dstRaces = s.dstRaces := rfl
@[simp] theorem resetRegisters_lent : (resetRegisters s).lent = s.lent := rfl
@[simp] theorem resetRegisters_choices : (resetRegisters s).choices = s.choices := rfl

@[simp] theorem setSeq_cmd (q : Seq) : (setSeq q s).cmd = s.cmd := rfl
@[simp] theorem setSeq_status (q : Seq) : (setSeq q s).status = s.status := rfl
@[simp] theorem setSeq_result (q : Seq) : (setSeq q s).result = s.result := rfl
@[simp] theorem setSeq_errInfo (q : Seq) : (setSeq q s).errInfo = s.errInfo := rfl
@[simp] theorem setSeq_width (q : Seq) : (setSeq q s).width = s.width := rfl
@[simp] theorem setSeq_height (q : Seq) : (setSeq q s).height = s.height := rfl
@[simp] theorem setSeq_stride (q : Seq) : (setSeq q s).stride = s.stride := rfl
@[simp] theorem setSeq_dstLen (q : Seq) : (setSeq q s).dstLen = s.dstLen := rfl
@[simp] theorem setSeq_cfg (q : Seq) : (setSeq q s).cfg = s.cfg := rfl
@[simp] theorem setSeq_seq (q : Seq) : (setSeq q s).seq = some q := rfl
@[simp] theorem setSeq_resetLine (q : Seq) : (setSeq q s).resetLine = s.resetLine := rfl
@[simp] theorem setSeq_src (q : Seq) : (setSeq q s).src = s.src := rfl
@[simp] theorem setSeq_dst (q : Seq) : (setSeq q s).dst = s.dst := rfl
@[simp] theorem setSeq_agenda (q : Seq) : (setSeq q s).agenda = s.agenda := rfl
@[simp] theorem setSeq_rdata (q : Seq) : (setSeq q s).rdata = s.rdata := rfl
@[simp] theorem setSeq_srcRaces (q : Seq) : (setSeq q s).srcRaces = s.srcRaces := rfl
@[simp] theorem setSeq_dstRaces (q : Seq) : (setSeq q s).dstRaces = s.dstRaces := rfl
@[simp] theorem setSeq_lent (q : Seq) : (setSeq q s).lent = s.lent := rfl
@[simp] theorem setSeq_choices (q : Seq) : (setSeq q s).choices = s.choices := rfl

@[simp] theorem setDst_cmd (d : Memory Byte) : (setDst d s).cmd = s.cmd := rfl
@[simp] theorem setDst_status (d : Memory Byte) : (setDst d s).status = s.status := rfl
@[simp] theorem setDst_result (d : Memory Byte) : (setDst d s).result = s.result := rfl
@[simp] theorem setDst_errInfo (d : Memory Byte) : (setDst d s).errInfo = s.errInfo := rfl
@[simp] theorem setDst_width (d : Memory Byte) : (setDst d s).width = s.width := rfl
@[simp] theorem setDst_height (d : Memory Byte) : (setDst d s).height = s.height := rfl
@[simp] theorem setDst_stride (d : Memory Byte) : (setDst d s).stride = s.stride := rfl
@[simp] theorem setDst_dstLen (d : Memory Byte) : (setDst d s).dstLen = s.dstLen := rfl
@[simp] theorem setDst_cfg (d : Memory Byte) : (setDst d s).cfg = s.cfg := rfl
@[simp] theorem setDst_seq (d : Memory Byte) : (setDst d s).seq = s.seq := rfl
@[simp] theorem setDst_resetLine (d : Memory Byte) : (setDst d s).resetLine = s.resetLine := rfl
@[simp] theorem setDst_src (d : Memory Byte) : (setDst d s).src = s.src := rfl
@[simp] theorem setDst_dst (d : Memory Byte) : (setDst d s).dst = d := rfl
@[simp] theorem setDst_agenda (d : Memory Byte) : (setDst d s).agenda = s.agenda := rfl
@[simp] theorem setDst_rdata (d : Memory Byte) : (setDst d s).rdata = s.rdata := rfl
@[simp] theorem setDst_srcRaces (d : Memory Byte) : (setDst d s).srcRaces = s.srcRaces := rfl
@[simp] theorem setDst_dstRaces (d : Memory Byte) : (setDst d s).dstRaces = s.dstRaces := rfl
@[simp] theorem setDst_lent (d : Memory Byte) : (setDst d s).lent = s.lent := rfl
@[simp] theorem setDst_choices (d : Memory Byte) : (setDst d s).choices = s.choices := rfl

@[simp] theorem setSrc_cmd (m : Memory (BitVec 16)) : (setSrc m s).cmd = s.cmd := rfl
@[simp] theorem setSrc_status (m : Memory (BitVec 16)) : (setSrc m s).status = s.status := rfl
@[simp] theorem setSrc_result (m : Memory (BitVec 16)) : (setSrc m s).result = s.result := rfl
@[simp] theorem setSrc_errInfo (m : Memory (BitVec 16)) : (setSrc m s).errInfo = s.errInfo := rfl
@[simp] theorem setSrc_width (m : Memory (BitVec 16)) : (setSrc m s).width = s.width := rfl
@[simp] theorem setSrc_height (m : Memory (BitVec 16)) : (setSrc m s).height = s.height := rfl
@[simp] theorem setSrc_stride (m : Memory (BitVec 16)) : (setSrc m s).stride = s.stride := rfl
@[simp] theorem setSrc_dstLen (m : Memory (BitVec 16)) : (setSrc m s).dstLen = s.dstLen := rfl
@[simp] theorem setSrc_cfg (m : Memory (BitVec 16)) : (setSrc m s).cfg = s.cfg := rfl
@[simp] theorem setSrc_seq (m : Memory (BitVec 16)) : (setSrc m s).seq = s.seq := rfl
@[simp] theorem setSrc_resetLine (m : Memory (BitVec 16)) : (setSrc m s).resetLine = s.resetLine := rfl
@[simp] theorem setSrc_src (m : Memory (BitVec 16)) : (setSrc m s).src = m := rfl
@[simp] theorem setSrc_dst (m : Memory (BitVec 16)) : (setSrc m s).dst = s.dst := rfl
@[simp] theorem setSrc_agenda (m : Memory (BitVec 16)) : (setSrc m s).agenda = s.agenda := rfl
@[simp] theorem setSrc_rdata (m : Memory (BitVec 16)) : (setSrc m s).rdata = s.rdata := rfl
@[simp] theorem setSrc_srcRaces (m : Memory (BitVec 16)) : (setSrc m s).srcRaces = s.srcRaces := rfl
@[simp] theorem setSrc_dstRaces (m : Memory (BitVec 16)) : (setSrc m s).dstRaces = s.dstRaces := rfl
@[simp] theorem setSrc_lent (m : Memory (BitVec 16)) : (setSrc m s).lent = s.lent := rfl
@[simp] theorem setSrc_choices (m : Memory (BitVec 16)) : (setSrc m s).choices = s.choices := rfl

@[simp] theorem setRdata_cmd (v : Word) : (setRdata v s).cmd = s.cmd := rfl
@[simp] theorem setRdata_status (v : Word) : (setRdata v s).status = s.status := rfl
@[simp] theorem setRdata_result (v : Word) : (setRdata v s).result = s.result := rfl
@[simp] theorem setRdata_errInfo (v : Word) : (setRdata v s).errInfo = s.errInfo := rfl
@[simp] theorem setRdata_width (v : Word) : (setRdata v s).width = s.width := rfl
@[simp] theorem setRdata_height (v : Word) : (setRdata v s).height = s.height := rfl
@[simp] theorem setRdata_stride (v : Word) : (setRdata v s).stride = s.stride := rfl
@[simp] theorem setRdata_dstLen (v : Word) : (setRdata v s).dstLen = s.dstLen := rfl
@[simp] theorem setRdata_cfg (v : Word) : (setRdata v s).cfg = s.cfg := rfl
@[simp] theorem setRdata_seq (v : Word) : (setRdata v s).seq = s.seq := rfl
@[simp] theorem setRdata_resetLine (v : Word) : (setRdata v s).resetLine = s.resetLine := rfl
@[simp] theorem setRdata_src (v : Word) : (setRdata v s).src = s.src := rfl
@[simp] theorem setRdata_dst (v : Word) : (setRdata v s).dst = s.dst := rfl
@[simp] theorem setRdata_agenda (v : Word) : (setRdata v s).agenda = s.agenda := rfl
@[simp] theorem setRdata_rdata (v : Word) : (setRdata v s).rdata = v := rfl
@[simp] theorem setRdata_srcRaces (v : Word) : (setRdata v s).srcRaces = s.srcRaces := rfl
@[simp] theorem setRdata_dstRaces (v : Word) : (setRdata v s).dstRaces = s.dstRaces := rfl
@[simp] theorem setRdata_lent (v : Word) : (setRdata v s).lent = s.lent := rfl
@[simp] theorem setRdata_choices (v : Word) : (setRdata v s).choices = s.choices := rfl

@[simp] theorem setAgenda_cmd (l : List HostAction) : (setAgenda l s).cmd = s.cmd := rfl
@[simp] theorem setAgenda_status (l : List HostAction) : (setAgenda l s).status = s.status := rfl
@[simp] theorem setAgenda_result (l : List HostAction) : (setAgenda l s).result = s.result := rfl
@[simp] theorem setAgenda_errInfo (l : List HostAction) : (setAgenda l s).errInfo = s.errInfo := rfl
@[simp] theorem setAgenda_width (l : List HostAction) : (setAgenda l s).width = s.width := rfl
@[simp] theorem setAgenda_height (l : List HostAction) : (setAgenda l s).height = s.height := rfl
@[simp] theorem setAgenda_stride (l : List HostAction) : (setAgenda l s).stride = s.stride := rfl
@[simp] theorem setAgenda_dstLen (l : List HostAction) : (setAgenda l s).dstLen = s.dstLen := rfl
@[simp] theorem setAgenda_cfg (l : List HostAction) : (setAgenda l s).cfg = s.cfg := rfl
@[simp] theorem setAgenda_seq (l : List HostAction) : (setAgenda l s).seq = s.seq := rfl
@[simp] theorem setAgenda_resetLine (l : List HostAction) : (setAgenda l s).resetLine = s.resetLine := rfl
@[simp] theorem setAgenda_src (l : List HostAction) : (setAgenda l s).src = s.src := rfl
@[simp] theorem setAgenda_dst (l : List HostAction) : (setAgenda l s).dst = s.dst := rfl
@[simp] theorem setAgenda_agenda (l : List HostAction) : (setAgenda l s).agenda = l := rfl
@[simp] theorem setAgenda_rdata (l : List HostAction) : (setAgenda l s).rdata = s.rdata := rfl
@[simp] theorem setAgenda_srcRaces (l : List HostAction) : (setAgenda l s).srcRaces = s.srcRaces := rfl
@[simp] theorem setAgenda_dstRaces (l : List HostAction) : (setAgenda l s).dstRaces = s.dstRaces := rfl
@[simp] theorem setAgenda_lent (l : List HostAction) : (setAgenda l s).lent = s.lent := rfl
@[simp] theorem setAgenda_choices (l : List HostAction) : (setAgenda l s).choices = s.choices := rfl

@[simp] theorem setResetLine_cmd (b : Bool) : (setResetLine b s).cmd = s.cmd := rfl
@[simp] theorem setResetLine_status (b : Bool) : (setResetLine b s).status = s.status := rfl
@[simp] theorem setResetLine_result (b : Bool) : (setResetLine b s).result = s.result := rfl
@[simp] theorem setResetLine_errInfo (b : Bool) : (setResetLine b s).errInfo = s.errInfo := rfl
@[simp] theorem setResetLine_width (b : Bool) : (setResetLine b s).width = s.width := rfl
@[simp] theorem setResetLine_height (b : Bool) : (setResetLine b s).height = s.height := rfl
@[simp] theorem setResetLine_stride (b : Bool) : (setResetLine b s).stride = s.stride := rfl
@[simp] theorem setResetLine_dstLen (b : Bool) : (setResetLine b s).dstLen = s.dstLen := rfl
@[simp] theorem setResetLine_cfg (b : Bool) : (setResetLine b s).cfg = s.cfg := rfl
@[simp] theorem setResetLine_seq (b : Bool) : (setResetLine b s).seq = s.seq := rfl
@[simp] theorem setResetLine_resetLine (b : Bool) : (setResetLine b s).resetLine = b := rfl
@[simp] theorem setResetLine_src (b : Bool) : (setResetLine b s).src = s.src := rfl
@[simp] theorem setResetLine_dst (b : Bool) : (setResetLine b s).dst = s.dst := rfl
@[simp] theorem setResetLine_agenda (b : Bool) : (setResetLine b s).agenda = s.agenda := rfl
@[simp] theorem setResetLine_rdata (b : Bool) : (setResetLine b s).rdata = s.rdata := rfl
@[simp] theorem setResetLine_srcRaces (b : Bool) : (setResetLine b s).srcRaces = s.srcRaces := rfl
@[simp] theorem setResetLine_dstRaces (b : Bool) : (setResetLine b s).dstRaces = s.dstRaces := rfl
@[simp] theorem setResetLine_lent (b : Bool) : (setResetLine b s).lent = s.lent := rfl
@[simp] theorem setResetLine_choices (b : Bool) : (setResetLine b s).choices = s.choices := rfl

@[simp] theorem noteSrcRace_cmd (i : Nat) (o : Option (BitVec 16)) : (noteSrcRace i o s).cmd = s.cmd := rfl
@[simp] theorem noteSrcRace_status (i : Nat) (o : Option (BitVec 16)) : (noteSrcRace i o s).status = s.status := rfl
@[simp] theorem noteSrcRace_result (i : Nat) (o : Option (BitVec 16)) : (noteSrcRace i o s).result = s.result := rfl
@[simp] theorem noteSrcRace_errInfo (i : Nat) (o : Option (BitVec 16)) : (noteSrcRace i o s).errInfo = s.errInfo := rfl
@[simp] theorem noteSrcRace_width (i : Nat) (o : Option (BitVec 16)) : (noteSrcRace i o s).width = s.width := rfl
@[simp] theorem noteSrcRace_height (i : Nat) (o : Option (BitVec 16)) : (noteSrcRace i o s).height = s.height := rfl
@[simp] theorem noteSrcRace_stride (i : Nat) (o : Option (BitVec 16)) : (noteSrcRace i o s).stride = s.stride := rfl
@[simp] theorem noteSrcRace_dstLen (i : Nat) (o : Option (BitVec 16)) : (noteSrcRace i o s).dstLen = s.dstLen := rfl
@[simp] theorem noteSrcRace_cfg (i : Nat) (o : Option (BitVec 16)) : (noteSrcRace i o s).cfg = s.cfg := rfl
@[simp] theorem noteSrcRace_seq (i : Nat) (o : Option (BitVec 16)) : (noteSrcRace i o s).seq = s.seq := rfl
@[simp] theorem noteSrcRace_resetLine (i : Nat) (o : Option (BitVec 16)) : (noteSrcRace i o s).resetLine = s.resetLine := rfl
@[simp] theorem noteSrcRace_src (i : Nat) (o : Option (BitVec 16)) : (noteSrcRace i o s).src = s.src := rfl
@[simp] theorem noteSrcRace_dst (i : Nat) (o : Option (BitVec 16)) : (noteSrcRace i o s).dst = s.dst := rfl
@[simp] theorem noteSrcRace_agenda (i : Nat) (o : Option (BitVec 16)) : (noteSrcRace i o s).agenda = s.agenda := rfl
@[simp] theorem noteSrcRace_rdata (i : Nat) (o : Option (BitVec 16)) : (noteSrcRace i o s).rdata = s.rdata := rfl
@[simp] theorem noteSrcRace_srcRaces (i : Nat) (o : Option (BitVec 16)) :
    (noteSrcRace i o s).srcRaces = (i, o) :: s.srcRaces := rfl
@[simp] theorem noteSrcRace_dstRaces (i : Nat) (o : Option (BitVec 16)) : (noteSrcRace i o s).dstRaces = s.dstRaces := rfl
@[simp] theorem noteSrcRace_lent (i : Nat) (o : Option (BitVec 16)) : (noteSrcRace i o s).lent = s.lent := rfl
@[simp] theorem noteSrcRace_choices (i : Nat) (o : Option (BitVec 16)) : (noteSrcRace i o s).choices = s.choices := rfl

@[simp] theorem noteDstRace_cmd (i : Nat) : (noteDstRace i s).cmd = s.cmd := rfl
@[simp] theorem noteDstRace_status (i : Nat) : (noteDstRace i s).status = s.status := rfl
@[simp] theorem noteDstRace_result (i : Nat) : (noteDstRace i s).result = s.result := rfl
@[simp] theorem noteDstRace_errInfo (i : Nat) : (noteDstRace i s).errInfo = s.errInfo := rfl
@[simp] theorem noteDstRace_width (i : Nat) : (noteDstRace i s).width = s.width := rfl
@[simp] theorem noteDstRace_height (i : Nat) : (noteDstRace i s).height = s.height := rfl
@[simp] theorem noteDstRace_stride (i : Nat) : (noteDstRace i s).stride = s.stride := rfl
@[simp] theorem noteDstRace_dstLen (i : Nat) : (noteDstRace i s).dstLen = s.dstLen := rfl
@[simp] theorem noteDstRace_cfg (i : Nat) : (noteDstRace i s).cfg = s.cfg := rfl
@[simp] theorem noteDstRace_seq (i : Nat) : (noteDstRace i s).seq = s.seq := rfl
@[simp] theorem noteDstRace_resetLine (i : Nat) : (noteDstRace i s).resetLine = s.resetLine := rfl
@[simp] theorem noteDstRace_src (i : Nat) : (noteDstRace i s).src = s.src := rfl
@[simp] theorem noteDstRace_dst (i : Nat) : (noteDstRace i s).dst = s.dst := rfl
@[simp] theorem noteDstRace_agenda (i : Nat) : (noteDstRace i s).agenda = s.agenda := rfl
@[simp] theorem noteDstRace_rdata (i : Nat) : (noteDstRace i s).rdata = s.rdata := rfl
@[simp] theorem noteDstRace_srcRaces (i : Nat) : (noteDstRace i s).srcRaces = s.srcRaces := rfl
@[simp] theorem noteDstRace_dstRaces (i : Nat) : (noteDstRace i s).dstRaces = i :: s.dstRaces := rfl
@[simp] theorem noteDstRace_lent (i : Nat) : (noteDstRace i s).lent = s.lent := rfl
@[simp] theorem noteDstRace_choices (i : Nat) : (noteDstRace i s).choices = s.choices := rfl

@[simp] theorem addLoan_cmd (l : Loan) : (addLoan l s).cmd = s.cmd := rfl
@[simp] theorem addLoan_status (l : Loan) : (addLoan l s).status = s.status := rfl
@[simp] theorem addLoan_result (l : Loan) : (addLoan l s).result = s.result := rfl
@[simp] theorem addLoan_errInfo (l : Loan) : (addLoan l s).errInfo = s.errInfo := rfl
@[simp] theorem addLoan_width (l : Loan) : (addLoan l s).width = s.width := rfl
@[simp] theorem addLoan_height (l : Loan) : (addLoan l s).height = s.height := rfl
@[simp] theorem addLoan_stride (l : Loan) : (addLoan l s).stride = s.stride := rfl
@[simp] theorem addLoan_dstLen (l : Loan) : (addLoan l s).dstLen = s.dstLen := rfl
@[simp] theorem addLoan_cfg (l : Loan) : (addLoan l s).cfg = s.cfg := rfl
@[simp] theorem addLoan_seq (l : Loan) : (addLoan l s).seq = s.seq := rfl
@[simp] theorem addLoan_resetLine (l : Loan) : (addLoan l s).resetLine = s.resetLine := rfl
@[simp] theorem addLoan_src (l : Loan) : (addLoan l s).src = s.src := rfl
@[simp] theorem addLoan_dst (l : Loan) : (addLoan l s).dst = s.dst := rfl
@[simp] theorem addLoan_agenda (l : Loan) : (addLoan l s).agenda = s.agenda := rfl
@[simp] theorem addLoan_rdata (l : Loan) : (addLoan l s).rdata = s.rdata := rfl
@[simp] theorem addLoan_srcRaces (l : Loan) : (addLoan l s).srcRaces = s.srcRaces := rfl
@[simp] theorem addLoan_dstRaces (l : Loan) : (addLoan l s).dstRaces = s.dstRaces := rfl
@[simp] theorem addLoan_lent (l : Loan) : (addLoan l s).lent = l :: s.lent := rfl
@[simp] theorem addLoan_choices (l : Loan) : (addLoan l s).choices = s.choices := rfl

@[simp] theorem returnLoans_cmd : (returnLoans s).cmd = s.cmd := rfl
@[simp] theorem returnLoans_status : (returnLoans s).status = s.status := rfl
@[simp] theorem returnLoans_result : (returnLoans s).result = s.result := rfl
@[simp] theorem returnLoans_errInfo : (returnLoans s).errInfo = s.errInfo := rfl
@[simp] theorem returnLoans_width : (returnLoans s).width = s.width := rfl
@[simp] theorem returnLoans_height : (returnLoans s).height = s.height := rfl
@[simp] theorem returnLoans_stride : (returnLoans s).stride = s.stride := rfl
@[simp] theorem returnLoans_dstLen : (returnLoans s).dstLen = s.dstLen := rfl
@[simp] theorem returnLoans_cfg : (returnLoans s).cfg = s.cfg := rfl
@[simp] theorem returnLoans_seq : (returnLoans s).seq = s.seq := rfl
@[simp] theorem returnLoans_resetLine : (returnLoans s).resetLine = s.resetLine := rfl
@[simp] theorem returnLoans_src : (returnLoans s).src = s.src := rfl
@[simp] theorem returnLoans_dst : (returnLoans s).dst = s.dst := rfl
@[simp] theorem returnLoans_agenda : (returnLoans s).agenda = s.agenda := rfl
@[simp] theorem returnLoans_rdata : (returnLoans s).rdata = s.rdata := rfl
@[simp] theorem returnLoans_srcRaces : (returnLoans s).srcRaces = s.srcRaces := rfl
@[simp] theorem returnLoans_dstRaces : (returnLoans s).dstRaces = s.dstRaces := rfl
@[simp] theorem returnLoans_lent : (returnLoans s).lent = [] := rfl
@[simp] theorem returnLoans_choices : (returnLoans s).choices = s.choices := rfl

@[simp] theorem nextChoice_cmd : (nextChoice s).cmd = s.cmd := rfl
@[simp] theorem nextChoice_status : (nextChoice s).status = s.status := rfl
@[simp] theorem nextChoice_result : (nextChoice s).result = s.result := rfl
@[simp] theorem nextChoice_errInfo : (nextChoice s).errInfo = s.errInfo := rfl
@[simp] theorem nextChoice_width : (nextChoice s).width = s.width := rfl
@[simp] theorem nextChoice_height : (nextChoice s).height = s.height := rfl
@[simp] theorem nextChoice_stride : (nextChoice s).stride = s.stride := rfl
@[simp] theorem nextChoice_dstLen : (nextChoice s).dstLen = s.dstLen := rfl
@[simp] theorem nextChoice_cfg : (nextChoice s).cfg = s.cfg := rfl
@[simp] theorem nextChoice_seq : (nextChoice s).seq = s.seq := rfl
@[simp] theorem nextChoice_resetLine : (nextChoice s).resetLine = s.resetLine := rfl
@[simp] theorem nextChoice_src : (nextChoice s).src = s.src := rfl
@[simp] theorem nextChoice_dst : (nextChoice s).dst = s.dst := rfl
@[simp] theorem nextChoice_agenda : (nextChoice s).agenda = s.agenda := rfl
@[simp] theorem nextChoice_rdata : (nextChoice s).rdata = s.rdata := rfl
@[simp] theorem nextChoice_srcRaces : (nextChoice s).srcRaces = s.srcRaces := rfl
@[simp] theorem nextChoice_dstRaces : (nextChoice s).dstRaces = s.dstRaces := rfl
@[simp] theorem nextChoice_lent : (nextChoice s).lent = s.lent := rfl
@[simp] theorem nextChoice_choices : (nextChoice s).choices = s.choices + 1 := rfl

/-- STATUS words by value (`10_state.md` R27). -/
theorem statusBusy_eq : statusBusy = 0x00000001#32 := by decide

theorem statusDone_zero : statusDone 0 = 0x00000002#32 := by decide

theorem statusDone_code (f : CommandFault) : statusDone f.code = BitVec.ofNat 32 (f.code * 16 + 2) := by
  cases f <;> rfl

theorem completeOk_eq_succeeded (v : Nat) : completeOk v s = succeeded v s := by
  unfold completeOk succeeded
  rw [statusDone_zero]
  rfl

theorem raiseFault_eq_faulted (f : CommandFault) : raiseFault f s = faulted f.code f.info.toNat s := by
  unfold raiseFault faulted
  rw [statusDone_code, BitVec.ofNat_toNat, BitVec.setWidth_eq]
  rfl

@[simp] theorem launch_busy (c : Word) : (launch c s).busy = true := by
  unfold State.busy
  rw [launch_status]
  decide

@[simp] theorem completeOk_busy (v : Nat) : (completeOk v s).busy = false := by
  unfold State.busy
  rw [completeOk_status]
  decide

@[simp] theorem raiseFault_busy (f : CommandFault) : (raiseFault f s).busy = false := by
  unfold State.busy
  rw [raiseFault_status, statusDone_code]
  cases f <;> simp [CommandFault.code]

@[simp] theorem resetRegisters_busy : (resetRegisters s).busy = false := by
  unfold State.busy
  rw [resetRegisters_status]
  decide

@[simp] theorem completeOk_done (v : Nat) : (completeOk v s).done = true := by
  unfold State.done
  rw [completeOk_status]
  decide

@[simp] theorem raiseFault_done (f : CommandFault) : (raiseFault f s).done = true := by
  unfold State.done
  rw [raiseFault_status, statusDone_code]
  cases f <;> simp [CommandFault.code]

@[simp] theorem completeOk_err (v : Nat) : (completeOk v s).err = 0 := by
  unfold State.err
  rw [completeOk_status]
  decide

@[simp] theorem raiseFault_err (f : CommandFault) : (raiseFault f s).err = f.code := by
  unfold State.err
  rw [raiseFault_status, statusDone_code]
  cases f <;> simp [CommandFault.code, slice]

end Sys2Proof.Machine
end

