-- ==== Sys2Proof/Laws/Check.lean ====
section
/-! SUPPORT. What the checks of GEOM and PACK commands can answer (`41_geometry.md` R128, `47_dispatch.md`
R204 to R207), and the arithmetic of the floor stride. -/

namespace Sys2Proof.Machine

theorem widthOf_eq (s : State) : widthOf s = s.width.toInt.toNat := rfl

theorem heightOf_eq (s : State) : heightOf s = s.height.toInt.toNat := rfl

/-- A positive WIDTH is below 2^31 (`10_state.md` R22). -/
theorem widthOf_lt (s : State) : widthOf s < 2 ^ 31 := by
  have := BitVec.toInt_lt (x := s.width)
  unfold widthOf State.widthOperand
  omega

theorem heightOf_lt (s : State) : heightOf s < 2 ^ 31 := by
  have := BitVec.toInt_lt (x := s.height)
  unfold heightOf State.heightOperand
  omega

theorem widthOf_pos (s : State) (h : 0 < s.widthOperand) : 0 < widthOf s := by
  unfold widthOf
  omega

theorem heightOf_pos (s : State) (h : 0 < s.heightOperand) : 0 < heightOf s := by
  unfold heightOf
  omega

theorem floorStride_rgb8b (w : Nat) : floorStride .rgb8b w = w * 4 := by
  simp [floorStride, descriptor, ceilDiv]

theorem floorStride_rgb8r (w : Nat) : floorStride .rgb8r w = w * 4 := by
  simp [floorStride, descriptor, ceilDiv]

theorem floorStride_yuv8 (w : Nat) : floorStride .yuv8 w = (w + 1) / 2 * 4 := by
  simp [floorStride, descriptor, ceilDiv]

theorem floorStride_r210 (w : Nat) : floorStride .r210 w = (w + 63) / 64 * 256 := by
  simp [floorStride, descriptor, ceilDiv]

theorem floorStride_yuv10 (w : Nat) : floorStride .yuv10 w = w * 4 := by
  simp [floorStride, descriptor, ceilDiv]

theorem floorStride_r12b (w : Nat) : floorStride .r12b w = (w + 7) / 8 * 36 := by
  simp [floorStride, descriptor, ceilDiv]

theorem floorStride_r12l (w : Nat) : floorStride .r12l w = (w + 7) / 8 * 36 := by
  simp [floorStride, descriptor, ceilDiv]

/-- Whole groups fill the floor stride (`47_dispatch.md` R209). -/
theorem groupsPerRow_mul (f : WireFormat) (w : Nat) :
    groupsPerRow f (floorStride f w) * (descriptor f).groupBytes = floorStride f w := by
  unfold groupsPerRow
  apply Nat.div_mul_cancel
  unfold floorStride
  apply Dvd.dvd.mul_left
  cases f <;> simp [descriptor]

/-- A GEOM command's checks answer (R128) exactly so. -/
theorem geomCheck_cases (f : WireFormat) (s : State) :
    (s.widthOperand ≤ 0 ∧ geomCheck f s = .error (.malformedGeometry .width)) ∨
    (0 < s.widthOperand ∧ 2 ^ 32 ≤ floorStride f (widthOf s) ∧
      geomCheck f s = .error (.malformedGeometry .floorTooLarge)) ∨
    (0 < s.widthOperand ∧ floorStride f (widthOf s) < 2 ^ 32 ∧
      geomCheck f s = .ok (floorStride f (widthOf s))) := by
  unfold geomCheck widthOf
  by_cases h1 : s.widthOperand ≤ 0
  · exact .inl ⟨h1, if_pos h1⟩
  · rw [if_neg h1]
    by_cases h2 : 2 ^ 32 ≤ floorStride f s.widthOperand.toNat
    · exact .inr (.inl ⟨by omega, h2, if_pos h2⟩)
    · exact .inr (.inr ⟨by omega, by omega, if_neg h2⟩)

/-- A GEOM command always completes (R128). -/
theorem geomCommand_next (f : WireFormat) (s : State) :
    (∃ e, geomCheck f s = .error e ∧ geomCommand f s = .next (raiseFault e s)) ∨
    (∃ fs, geomCheck f s = .ok fs ∧ geomCommand f s = .next (completeOk fs s)) := by
  unfold geomCommand
  cases h : geomCheck f s with
  | error e => exact .inl ⟨e, rfl, rfl⟩
  | ok fs => exact .inr ⟨fs, rfl, rfl⟩

/-- The geometry of a PACK that passed its checks. -/
def geometryOf (f : WireFormat) (s : State) : PackGeometry :=
  { w := widthOf s, h := heightOf s, st := s.stride.toNat, fs := floorStride f (widthOf s) }

/-- The checks of a PACK command answer one of the faults of R204, in its order, or the geometry. -/
theorem packCheck_cases (f : WireFormat) (s : State) :
    (s.widthOperand ≤ 0 ∧ packCheck f s = .error (.malformedGeometry .width)) ∨
    (0 < s.widthOperand ∧ s.heightOperand ≤ 0 ∧ packCheck f s = .error (.malformedGeometry .height)) ∨
    (0 < s.widthOperand ∧ 0 < s.heightOperand ∧ 2 ^ 32 ≤ floorStride f (widthOf s) ∧
      packCheck f s = .error (.malformedGeometry .floorTooLarge)) ∨
    (0 < s.widthOperand ∧ 0 < s.heightOperand ∧ floorStride f (widthOf s) < 2 ^ 32 ∧
      s.stride.toNat < floorStride f (widthOf s) ∧
      packCheck f s = .error (.malformedGeometry .strideTooSmall)) ∨
    (0 < s.widthOperand ∧ 0 < s.heightOperand ∧ floorStride f (widthOf s) < 2 ^ 32 ∧
      floorStride f (widthOf s) ≤ s.stride.toNat ∧ s.stride.toNat % (descriptor f).rowAlign ≠ 0 ∧
      packCheck f s = .error (.malformedGeometry .strideMisaligned)) ∨
    (0 < s.widthOperand ∧ 0 < s.heightOperand ∧ floorStride f (widthOf s) < 2 ^ 32 ∧
      floorStride f (widthOf s) ≤ s.stride.toNat ∧ s.stride.toNat % (descriptor f).rowAlign = 0 ∧
      s.dstLen.toNat < heightOf s * s.stride.toNat ∧
      packCheck f s = .error (.bufferTooSmall (min (heightOf s * s.stride.toNat) (2 ^ 32 - 1)))) ∨
    (PackAccepted (floorStride f (widthOf s)) (descriptor f).rowAlign s ∧
      packCheck f s = .ok (geometryOf f s)) := by
  unfold packCheck widthOf heightOf geometryOf widthOf heightOf
  by_cases h1 : s.widthOperand ≤ 0
  · exact .inl ⟨h1, if_pos h1⟩
  · rw [if_neg h1]
    by_cases h2 : s.heightOperand ≤ 0
    · exact .inr (.inl ⟨by omega, h2, if_pos h2⟩)
    · rw [if_neg h2]
      by_cases h3 : 2 ^ 32 ≤ floorStride f s.widthOperand.toNat
      · exact .inr (.inr (.inl ⟨by omega, by omega, h3, if_pos h3⟩))
      · rw [if_neg h3]
        by_cases h4 : s.stride.toNat < floorStride f s.widthOperand.toNat
        · exact .inr (.inr (.inr (.inl ⟨by omega, by omega, by omega, h4, if_pos h4⟩)))
        · rw [if_neg h4]
          by_cases h5 : s.stride.toNat % (descriptor f).rowAlign ≠ 0
          · exact .inr (.inr (.inr (.inr (.inl
              ⟨by omega, by omega, by omega, by omega, h5, if_pos h5⟩))))
          · rw [if_neg h5]
            by_cases h6 : s.dstLen.toNat < s.heightOperand.toNat * s.stride.toNat
            · exact .inr (.inr (.inr (.inr (.inr (.inl
                ⟨by omega, by omega, by omega, by omega, by omega, h6, if_pos h6⟩)))))
            · exact .inr (.inr (.inr (.inr (.inr (.inr
                ⟨⟨by omega, by omega, by omega, by omega, by omega, Nat.le_of_not_lt h6⟩, if_neg h6⟩)))))

/-- The checks of a PACK command pass exactly when it is accepted (R204). -/
theorem packCheck_ok_iff (f : WireFormat) (s : State) (g : PackGeometry) :
    packCheck f s = .ok g ↔
      PackAccepted (floorStride f (widthOf s)) (descriptor f).rowAlign s ∧ g = geometryOf f s := by
  constructor
  · intro h
    rcases packCheck_cases f s with h1 | h1 | h1 | h1 | h1 | h1 | h1
    · rw [h1.2] at h; cases h
    · rw [h1.2.2] at h; cases h
    · rw [h1.2.2.2] at h; cases h
    · rw [h1.2.2.2.2] at h; cases h
    · rw [h1.2.2.2.2.2] at h; cases h
    · rw [h1.2.2.2.2.2.2] at h; cases h
    · rw [h1.2] at h
      injection h with h
      exact ⟨h1.1, h.symm⟩
  · rintro ⟨⟨h1, h2, h3, h4, h5, h6⟩, rfl⟩
    rcases packCheck_cases f s with h | h | h | h | h | h | h
    · omega
    · omega
    · omega
    · omega
    · exact absurd h5 h.2.2.2.2.1
    · omega
    · exact h.2

end Sys2Proof.Machine
end

