-- ==== Sys2Proof/Laws/Collect.lean ====
section
/-! SUPPORT. What carrying a function that can stop along a list can answer, and the bytes at consecutive
offsets. -/

namespace Sys2Proof.Machine

variable {ε α β : Type}

/-- If the function answers on every element, so does `collect`, with the answers in order. -/
theorem collect_of_ok (f : α → Except ε β) (g : α → β) (l : List α) (h : ∀ a ∈ l, f a = .ok (g a)) :
    collect f l = .ok (l.map g) := by
  induction l with
  | nil => rfl
  | cons a l ih =>
    unfold collect
    rw [h a List.mem_cons_self, ih fun b hb => h b (List.mem_cons_of_mem _ hb)]
    rfl

/-- If `collect` answers, each element's answer stands at its place. -/
theorem collect_ok (f : α → Except ε β) (l : List α) (bs : List β) (h : collect f l = .ok bs) :
    List.Forall₂ (fun a b => f a = .ok b) l bs := by
  induction l generalizing bs with
  | nil =>
    injection h with h
    subst h
    exact .nil
  | cons a l ih =>
    unfold collect at h
    split at h
    · cases h
    · next b hb =>
      split at h
      · cases h
      · next bs' hbs =>
        injection h with h
        subst h
        exact .cons hb (ih bs' hbs)

/-- If `collect` stops, the function stops on some element. -/
theorem collect_error (f : α → Except ε β) (l : List α) (e : ε) (h : collect f l = .error e) :
    ∃ a ∈ l, f a = .error e := by
  induction l with
  | nil => cases h
  | cons a l ih =>
    unfold collect at h
    split at h
    · next e' he =>
      injection h with h
      subst h
      exact ⟨a, List.mem_cons_self, he⟩
    · split at h
      · next e' he =>
        injection h with h
        subst h
        obtain ⟨x, hx, hfx⟩ := ih he
        exact ⟨x, List.mem_cons_of_mem _ hx, hfx⟩
      · cases h

/-- If the function stops on some element, `collect` stops. -/
theorem collect_stops (f : α → Except ε β) (l : List α) (a : α) (ha : a ∈ l) (e : ε) (h : f a = .error e) :
    ∃ e', collect f l = .error e' := by
  cases hc : collect f l with
  | error e' => exact ⟨e', rfl⟩
  | ok bs =>
    obtain ⟨hl, hg⟩ := List.forall₂_iff_get.1 (collect_ok f l bs hc)
    obtain ⟨n, hn, rfl⟩ := List.mem_iff_getElem.1 ha
    have hb := hg n hn (hl ▸ hn)
    simp [h] at hb

/-- If `collect` answers, the function answers on every element. -/
theorem collect_ok_mem (f : α → Except ε β) (l : List α) (bs : List β) (h : collect f l = .ok bs) (a : α)
    (ha : a ∈ l) : ∃ b, f a = .ok b := by
  cases hf : f a with
  | ok b => exact ⟨b, rfl⟩
  | error e =>
    obtain ⟨e', he⟩ := collect_stops f l a ha e hf
    rw [h] at he
    cases he

/-- Which cells stand at consecutive offsets. -/
theorem mem_cellsAt (o : Nat) (bs : List Byte) (x : Host.Cell) :
    x ∈ cellsAt o bs ↔ ∃ t, ∃ h : t < bs.length, x = (o + t, bs[t]) := by
  induction bs generalizing o with
  | nil => simp [cellsAt]
  | cons b bs ih =>
    simp only [cellsAt, List.mem_cons, ih]
    constructor
    · rintro (rfl | ⟨t, h, rfl⟩)
      · exact ⟨0, by simp, by simp⟩
      · exact ⟨t + 1, by simpa using h, by simp [Nat.add_comm, Nat.add_left_comm]⟩
    · rintro ⟨t, h, rfl⟩
      cases t with
      | zero => left; simp
      | succ t =>
        right
        exact ⟨t, by simpa using h, by simp [Nat.add_comm, Nat.add_left_comm]⟩

end Sys2Proof.Machine
end

