-- ==== Sys2Proof/Laws/Decode.lean ====
section
/-! SUPPORT. The fields of a command word as the decoder and the well-formedness checks read them, and what
the decoder can answer. -/

namespace Sys2Proof

open Machine

/-- A slice of a word is the extracted bit field as a number. -/
theorem slice_eq_extract (c : Word) (hi lo : Nat) :
    slice c.toNat hi lo = (c.extractLsb' lo (hi + 1 - lo)).toNat := by
  unfold slice
  rw [BitVec.extractLsb'_toNat, Nat.shiftRight_eq_div_pow]

theorem slice_lt (v hi lo : Nat) : slice v hi lo < 2 ^ (hi + 1 - lo) := Nat.mod_lt _ (Nat.two_pow_pos _)

/-- An FMT value names a format exactly from 1 to 7 (`30_encoding.md` R88, R89). -/
theorem ofNumber_isSome (n : Nat) : (WireFormat.ofNumber n).isSome = true ↔ 1 ≤ n ∧ n ≤ 7 := by
  constructor
  · intro h
    unfold WireFormat.ofNumber at h
    split at h <;> simp_all
  · rintro ⟨h1, h2⟩
    have : n = 1 ∨ n = 2 ∨ n = 3 ∨ n = 4 ∨ n = 5 ∨ n = 6 ∨ n = 7 := by omega
    rcases this with rfl | rfl | rfl | rfl | rfl | rfl | rfl <;> rfl

theorem ofNumber_number (f : WireFormat) : WireFormat.ofNumber f.number = some f := by
  cases f <;> rfl

theorem number_of_ofNumber (n : Nat) (f : WireFormat) (h : WireFormat.ofNumber n = some f) : f.number = n := by
  unfold WireFormat.ofNumber at h
  split at h <;> first | (injection h with h; subst h; rfl) | cases h

/-- What the decoder answers, case by case (R87). -/
theorem decode_cases (c : Word) :
    (slice c.toNat 31 28 = 1 ∧ slice c.toNat 23 16 = 0 ∧
      ((slice c.toNat 27 24 = 8 ∧ decode c = .ok (.clamp8 (slice c.toNat 15 0))) ∨
       (slice c.toNat 27 24 = 10 ∧ decode c = .ok (.clamp10 (slice c.toNat 15 0))) ∨
       (slice c.toNat 27 24 = 12 ∧ decode c = .ok (.clamp12 (slice c.toNat 15 0))))) ∨
    (slice c.toNat 27 8 = 0 ∧ ∃ f, WireFormat.ofNumber (slice c.toNat 7 0) = some f ∧
      ((slice c.toNat 31 28 = 2 ∧ decode c = .ok (geomInstr f)) ∨
       (slice c.toNat 31 28 = 3 ∧ decode c = .ok (packInstr f)))) ∨
    ((slice c.toNat 31 28 = 2 ∨ slice c.toNat 31 28 = 3) ∧ slice c.toNat 27 8 = 0 ∧
      WireFormat.ofNumber (slice c.toNat 7 0) = none ∧
      decode c = .error (.unsupportedFormat (slice c.toNat 7 0))) ∨
    (((slice c.toNat 31 28 = 1 ∧ (slice c.toNat 23 16 ≠ 0 ∨
        (slice c.toNat 27 24 ≠ 8 ∧ slice c.toNat 27 24 ≠ 10 ∧ slice c.toNat 27 24 ≠ 12))) ∨
      ((slice c.toNat 31 28 = 2 ∨ slice c.toNat 31 28 = 3) ∧ slice c.toNat 27 8 ≠ 0) ∨
      (slice c.toNat 31 28 ≠ 1 ∧ slice c.toNat 31 28 ≠ 2 ∧ slice c.toNat 31 28 ≠ 3)) ∧
      decode c = .error (.illegalCommand c)) := by
  unfold decode
  by_cases h1 : slice c.toNat 31 28 = 1
  · simp only [if_pos h1]
    by_cases h2 : slice c.toNat 23 16 = 0
    · rw [if_neg (by simpa using h2)]
      by_cases h3 : slice c.toNat 27 24 = 8
      · exact .inl ⟨h1, h2, .inl ⟨h3, if_pos h3⟩⟩
      · rw [if_neg h3]
        by_cases h4 : slice c.toNat 27 24 = 10
        · exact .inl ⟨h1, h2, .inr (.inl ⟨h4, if_pos h4⟩)⟩
        · rw [if_neg h4]
          by_cases h5 : slice c.toNat 27 24 = 12
          · exact .inl ⟨h1, h2, .inr (.inr ⟨h5, if_pos h5⟩)⟩
          · exact .inr (.inr (.inr ⟨.inl ⟨h1, .inr ⟨h3, h4, h5⟩⟩, if_neg h5⟩))
    · exact .inr (.inr (.inr ⟨.inl ⟨h1, .inl h2⟩, if_pos h2⟩))
  · simp only [if_neg h1]
    by_cases h2 : slice c.toNat 31 28 = 2 ∨ slice c.toNat 31 28 = 3
    · simp only [if_pos h2]
      by_cases h3 : slice c.toNat 27 8 = 0
      · rw [if_neg (by simpa using h3)]
        cases hf : WireFormat.ofNumber (slice c.toNat 7 0) with
        | none => exact .inr (.inr (.inl ⟨h2, h3, rfl, rfl⟩))
        | some f =>
          refine .inr (.inl ⟨h3, f, rfl, ?_⟩)
          rcases h2 with h2 | h2
          · exact .inl ⟨h2, if_pos h2⟩
          · exact .inr ⟨h2, if_neg (by omega)⟩
      · exact .inr (.inr (.inr ⟨.inr (.inl ⟨h2, h3⟩), if_pos h3⟩))
    · simp only [if_neg h2]
      exact .inr (.inr (.inr ⟨.inr (.inr ⟨h1, by omega, by omega⟩), trivial⟩))

theorem packFormatOf_packInstr (f : WireFormat) : packFormatOf (packInstr f) = some f := by cases f <;> rfl

/-- A word that decodes to a PACK command has OP 3, a clear ZERO field and the number of its format (R81, R94). -/
theorem pack_word (c : Word) (i : Instr) (f : WireFormat) (h : decode c = .ok i) (hf : packFormatOf i = some f) :
    i = packInstr f ∧ c = BitVec.ofNat 32 (3 * 2 ^ 28 + f.number) := by
  rcases decode_cases c with ⟨_, _, ⟨_, hd⟩ | ⟨_, hd⟩ | ⟨_, hd⟩⟩ | ⟨hz, g, hg, ⟨_, hd⟩ | ⟨ho, hd⟩⟩ | ⟨_, _, _, hd⟩ |
    ⟨_, hd⟩ <;> rw [hd] at h <;> cases h
  · cases hf
  · cases hf
  · cases hf
  · cases g <;> cases hf
  · rw [packFormatOf_packInstr] at hf
    injection hf with hf
    subst hf
    have hn := number_of_ofNumber _ _ hg
    unfold slice at hz ho hn
    have hlt : c.toNat < 2 ^ 32 := c.isLt
    refine ⟨rfl, BitVec.eq_of_toNat_eq ?_⟩
    rw [BitVec.toNat_ofNat, hn]
    omega

/-- A launched word that is no command reports itself or its FMT field (R237, R232). -/
theorem decode_error (c : Word) (e : CommandFault) (h : decode c = .error e) :
    e = .illegalCommand c ∨
    (e = .unsupportedFormat (slice c.toNat 7 0) ∧
      (slice c.toNat 7 0 = 0 ∨ (8 ≤ slice c.toNat 7 0 ∧ slice c.toNat 7 0 ≤ 255))) := by
  rcases decode_cases c with ⟨_, _, h1 | h1 | h1⟩ | ⟨_, f, _, h1 | h1⟩ | h1 | h1
  · rw [h1.2] at h; cases h
  · rw [h1.2] at h; cases h
  · rw [h1.2] at h; cases h
  · rw [h1.2] at h; cases h
  · rw [h1.2] at h; cases h
  · have hn := h1.2.2.1
    rw [h1.2.2.2] at h
    injection h with h
    have hs : ¬ (1 ≤ slice c.toNat 7 0 ∧ slice c.toNat 7 0 ≤ 7) := by
      rw [← ofNumber_isSome, hn]
      decide
    have := slice_lt c.toNat 7 0
    exact .inr ⟨h.symm, by omega⟩
  · rw [h1.2] at h
    injection h with h
    exact .inl h.symm

/-- The number of a format C word (R82). -/
theorem encodeC_toNat (dep val : Nat) : (encodeC dep val).toNat =
    2 ^ 28 + dep % 16 * 2 ^ 24 + val % 2 ^ 16 := by
  have h1 : dep % 16 < 16 := Nat.mod_lt _ (by norm_num)
  have h2 : val % 65536 < 65536 := Nat.mod_lt _ (by norm_num)
  unfold encodeC concatWord
  simp only [concatFrom, BitVec.toNat_ofNat]
  norm_num
  omega

/-- The number of a format F word (R81). -/
theorem encodeF_toNat (op fmt : Nat) : (encodeF op fmt).toNat = op % 16 * 2 ^ 28 + fmt % 256 := by
  have h1 : op % 16 < 16 := Nat.mod_lt _ (by norm_num)
  have h2 : fmt % 256 < 256 := Nat.mod_lt _ (by norm_num)
  unfold encodeF concatWord
  simp only [concatFrom, BitVec.toNat_ofNat]
  norm_num
  omega

/-- A format C word with a declared depth is a command word (R84, R86, R90). -/
theorem commandWord_encodeC (dep val : Nat) (h : dep = 8 ∨ dep = 10 ∨ dep = 12) : commandWord (encodeC dep val) = true := by
  have hn := encodeC_toNat dep val
  have h2 : val % 65536 < 65536 := Nat.mod_lt _ (by norm_num)
  have e1 : (encodeC dep val).extractLsb' 28 4 = 1#4 := by
    apply BitVec.eq_of_toNat_eq
    rw [BitVec.extractLsb'_toNat, Nat.shiftRight_eq_div_pow, hn, BitVec.toNat_ofNat]
    omega
  have e2 : (encodeC dep val).extractLsb' 16 8 = 0#8 := by
    apply BitVec.eq_of_toNat_eq
    rw [BitVec.extractLsb'_toNat, Nat.shiftRight_eq_div_pow, hn, BitVec.toNat_ofNat]
    omega
  have e3 : (encodeC dep val).extractLsb' 24 4 = BitVec.ofNat 4 dep := by
    apply BitVec.eq_of_toNat_eq
    rw [BitVec.extractLsb'_toNat, Nat.shiftRight_eq_div_pow, hn, BitVec.toNat_ofNat]
    omega
  unfold commandWord legalWord opDefined zeroFieldClear depthDeclared formatRecognised isFormatC
  rw [e1, e2, e3]
  rcases h with rfl | rfl | rfl <;> rfl

end Sys2Proof
end

