-- ==== Sys2Proof/Laws/Memory.lean ====
section
/-! SUPPORT. The laws of the two memories: read after write, every other address left alone, the canonical
form kept, and equal reads make equal memories. -/

namespace Sys2Proof.Machine

variable {α : Type}

/-- An address that is not listed has no value. -/
@[simp] theorem Memory.unlisted_eq_none : (Memory.unlisted : Option α) = none := rfl

@[simp] theorem Memory.read?_nil (a : Nat) : Memory.read? ([] : Memory α) a = none := rfl

theorem Memory.read?_write (m : Memory α) (a b : Nat) (v : α) :
    Memory.read? (Memory.write m a v) b = if b = a then some v else Memory.read? m b := by
  induction m with
  | nil => simp [Memory.write, Memory.read?]
  | cons x m ih =>
    obtain ⟨k, y⟩ := x
    unfold Memory.write
    split
    · simp [Memory.read?]
    · split
      · next h =>
        subst h
        by_cases hb : b = a <;> simp [Memory.read?, hb]
      · next h1 h2 =>
        simp only [Memory.read?, ih]
        by_cases hk : b = k
        · subst hk
          simp [Ne.symm h2]
        · simp [hk]

@[simp] theorem Memory.read?_write_same (m : Memory α) (a : Nat) (v : α) :
    Memory.read? (Memory.write m a v) a = some v := by
  rw [Memory.read?_write, if_pos rfl]

theorem Memory.read?_write_other (m : Memory α) {a b : Nat} (v : α) (h : b ≠ a) :
    Memory.read? (Memory.write m a v) b = Memory.read? m b := by
  rw [Memory.read?_write, if_neg h]

theorem Memory.mem_write (m : Memory α) (a : Nat) (v : α) (x : Nat × α) (h : x ∈ Memory.write m a v) :
    x = (a, v) ∨ x ∈ m := by
  induction m with
  | nil => simpa [Memory.write] using h
  | cons y m ih =>
    obtain ⟨k, z⟩ := y
    unfold Memory.write at h
    split at h
    · simpa using h
    · split at h
      · rcases List.mem_cons.1 h with h | h
        · exact .inl h
        · exact .inr (List.mem_cons_of_mem _ h)
      · rcases List.mem_cons.1 h with h | h
        · exact .inr (h ▸ List.mem_cons_self)
        · rcases ih h with h | h
          · exact .inl h
          · exact .inr (List.mem_cons_of_mem _ h)

theorem Memory.wf_write (m : Memory α) (a : Nat) (v : α) (h : Memory.wf m) : Memory.wf (Memory.write m a v) := by
  induction m with
  | nil => simp [Memory.write, Memory.wf]
  | cons x m ih =>
    obtain ⟨k, y⟩ := x
    obtain ⟨hk, hm⟩ := List.pairwise_cons.1 h
    unfold Memory.write
    split
    · next hlt =>
      refine List.pairwise_cons.2 ⟨?_, h⟩
      intro z hz
      rcases List.mem_cons.1 hz with rfl | hz
      · exact hlt
      · exact lt_trans hlt (hk z hz)
    · split
      · next heq =>
        subst heq
        exact List.pairwise_cons.2 ⟨hk, hm⟩
      · next h1 h2 =>
        refine List.pairwise_cons.2 ⟨?_, ih hm⟩
        intro z hz
        rcases Memory.mem_write m a v z hz with rfl | hz
        · show k < a
          omega
        · exact hk z hz

theorem Memory.wf_writeAll (ws : List (Nat × α)) (m : Memory α) (h : Memory.wf m) :
    Memory.wf (Memory.writeAll m ws) := by
  induction ws generalizing m with
  | nil => exact h
  | cons w ws ih => exact ih _ (Memory.wf_write m w.1 w.2 h)

theorem Memory.writeAll_append (ws vs : List (Nat × α)) (m : Memory α) :
    Memory.writeAll m (ws ++ vs) = Memory.writeAll (Memory.writeAll m ws) vs := by
  induction ws generalizing m with
  | nil => rfl
  | cons w ws ih => exact ih _

/-- An address none of the writes names keeps its value. -/
theorem Memory.read?_writeAll_other (ws : List (Nat × α)) (m : Memory α) (b : Nat)
    (h : ∀ x ∈ ws, x.1 ≠ b) : Memory.read? (Memory.writeAll m ws) b = Memory.read? m b := by
  induction ws generalizing m with
  | nil => rfl
  | cons w ws ih =>
    show Memory.read? (Memory.writeAll (Memory.write m w.1 w.2) ws) b = _
    rw [ih _ (fun x hx => h x (List.mem_cons_of_mem _ hx)),
      Memory.read?_write_other _ _ (Ne.symm (h w List.mem_cons_self))]

/-- An address whose writes all carry one value ends with it (`20_memory.md` R63). -/
theorem Memory.read?_writeAll_mem (ws : List (Nat × α)) (m : Memory α) (b : Nat) (v : α)
    (hm : (b, v) ∈ ws) (h : ∀ x ∈ ws, x.1 = b → x.2 = v) :
    Memory.read? (Memory.writeAll m ws) b = some v := by
  induction ws generalizing m with
  | nil => cases hm
  | cons w ws ih =>
    show Memory.read? (Memory.writeAll (Memory.write m w.1 w.2) ws) b = _
    by_cases hin : (b, v) ∈ ws
    · exact ih _ hin (fun x hx => h x (List.mem_cons_of_mem _ hx))
    · have hw : w = (b, v) := by
        rcases List.mem_cons.1 hm with h | h
        · exact h.symm
        · exact absurd h hin
      subst hw
      rw [Memory.read?_writeAll_other, Memory.read?_write_same]
      intro x hx hxb
      have hv := h x (List.mem_cons_of_mem _ hx) hxb
      exact hin (by rw [← hxb, ← hv]; exact hx)

/-- The value after a list of writes is the old one or one that was written there. -/
theorem Memory.read?_writeAll_cases (ws : List (Nat × α)) (m : Memory α) (b : Nat) :
    (Memory.read? (Memory.writeAll m ws) b = Memory.read? m b) ∨
      ∃ x ∈ ws, x.1 = b ∧ Memory.read? (Memory.writeAll m ws) b = some x.2 := by
  induction ws generalizing m with
  | nil => exact .inl rfl
  | cons w ws ih =>
    rcases ih (Memory.write m w.1 w.2) with h | ⟨x, hx, hxb, h⟩
    · by_cases hb : b = w.1
      · subst hb
        exact .inr ⟨w, List.mem_cons_self, rfl, by rw [Memory.read?_write_same] at h; exact h⟩
      · exact .inl (by rw [Memory.read?_write_other _ _ hb] at h; exact h)
    · exact .inr ⟨x, List.mem_cons_of_mem _ hx, hxb, h⟩

theorem Memory.read?_eq_none_of_lt (m : Memory α) (a : Nat) (h : ∀ x ∈ m, a < x.1) :
    Memory.read? m a = none := by
  induction m with
  | nil => rfl
  | cons x m ih =>
    have hx := h x List.mem_cons_self
    unfold Memory.read?
    rw [if_neg (by omega)]
    exact ih fun z hz => h z (List.mem_cons_of_mem _ hz)

/-- Equal memories are equal data: two memories in canonical form that read alike are the same list. -/
theorem Memory.ext_of_wf (m m' : Memory α) (h : Memory.wf m) (h' : Memory.wf m')
    (he : ∀ a, Memory.read? m a = Memory.read? m' a) : m = m' := by
  induction m generalizing m' with
  | nil =>
    cases m' with
    | nil => rfl
    | cons x m' =>
      have := he x.1
      simp [Memory.read?] at this
  | cons x m ih =>
    obtain ⟨hx, hm⟩ := List.pairwise_cons.1 h
    cases m' with
    | nil =>
      have := he x.1
      simp [Memory.read?] at this
    | cons y m' =>
      obtain ⟨hy, hm'⟩ := List.pairwise_cons.1 h'
      have hxy : x.1 = y.1 := by
        rcases Nat.lt_trichotomy x.1 y.1 with hlt | heq | hgt
        · have h1 := he x.1
          rw [Memory.read?_eq_none_of_lt (y :: m') x.1 (by
            intro z hz
            rcases List.mem_cons.1 hz with rfl | hz
            · exact hlt
            · exact lt_trans hlt (hy z hz))] at h1
          simp [Memory.read?] at h1
        · exact heq
        · have h1 := he y.1
          rw [Memory.read?_eq_none_of_lt (x :: m) y.1 (by
            intro z hz
            rcases List.mem_cons.1 hz with rfl | hz
            · exact hgt
            · exact lt_trans hgt (hx z hz))] at h1
          simp [Memory.read?] at h1
      have h2 : x.2 = y.2 := by
        have h1 := he x.1
        simpa [Memory.read?, hxy] using h1
      have hxy' : x = y := Prod.ext hxy h2
      subst hxy'
      congr 1
      refine ih m' hm hm' fun a => ?_
      by_cases ha : a = x.1
      · subst ha
        rw [Memory.read?_eq_none_of_lt m x.1 hx, Memory.read?_eq_none_of_lt m' x.1 hy]
      · have h1 := he a
        simpa [Memory.read?, ha] using h1

/-- `MemRead` of a defined container (`20_memory.md` R52). -/
theorem memRead_of_some (src : Memory (BitVec 16)) (i : Nat) (v : BitVec 16)
    (h : Memory.read? src i = some v) : memRead src i = .ok v.toNat := by
  unfold memRead
  rw [h]

/-- `MemRead` stops only on a container without a value (`70_reset_and_hazards.md` R272). -/
theorem memRead_error (src : Memory (BitVec 16)) (i : Nat) (e : Fault) (h : memRead src i = .error e) :
    e = .srcUndefined i ∧ Memory.read? src i = none := by
  unfold memRead at h
  split at h
  · next hn => exact ⟨by injection h with h; exact h.symm, hn⟩
  · cases h

end Sys2Proof.Machine
end

