-- ==== Sys2Proof/Laws/Pack.lean ====
section
/-! SUPPORT. Everything the common PACK sequence can do (`47_dispatch.md` R204): it ends in a fault of its
checks, stops on an undefined source container, or stores the packed bytes of the whole extent and
completes. -/

namespace Sys2Proof.Machine

/-- The pixel slots of group `g` of row `y`. -/
def groupSlots (f : WireFormat) (s : State) (y g : Nat) : List Pixel :=
  (List.range (descriptor f).groupPixels).map fun k =>
    pixelAt s (descriptor f).depth y (g * (descriptor f).groupPixels + k)

/-- The bytes of group `g` of row `y`. -/
def packedGroup (cfg : Config) (f : WireFormat) (s : State) (y g : Nat) : List Byte :=
  applyGroup cfg s.hostLe (descriptor f).group (groupSlots f s y g)

/-- Byte `k` of row `y` of the packed output. -/
def packedByte (cfg : Config) (f : WireFormat) (s : State) (y k : Nat) : Byte :=
  (packedGroup cfg f s y (k / (descriptor f).groupBytes)).getD (k % (descriptor f).groupBytes) 0

/-- The groups of the command in reference order. -/
def commandSeq (f : WireFormat) (s : State) : List Seq :=
  seqOrder (heightOf s) (groupsPerRow f (floorStride f (widthOf s)))

/-- The value the engine's read of container `i` for the byte at offset `o` returns (0 if it returns none). -/
def readValue (s : State) (o i : Nat) : Nat :=
  match engineRead s o i with
  | .ok v => v
  | .error _ => 0

/-- `px(y, x)` through the reads `v` of the engine (`47_dispatch.md` R208). -/
def pixelOf (v : Nat → Nat) (w d y x : Nat) : Pixel :=
  if x < w then
    { a := min (v (3 * (y * w + x))) (2 ^ d - 1)
      b := min (v (3 * (y * w + x) + 1)) (2 ^ d - 1)
      c := min (v (3 * (y * w + x) + 2)) (2 ^ d - 1) }
  else zeroPixel

/-- The pixel slots of a group through the reads `v`. -/
def slotsOf (v : Nat → Nat) (f : WireFormat) (w y g : Nat) : List Pixel :=
  (List.range (descriptor f).groupPixels).map fun k =>
    pixelOf v w (descriptor f).depth y (g * (descriptor f).groupPixels + k)

/-- Byte `t` of group `g` of row `y` from the engine's reads for it, whatever the host raced with. -/
def landedIn (cfg : Config) (f : WireFormat) (s : State) (y g t : Nat) : Byte :=
  (applyGroup cfg s.hostLe (descriptor f).group
    (slotsOf (readValue s (y * s.stride.toNat + g * (descriptor f).groupBytes + t)) f (widthOf s) y g)).getD t 0

/-- The byte the command makes for byte `k` of row `y`. -/
def landedByte (cfg : Config) (f : WireFormat) (s : State) (y k : Nat) : Byte :=
  landedIn cfg f s y (k / (descriptor f).groupBytes) (k % (descriptor f).groupBytes)

/-- The cells of group `q`. -/
def packedCells (cfg : Config) (f : WireFormat) (s : State) (q : Seq) : List Host.Cell :=
  cellsAt (q.row * s.stride.toNat + q.group * (descriptor f).groupBytes)
    ((List.range (descriptor f).groupBytes).map (landedIn cfg f s q.row q.group))

/-- All cells of the command. -/
def commandCells (cfg : Config) (f : WireFormat) (s : State) : List Host.Cell :=
  (commandSeq f s).flatMap (packedCells cfg f s)

theorem mem_seqOrder (rows groups : Nat) (q : Seq) :
    q ∈ seqOrder rows groups ↔ q.row < rows ∧ q.group < groups := by
  obtain ⟨y, g⟩ := q
  simp [seqOrder]

theorem groupBytes_pos (f : WireFormat) : 0 < (descriptor f).groupBytes := by
  cases f <;> simp [descriptor]

theorem packedGroup_length (cfg : Config) (f : WireFormat) (s : State) (y g : Nat) :
    (packedGroup cfg f s y g).length = (descriptor f).groupBytes := applyGroup_length _ _ _ _

theorem srcIndex_lt {w h y x c : Nat} (hy : y < h) (hx : x < w) (hc : c < 3) :
    3 * (y * w + x) + c < 3 * w * h := by
  have h1 : y * w + x < h * w := by
    calc y * w + x < y * w + w := by omega
      _ = (y + 1) * w := by ring
      _ ≤ h * w := Nat.mul_le_mul_right _ hy
  have h2 : 3 * w * h = 3 * (h * w) := by ring
  omega

/-- The pixel fetch of R208, through reads that answer. -/
theorem fetchPixel_ok (rd : Nat → Except Fault Nat) (v : Nat → Nat) (d w y x : Nat)
    (h : ∀ c, x < w → c < 3 → rd (3 * (y * w + x) + c) = .ok (v (3 * (y * w + x) + c))) :
    fetchPixel rd d w y x = .ok (pixelOf v w d y x) := by
  unfold fetchPixel pixelOf srcIndex fetchSample
  by_cases hx : x < w
  · rw [if_pos hx, if_pos hx, h 0 hx (by decide), h 1 hx (by decide), h 2 hx (by decide)]
    rfl
  · rw [if_neg hx, if_neg hx]

/-- The pixel fetch stops only where a read of its row does. -/
theorem fetchPixel_error (rd : Nat → Except Fault Nat) (d w y x : Nat) (e : Fault)
    (h : fetchPixel rd d w y x = .error e) :
    ∃ c, x < w ∧ c < 3 ∧ rd (3 * (y * w + x) + c) = .error e := by
  have hs : ∀ i, fetchSample rd d i = .error e → rd i = .error e := by
    intro i hi
    unfold fetchSample at hi
    split at hi
    · next he => rw [he]; exact hi
    · cases hi
  unfold fetchPixel at h
  split at h
  · next hx =>
    split at h
    · next he => injection h with h; subst h; exact ⟨0, hx, by decide, hs _ he⟩
    · split at h
      · next he => injection h with h; subst h; exact ⟨1, hx, by decide, hs _ he⟩
      · split at h
        · next he => injection h with h; subst h; exact ⟨2, hx, by decide, hs _ he⟩
        · cases h
  · cases h

/-- A pixel that was fetched had its three samples read. -/
theorem fetchPixel_reads (rd : Nat → Except Fault Nat) (d w y x : Nat) (p : Pixel)
    (h : fetchPixel rd d w y x = .ok p) (hx : x < w) (c : Nat) (hc : c < 3) :
    ∃ n, rd (3 * (y * w + x) + c) = .ok n := by
  cases hr : rd (3 * (y * w + x) + c) with
  | ok n => exact ⟨n, rfl⟩
  | error e =>
    unfold fetchPixel fetchSample srcIndex at h
    have : c = 0 ∨ c = 1 ∨ c = 2 := by omega
    rcases this with rfl | rfl | rfl
    · simp [hx] at h hr
      simp [hr] at h
    · simp [hx] at h hr
      cases h0 : rd (3 * (y * w + x)) <;> simp [h0, hr] at h
    · simp [hx] at h hr
      cases h0 : rd (3 * (y * w + x)) <;> simp [h0] at h
      cases h1 : rd (3 * (y * w + x) + 1) <;> simp [h1, hr] at h

/-- A group through reads that answer. -/
theorem fetchGroup_ok (rd : Nat → Except Fault Nat) (v : Nat → Nat) (f : WireFormat) (w : Nat) (q : Seq)
    (h : ∀ x c, x < w → c < 3 → rd (3 * (q.row * w + x) + c) = .ok (v (3 * (q.row * w + x) + c))) :
    fetchGroup rd f w q = .ok (slotsOf v f w q.row q.group) :=
  collect_of_ok _ _ _ fun _ _ => fetchPixel_ok rd v _ w _ _ fun c hx hc => h _ c hx hc

/-! The engine's reads -/

/-- A picked value is the newest or one of the others. -/
theorem pickValue_mem (n : Nat) (v : BitVec 16) (vs : List (BitVec 16)) : pickValue n v vs ∈ v :: vs := by
  cases vs with
  | nil => exact List.mem_cons_self
  | cons w ws =>
    have h : n % (ws.length + 2) < (v :: w :: ws).length := Nat.mod_lt _ (by simp)
    show (v :: w :: ws).getD (n % (ws.length + 2)) v ∈ _
    rw [List.getD_eq_getElem _ _ h]
    exact List.getElem_mem h

/-- The former values of a raced container are values that stand in the marks. -/
theorem racedValues_mem (rs : List (Nat × Option (BitVec 16))) (i : Nat) (vs : List (BitVec 16))
    (h : racedValues rs i = some vs) : ∀ v ∈ vs, (i, some v) ∈ rs := by
  induction rs generalizing vs with
  | nil =>
    injection h with h
    subst h
    exact fun _ hv => nomatch hv
  | cons r rs ih =>
    obtain ⟨j, old⟩ := r
    unfold racedValues at h
    split at h
    · next hji =>
      subst hji
      cases old with
      | none => simp at h
      | some w =>
        cases hr : racedValues rs j with
        | none => simp [hr] at h
        | some ws =>
          simp only [hr, Option.some.injEq] at h
          subst h
          intro v hv
          rcases List.mem_cons.1 hv with rfl | hv
          · exact List.mem_cons_self
          · exact List.mem_cons_of_mem _ (ih ws hr v hv)
    · exact fun v hv => List.mem_cons_of_mem _ (ih vs h v hv)

/-- There are no former values exactly when one of them was no value. -/
theorem racedValues_eq_none (rs : List (Nat × Option (BitVec 16))) (i : Nat) :
    racedValues rs i = none ↔ (i, none) ∈ rs := by
  induction rs with
  | nil => simp [racedValues]
  | cons r rs ih =>
    obtain ⟨j, old⟩ := r
    unfold racedValues
    by_cases hji : j = i
    · subst hji
      rw [if_pos rfl]
      cases old with
      | none => simp
      | some w =>
        cases hr : racedValues rs j with
        | none => simpa [hr] using ih.1 hr
        | some ws =>
          have : (j, none) ∉ rs := fun hm => by simp [ih.2 hm] at hr
          simp [this]
    · rw [if_neg hji, ih]
      simp [Ne.symm hji]

theorem racedValues_of_not_mem (rs : List (Nat × Option (BitVec 16))) (i : Nat) (h : ∀ x ∈ rs, x.1 ≠ i) :
    racedValues rs i = some [] := by
  induction rs with
  | nil => rfl
  | cons r rs ih =>
    obtain ⟨j, old⟩ := r
    unfold racedValues
    rw [if_neg (h _ List.mem_cons_self), ih fun x hx => h x (List.mem_cons_of_mem _ hx)]

/-- What an engine read of a container answers: one of the values it held since the launch (R268), or the stop
if it once held none (R272). -/
theorem engineRead_cases (s : State) (o i : Nat) :
    (∃ v, engineRead s o i = .ok v.toNat ∧ (Memory.read? s.src i).isSome = true ∧ (i, none) ∉ s.srcRaces ∧
      (Memory.read? s.src i = some v ∨ (i, some v) ∈ s.srcRaces)) ∨
    (engineRead s o i = .error (.srcUndefined i) ∧
      (Memory.read? s.src i = none ∨ (i, none) ∈ s.srcRaces)) := by
  unfold engineRead
  cases hm : Memory.read? s.src i with
  | none => exact .inr ⟨rfl, .inl rfl⟩
  | some v =>
    cases hr : racedValues s.srcRaces i with
    | none => exact .inr ⟨rfl, .inr ((racedValues_eq_none _ _).1 hr)⟩
    | some vs =>
      refine .inl ⟨_, rfl, rfl, fun hn => ?_, ?_⟩
      · rw [(racedValues_eq_none _ _).2 hn] at hr
        cases hr
      · rcases List.mem_cons.1 (pickValue_mem (Config.freePick s.choices o i) v vs) with h | h
        · exact .inl (by rw [h])
        · exact .inr (racedValues_mem _ _ _ hr _ h)

/-- A container the host did not write since the launch reads as what it holds. -/
theorem engineRead_unraced (s : State) (o i : Nat) (h : ∀ x ∈ s.srcRaces, x.1 ≠ i) :
    engineRead s o i = memRead s.src i := by
  unfold engineRead memRead
  rw [racedValues_of_not_mem _ _ h]
  cases Memory.read? s.src i <;> rfl

theorem readValue_unraced (s : State) (o i : Nat) (h : ∀ x ∈ s.srcRaces, x.1 ≠ i) :
    readValue s o i = sampleAt s i := by
  unfold readValue sampleAt
  rw [engineRead_unraced s o i h]
  unfold memRead
  cases Memory.read? s.src i <;> rfl

/-- A container that always held a value is read. -/
theorem engineRead_ok (s : State) (o i : Nat) (h : (Memory.read? s.src i).isSome = true)
    (hr : (i, none) ∉ s.srcRaces) : engineRead s o i = .ok (readValue s o i) := by
  unfold readValue
  rcases engineRead_cases s o i with ⟨v, hv, _⟩ | ⟨_, hn | hn⟩
  · rw [hv]
  · rw [hn] at h
    cases h
  · exact absurd hn hr

theorem readable_container (s : State) (h : PlaneReadable s) (i : Nat) (hi : i < 3 * widthOf s * heightOf s) :
    (Memory.read? s.src i).isSome = true ∧ (i, none) ∉ s.srcRaces :=
  ⟨h.1 i hi, fun hm => by simpa using h.2 _ hm hi⟩

/-- With no race on the source, a defined plane is a readable one. -/
theorem planeReadable_of_unraced (s : State) (hd : PlaneDefined s) (hr : s.srcRaces = []) : PlaneReadable s :=
  ⟨hd, by simp [hr]⟩

/-! Packing -/

/-- The bytes of a group of a readable plane, from the reads for one byte. -/
theorem packBytes_ok (cfg : Config) (f : WireFormat) (s : State) (h : PlaneReadable s) (q : Seq)
    (hq : q.row < heightOf s) (o : Nat) :
    packBytes cfg f (geometryOf f s) s q o = .ok (applyGroup cfg s.hostLe (descriptor f).group
      (slotsOf (readValue s o) f (widthOf s) q.row q.group)) := by
  unfold packBytes
  have hg : fetchGroup (engineRead s o) f (geometryOf f s).w q =
      .ok (slotsOf (readValue s o) f (widthOf s) q.row q.group) := by
    refine fetchGroup_ok _ _ f (widthOf s) q fun x c hx hc => ?_
    obtain ⟨h1, h2⟩ := readable_container s h _ (srcIndex_lt hq hx hc)
    exact engineRead_ok s o _ h1 h2
  rw [hg]

/-- The cells of a group of a readable plane. -/
theorem packGroup_ok (cfg : Config) (f : WireFormat) (s : State) (h : PlaneReadable s) (q : Seq)
    (hq : q.row < heightOf s) :
    packGroup cfg f (geometryOf f s) s q = .ok (q, packedCells cfg f s q) := by
  unfold packGroup packedCells
  have ho : groupOffset f (geometryOf f s) q =
      q.row * s.stride.toNat + q.group * (descriptor f).groupBytes := rfl
  cases hr : s.srcRaces with
  | nil =>
    simp only [packBytes_ok cfg f s h q hq, ho]
    refine congrArg (fun B => Except.ok (q, cellsAt _ B)) ?_
    have hv : ∀ o o', readValue s o = readValue s o' := fun o o' => by
      funext i
      rw [readValue_unraced s o i (by simp [hr]), readValue_unraced s o' i (by simp [hr])]
    apply List.ext_getElem
    · rw [applyGroup_length, List.length_map, List.length_range]
    · intro t h1 h2
      rw [List.getElem_map, List.getElem_range]
      unfold landedIn
      rw [hv (q.row * s.stride.toNat + q.group * (descriptor f).groupBytes + t)
        (q.row * s.stride.toNat + q.group * (descriptor f).groupBytes), List.getD_eq_getElem _ _ h1]
  | cons r rs =>
    have hb : collect (packByte cfg f (geometryOf f s) s q) (List.range (descriptor f).groupBytes) =
        .ok ((List.range (descriptor f).groupBytes).map (landedIn cfg f s q.row q.group)) :=
      collect_of_ok _ _ _ fun t _ => by
        unfold packByte
        rw [packBytes_ok cfg f s h q hq]
        rfl
    simp only [hb, ho]

theorem packGroups_ok (cfg : Config) (f : WireFormat) (s : State) (h : PlaneReadable s) :
    packGroups cfg f (geometryOf f s) s =
      .ok ((commandSeq f s).map fun q => (q, packedCells cfg f s q)) :=
  collect_of_ok _ _ _ fun q hq => packGroup_ok cfg f s h q ((mem_seqOrder _ _ _).1 hq).1

/-- The cells of a group stand at consecutive offsets from its own. -/
theorem packGroup_cells (cfg : Config) (f : WireFormat) (g : PackGeometry) (s : State) (q : Seq)
    (x : Seq × List Host.Cell) (h : packGroup cfg f g s q = .ok x) :
    ∃ B : List Byte, B.length = (descriptor f).groupBytes ∧ x.2 = cellsAt (groupOffset f g q) B := by
  unfold packGroup at h
  split at h
  · cases h
  · next B hB =>
    injection h with h
    subst h
    refine ⟨B, ?_, rfl⟩
    split at hB
    · unfold packBytes at hB
      split at hB
      · cases hB
      · injection hB with hB
        rw [← hB, applyGroup_length]
    · rw [← (collect_ok _ _ _ hB).length_eq, List.length_range]

/-- The bytes of a group stop only on a container of the plane that has, or had, no value. -/
theorem packBytes_error (cfg : Config) (f : WireFormat) (s : State) (q : Seq) (hq : q.row < heightOf s) (o : Nat)
    (e : Fault) (h : packBytes cfg f (geometryOf f s) s q o = .error e) :
    ∃ i, i < 3 * widthOf s * heightOf s ∧ e = .srcUndefined i ∧
      (Memory.read? s.src i = none ∨ (i, none) ∈ s.srcRaces) := by
  unfold packBytes at h
  split at h
  · next e' he =>
    injection h with h
    subst h
    obtain ⟨k, _, he⟩ := collect_error _ _ _ he
    obtain ⟨c, hx, hc, h1⟩ := fetchPixel_error _ _ _ _ _ _ he
    refine ⟨_, srcIndex_lt hq hx hc, ?_⟩
    rcases engineRead_cases s o _ with ⟨v, hv, _⟩ | ⟨hn, h2⟩
    · rw [hv] at h1
      cases h1
    · rw [hn] at h1
      injection h1 with h1
      exact ⟨h1.symm, h2⟩
  · cases h

/-- Packing stops only on a container of the plane that has, or had, no value (`70_reset_and_hazards.md`
R268, R272). -/
theorem packGroups_error (cfg : Config) (f : WireFormat) (s : State) (e : Fault)
    (h : packGroups cfg f (geometryOf f s) s = .error e) :
    ∃ i, i < 3 * widthOf s * heightOf s ∧ e = .srcUndefined i ∧
      (Memory.read? s.src i = none ∨ (i, none) ∈ s.srcRaces) := by
  obtain ⟨q, hq, h⟩ := collect_error _ _ _ h
  obtain ⟨hy, _⟩ := (mem_seqOrder _ _ _).1 hq
  unfold packGroup at h
  split at h
  · next e' he =>
    injection h with h
    subst h
    split at he
    · exact packBytes_error cfg f s q hy _ _ he
    · obtain ⟨t, _, he⟩ := collect_error _ _ _ he
      unfold packByte at he
      split at he
      · next e'' he' =>
        injection he with he
        subst he
        exact packBytes_error cfg f s q hy _ _ he'
      · cases he
  · cases h

/-- The groups of a row have a slot for every pixel (`47_dispatch.md` R209). -/
theorem pixel_group_lt (f : WireFormat) (w x : Nat) (hx : x < w) :
    x / (descriptor f).groupPixels < groupsPerRow f (floorStride f w) := by
  cases f <;> simp [groupsPerRow, floorStride, descriptor, ceilDiv] <;> omega

theorem groupPixels_pos (f : WireFormat) : 0 < (descriptor f).groupPixels := by
  cases f <;> simp [descriptor]

/-- Reads for some byte were answered in every group that was packed. -/
theorem packGroup_reads (cfg : Config) (f : WireFormat) (g : PackGeometry) (s : State) (q : Seq)
    (x : Seq × List Host.Cell) (h : packGroup cfg f g s q = .ok x) :
    ∃ o P, fetchGroup (engineRead s o) f g.w q = .ok P := by
  have hp : ∀ o B, packBytes cfg f g s q o = .ok B → ∃ o P, fetchGroup (engineRead s o) f g.w q = .ok P := by
    intro o B hB
    unfold packBytes at hB
    split at hB
    · cases hB
    · next P hP => exact ⟨o, P, hP⟩
  unfold packGroup at h
  split at h
  · cases h
  · next B hB =>
    split at hB
    · exact hp _ _ hB
    · obtain ⟨b, hb⟩ := collect_ok_mem _ _ _ hB 0 (List.mem_range.2 (groupBytes_pos f))
      unfold packByte at hb
      split at hb
      · cases hb
      · next B' hB' => exact hp _ _ hB'

/-- Packing answers only on a plane whose containers all have, and had, values (`70_reset_and_hazards.md`
R268, R272). -/
theorem planeReadable_of_packGroups (cfg : Config) (f : WireFormat) (s : State)
    (gs : List (Seq × List Host.Cell)) (h : packGroups cfg f (geometryOf f s) s = .ok gs) : PlaneReadable s := by
  have key : ∀ i, i < 3 * widthOf s * heightOf s →
      (Memory.read? s.src i).isSome = true ∧ (i, none) ∉ s.srcRaces := by
    intro i hi
    have hw : 0 < widthOf s := by
      rcases Nat.eq_zero_or_pos (widthOf s) with h0 | h0
      · rw [h0] at hi
        simp at hi
      · exact h0
    have h3 : i / 3 < heightOf s * widthOf s := by
      have : 3 * widthOf s * heightOf s = 3 * (heightOf s * widthOf s) := by ring
      omega
    have hy : i / 3 / widthOf s < heightOf s := (Nat.div_lt_iff_lt_mul hw).2 h3
    have hx : i / 3 % widthOf s < widthOf s := Nat.mod_lt _ hw
    have hgp := groupPixels_pos f
    obtain ⟨b, hb⟩ := collect_ok_mem _ _ _ h
      ⟨i / 3 / widthOf s, i / 3 % widthOf s / (descriptor f).groupPixels⟩
      ((mem_seqOrder _ _ _).2 ⟨hy, pixel_group_lt f _ _ hx⟩)
    obtain ⟨o, P, hP⟩ := packGroup_reads _ _ _ _ _ _ hb
    obtain ⟨p, hp⟩ := collect_ok_mem _ _ _ hP (i / 3 % widthOf s % (descriptor f).groupPixels)
      (List.mem_range.2 (Nat.mod_lt _ hgp))
    have he : i / 3 % widthOf s / (descriptor f).groupPixels * (descriptor f).groupPixels +
        i / 3 % widthOf s % (descriptor f).groupPixels = i / 3 % widthOf s := Nat.div_add_mod' _ _
    simp only [geometryOf, he] at hp
    obtain ⟨n, hn⟩ := fetchPixel_reads _ _ _ _ _ _ hp hx (i % 3) (Nat.mod_lt _ (by decide))
    rw [show i / 3 / widthOf s * widthOf s + i / 3 % widthOf s = i / 3 from Nat.div_add_mod' _ _,
      show 3 * (i / 3) + i % 3 = i by omega] at hn
    rcases engineRead_cases s o i with ⟨v, _, h1, h2, _⟩ | ⟨h1, _⟩
    · exact ⟨h1, h2⟩
    · rw [h1] at hn
      cases hn
  refine ⟨fun i hi => (key i hi).1, fun x hx hlt => ?_⟩
  obtain ⟨i, old⟩ := x
  cases old with
  | none => exact absurd hx (key i hlt).2
  | some v => rfl

theorem closeRace_of_unraced (s : State) (h : Unraced s) : closeRace s = s := by
  unfold closeRace
  rw [if_pos (by simp [h.1, h.2])]

theorem cellLands_congr (s t : State) (h1 : s.dstRaces = t.dstRaces) (h2 : s.choices = t.choices) :
    cellLands s = cellLands t := by
  funext x
  unfold cellLands
  rw [h1, h2]

/-- A byte the host did not write while it was lent takes the command's value. -/
theorem cellLands_of_not_mem (s : State) (x : Host.Cell) (h : x.1 ∉ s.dstRaces) : cellLands s x = true := by
  unfold cellLands
  simp [h]

/-- Storing the groups one after another is one list of writes, whatever the sequencer held. -/
theorem foldl_storeGroup (gs : List (Seq × List Host.Cell)) (s : State) (v : Nat) :
    completeOk v (closeRace (gs.foldl storeGroup s)) =
      completeOk v (closeRace
        (setDst (Memory.writeAll s.dst ((gs.flatMap Prod.snd).filter (cellLands s))) s)) := by
  induction gs generalizing s with
  | nil => rfl
  | cons x gs ih =>
    rw [List.foldl_cons, ih, cellLands_congr (storeGroup s x) s rfl rfl, List.flatMap_cons, List.filter_append,
      Memory.writeAll_append]
    unfold closeRace storeGroup
    cases hr : (s.srcRaces.isEmpty && s.dstRaces.isEmpty) <;> simp [hr, completeOk, nextChoice, setDst, setSeq]

/-- The state a PACK leaves when it completes: its bytes stored, but where the host's byte survives a race, and
success. -/
def packedState (cfg : Config) (f : WireFormat) (s : State) : State :=
  completeOk (floorStride f (widthOf s)) (closeRace
    (setDst (Memory.writeAll s.dst ((commandCells cfg f s).filter (cellLands s))) s))

/-- An accepted PACK on a readable plane completes (R204, R211). -/
theorem packCommand_next (cfg : Config) (f : WireFormat) (s : State)
    (ha : PackAccepted (floorStride f (widthOf s)) (descriptor f).rowAlign s) (hd : PlaneReadable s) :
    packCommand cfg f s = .next (packedState cfg f s) := by
  unfold packCommand
  simp only [(packCheck_ok_iff f s _).2 ⟨ha, rfl⟩, packGroups_ok cfg f s hd]
  rw [foldl_storeGroup, List.flatMap_map]
  rfl

/-- The configuration reaches a PACK through its group function alone (`00_scope.md` R10). -/
theorem packCommand_congr (cfg cfg' : Config) (f : WireFormat)
    (h : ∀ hostLe P, applyGroup cfg hostLe (descriptor f).group P = applyGroup cfg' hostLe (descriptor f).group P)
    (s : State) : packCommand cfg f s = packCommand cfg' f s := by
  have hb : packBytes cfg f = packBytes cfg' f := by
    funext g s q o
    unfold packBytes
    simp only [h]
  have hg : packGroups cfg f = packGroups cfg' f := by
    funext g s
    unfold packGroups packGroup packByte
    rw [hb]
  unfold packCommand
  rw [hg]

/-- What a PACK answers, in every case. -/
theorem packCommand_cases (cfg : Config) (f : WireFormat) (s : State) :
    (∃ e, packCheck f s = .error e ∧ packCommand cfg f s = .next (raiseFault e s)) ∨
    (∃ i, PackAccepted (floorStride f (widthOf s)) (descriptor f).rowAlign s ∧
      i < 3 * widthOf s * heightOf s ∧ (Memory.read? s.src i = none ∨ (i, none) ∈ s.srcRaces) ∧
      packCommand cfg f s = .fault (.srcUndefined i)) ∨
    (PackAccepted (floorStride f (widthOf s)) (descriptor f).rowAlign s ∧ PlaneReadable s ∧
      packCommand cfg f s = .next (packedState cfg f s)) := by
  cases h : packCheck f s with
  | error e =>
    refine .inl ⟨e, rfl, ?_⟩
    unfold packCommand
    rw [h]
  | ok g =>
    obtain ⟨ha, rfl⟩ := (packCheck_ok_iff f s g).1 h
    cases hg : packGroups cfg f (geometryOf f s) s with
    | error e =>
      obtain ⟨i, hi, rfl, hn⟩ := packGroups_error cfg f s e hg
      refine .inr (.inl ⟨i, ha, hi, hn, ?_⟩)
      unfold packCommand
      simp only [h, hg]
    | ok groups =>
      have hd := planeReadable_of_packGroups cfg f s groups hg
      exact .inr (.inr ⟨ha, hd, packCommand_next cfg f s ha hd⟩)

/-- A completed PACK leaves every register and field but its results as it was. -/
theorem packedState_fields (cfg : Config) (f : WireFormat) (s : State) :
    packedState cfg f s = { s with
      result := BitVec.ofNat 32 (floorStride f (widthOf s)), errInfo := 0, status := statusDone 0, seq := none
      dst := Memory.writeAll s.dst ((commandCells cfg f s).filter (cellLands s))
      choices := if s.srcRaces.isEmpty && s.dstRaces.isEmpty then s.choices else s.choices + 1 } := by
  unfold packedState closeRace
  cases hr : (s.srcRaces.isEmpty && s.dstRaces.isEmpty) <;> simp [hr, completeOk, nextChoice, setDst]

/-- Which cells a command makes: byte `k` of row `y` of the extent, at its offset (`20_memory.md` R62). -/
theorem mem_commandCells (cfg : Config) (f : WireFormat) (s : State) (x : Host.Cell) :
    x ∈ commandCells cfg f s ↔
      ∃ y k, y < heightOf s ∧ k < floorStride f (widthOf s) ∧
        x = (y * s.stride.toNat + k, landedByte cfg f s y k) := by
  have hb := groupBytes_pos f
  have hmul := groupsPerRow_mul f (widthOf s)
  unfold commandCells
  rw [List.mem_flatMap]
  constructor
  · rintro ⟨q, hq, hx⟩
    obtain ⟨hy, hg⟩ := (mem_seqOrder _ _ _).1 hq
    obtain ⟨t, ht, rfl⟩ := (mem_cellsAt _ _ _).1 hx
    have ht' : t < (descriptor f).groupBytes := by simpa using ht
    refine ⟨q.row, q.group * (descriptor f).groupBytes + t, hy, ?_, ?_⟩
    · rw [← hmul]
      calc q.group * (descriptor f).groupBytes + t
          < q.group * (descriptor f).groupBytes + (descriptor f).groupBytes := by omega
        _ = (q.group + 1) * (descriptor f).groupBytes := by ring
        _ ≤ _ := Nat.mul_le_mul_right _ hg
    · have hdiv : (q.group * (descriptor f).groupBytes + t) / (descriptor f).groupBytes = q.group := by
        rw [Nat.add_comm, Nat.add_mul_div_right _ _ hb, Nat.div_eq_of_lt ht', Nat.zero_add]
      have hmod : (q.group * (descriptor f).groupBytes + t) % (descriptor f).groupBytes = t := by
        rw [Nat.add_comm, Nat.add_mul_mod_self_right, Nat.mod_eq_of_lt ht']
      unfold landedByte
      rw [hdiv, hmod, Nat.add_assoc]
      simp
  · rintro ⟨y, k, hy, hk, rfl⟩
    refine ⟨⟨y, k / (descriptor f).groupBytes⟩, (mem_seqOrder _ _ _).2 ⟨hy, ?_⟩, (mem_cellsAt _ _ _).2 ?_⟩
    · rw [← hmul] at hk
      exact (Nat.div_lt_iff_lt_mul hb).2 hk
    · refine ⟨k % (descriptor f).groupBytes, by simpa using Nat.mod_lt _ hb, ?_⟩
      have hdm : k / (descriptor f).groupBytes * (descriptor f).groupBytes + k % (descriptor f).groupBytes = k :=
        Nat.div_add_mod' k _
      unfold landedByte
      refine Prod.ext ?_ (by simp)
      show y * s.stride.toNat + k =
        y * s.stride.toNat + k / (descriptor f).groupBytes * (descriptor f).groupBytes +
          k % (descriptor f).groupBytes
      omega

/-- A byte whose group's containers the host did not write is the packed byte of what they hold. -/
theorem landedByte_eq_packedByte (cfg : Config) (f : WireFormat) (s : State) (y k : Nat)
    (h : ∀ x ∈ s.srcRaces, ∀ j c, j < (descriptor f).groupPixels → c < 3 →
      x.1 ≠ srcIndex (widthOf s) y (k / (descriptor f).groupBytes * (descriptor f).groupPixels + j) c) :
    landedByte cfg f s y k = packedByte cfg f s y k := by
  unfold landedByte landedIn packedByte packedGroup
  refine congrArg (fun P => (applyGroup cfg s.hostLe (descriptor f).group P).getD _ 0) ?_
  refine List.map_congr_left fun j hj => ?_
  have hj := List.mem_range.1 hj
  have hv : ∀ o c, c < 3 → readValue s o (3 * (y * widthOf s +
      (k / (descriptor f).groupBytes * (descriptor f).groupPixels + j)) + c) = sampleAt s (3 * (y * widthOf s +
      (k / (descriptor f).groupBytes * (descriptor f).groupPixels + j)) + c) :=
    fun o c hc => readValue_unraced s o _ fun x hx => h x hx j c hj hc
  unfold pixelOf pixelAt
  rw [hv _ 1 (by decide), hv _ 2 (by decide), show ∀ n, readValue s n (3 * (y * widthOf s +
      (k / (descriptor f).groupBytes * (descriptor f).groupPixels + j))) = sampleAt s (3 * (y * widthOf s +
      (k / (descriptor f).groupBytes * (descriptor f).groupPixels + j))) from fun n => hv n 0 (by decide)]

theorem landedByte_unraced (cfg : Config) (f : WireFormat) (s : State) (h : s.srcRaces = []) (y k : Nat) :
    landedByte cfg f s y k = packedByte cfg f s y k :=
  landedByte_eq_packedByte cfg f s y k (by simp [h])

/-- Row and byte of an offset of the extent are its quotient and remainder by the stride. -/
theorem extent_unique {st fs y k y' k' : Nat} (hst : fs ≤ st) (hk : k < fs) (hk' : k' < fs)
    (h : y * st + k = y' * st + k') : y = y' ∧ k = k' := by
  have hpos : 0 < st := by omega
  have e : ∀ a b, b < st → (a * st + b) / st = a ∧ (a * st + b) % st = b := by
    intro a b hb
    constructor
    · rw [Nat.add_comm, Nat.add_mul_div_right _ _ hpos, Nat.div_eq_of_lt hb, Nat.zero_add]
    · rw [Nat.add_comm, Nat.add_mul_mod_self_right, Nat.mod_eq_of_lt hb]
  obtain ⟨h1, h2⟩ := e y k (by omega)
  obtain ⟨h3, h4⟩ := e y' k' (by omega)
  rw [h] at h1 h2
  exact ⟨h1.symm.trans h3, h2.symm.trans h4⟩

theorem packedState_dst (cfg : Config) (f : WireFormat) (s : State) :
    (packedState cfg f s).dst = Memory.writeAll s.dst ((commandCells cfg f s).filter (cellLands s)) := by
  rw [packedState_fields]

/-- After a PACK, a byte of its extent that the host did not write while it was lent is the command's. -/
theorem packedState_read_landed (cfg : Config) (f : WireFormat) (s : State)
    (hst : floorStride f (widthOf s) ≤ s.stride.toNat) (y k : Nat) (hy : y < heightOf s)
    (hk : k < floorStride f (widthOf s)) (hr : y * s.stride.toNat + k ∉ s.dstRaces) :
    Memory.read? (packedState cfg f s).dst (y * s.stride.toNat + k) = some (landedByte cfg f s y k) := by
  rw [packedState_dst]
  apply Memory.read?_writeAll_mem
  · exact List.mem_filter.2 ⟨(mem_commandCells _ _ _ _).2 ⟨y, k, hy, hk, rfl⟩, cellLands_of_not_mem _ _ hr⟩
  · intro x hx hxo
    obtain ⟨y', k', hy', hk', rfl⟩ := (mem_commandCells _ _ _ _).1 (List.mem_filter.1 hx).1
    obtain ⟨rfl, rfl⟩ := extent_unique hst hk' hk hxo
    rfl

/-- After a PACK, a byte of its extent is the command's or, if the host wrote it while it was lent, the host's
(`70_reset_and_hazards.md` R267). -/
theorem packedState_read_cases (cfg : Config) (f : WireFormat) (s : State)
    (hst : floorStride f (widthOf s) ≤ s.stride.toNat) (y k : Nat) (hy : y < heightOf s)
    (hk : k < floorStride f (widthOf s)) :
    Memory.read? (packedState cfg f s).dst (y * s.stride.toNat + k) = some (landedByte cfg f s y k) ∨
    (y * s.stride.toNat + k ∈ s.dstRaces ∧ Memory.read? (packedState cfg f s).dst (y * s.stride.toNat + k) =
      Memory.read? s.dst (y * s.stride.toNat + k)) := by
  by_cases hr : y * s.stride.toNat + k ∈ s.dstRaces
  · rw [packedState_dst]
    rcases Memory.read?_writeAll_cases ((commandCells cfg f s).filter (cellLands s)) s.dst
      (y * s.stride.toNat + k) with h | ⟨x, hx, hxo, h⟩
    · exact .inr ⟨hr, h⟩
    · obtain ⟨y', k', hy', hk', rfl⟩ := (mem_commandCells _ _ _ _).1 (List.mem_filter.1 hx).1
      obtain ⟨rfl, rfl⟩ := extent_unique hst hk' hk hxo
      exact .inl h
  · exact .inl (packedState_read_landed cfg f s hst y k hy hk hr)

/-- After a PACK whose host kept its duties, byte `k < floor stride` of every row holds the packed byte
(`47_dispatch.md` R213). -/
theorem packedState_read_extent (cfg : Config) (f : WireFormat) (s : State) (hr : Unraced s)
    (hst : floorStride f (widthOf s) ≤ s.stride.toNat) (y k : Nat) (hy : y < heightOf s)
    (hk : k < floorStride f (widthOf s)) :
    Memory.read? (packedState cfg f s).dst (y * s.stride.toNat + k) = some (packedByte cfg f s y k) := by
  rw [packedState_read_landed cfg f s hst y k hy hk (by simp [hr.2]), landedByte_unraced cfg f s hr.1]

/-- Byte `m` of group `g` lies in the extent. -/
theorem group_byte_lt (f : WireFormat) (w g m : Nat) (hg : g < groupsPerRow f (floorStride f w))
    (hm : m < (descriptor f).groupBytes) : g * (descriptor f).groupBytes + m < floorStride f w := by
  calc g * (descriptor f).groupBytes + m < g * (descriptor f).groupBytes + (descriptor f).groupBytes := by omega
    _ = (g + 1) * (descriptor f).groupBytes := by ring
    _ ≤ groupsPerRow f (floorStride f w) * (descriptor f).groupBytes := Nat.mul_le_mul_right _ hg
    _ = _ := groupsPerRow_mul f w

/-- After a PACK whose host kept its duties, byte `m` of group `g` of every row holds the group's byte. -/
theorem packedState_read_group (cfg : Config) (f : WireFormat) (s : State) (hr : Unraced s)
    (hst : floorStride f (widthOf s) ≤ s.stride.toNat) (y g m : Nat) (hy : y < heightOf s)
    (hg : g < groupsPerRow f (floorStride f (widthOf s))) (hm : m < (descriptor f).groupBytes) :
    Memory.read? (packedState cfg f s).dst (y * s.stride.toNat + (g * (descriptor f).groupBytes + m)) =
      some ((packedGroup cfg f s y g).getD m 0) := by
  have hb := groupBytes_pos f
  rw [packedState_read_extent cfg f s hr hst y _ hy (group_byte_lt f _ g m hg hm)]
  unfold packedByte
  rw [Nat.add_comm (g * _) m, Nat.add_mul_div_right _ _ hb, Nat.div_eq_of_lt hm, Nat.zero_add,
    Nat.add_mul_mod_self_right, Nat.mod_eq_of_lt hm]

/-- The components of a fetched pixel fit the clamp depth (`47_dispatch.md` R208). -/
theorem pixelAt_fits (s : State) (d y x : Nat) : (pixelAt s d y x).fits d := by
  have h : 0 < 2 ^ d := Nat.two_pow_pos d
  unfold pixelAt Pixel.fits
  split
  · exact ⟨by show min _ _ < _; omega, by show min _ _ < _; omega, by show min _ _ < _; omega⟩
  · exact ⟨h, h, h⟩

/-- A slot at or beyond the width is the zero pixel (R208). -/
theorem pixelAt_unused (s : State) (d y x : Nat) (h : widthOf s ≤ x) : pixelAt s d y x = zeroPixel := by
  unfold pixelAt
  rw [if_neg (by omega)]

/-- Outside the write extent nothing changes, raced or not (`20_memory.md` R62). -/
theorem packedState_read_outside (cfg : Config) (f : WireFormat) (s : State) (o : Nat)
    (h : ¬ InExtent (heightOf s) s.stride.toNat (floorStride f (widthOf s)) o) :
    Memory.read? (packedState cfg f s).dst o = Memory.read? s.dst o := by
  rw [packedState_dst]
  apply Memory.read?_writeAll_other
  intro x hx hxo
  obtain ⟨y, k, hy, hk, rfl⟩ := (mem_commandCells _ _ _ _).1 (List.mem_filter.1 hx).1
  exact h ⟨y, k, hy, hk, hxo.symm⟩

/-- A PACK changes only what R62 and R212 name, and the model's counter. -/
theorem packedState_succeeded (cfg : Config) (f : WireFormat) (s : State) :
    packedState cfg f s = { succeeded (floorStride f (widthOf s)) (setDst (packedState cfg f s).dst s) with
      choices := (packedState cfg f s).choices } := by
  rw [packedState_fields]
  rfl

theorem packedState_choices (cfg : Config) (f : WireFormat) (s : State) (hr : Unraced s) :
    (packedState cfg f s).choices = s.choices := by
  rw [packedState_fields]
  simp [hr.1, hr.2]

/-- A PACK whose host kept its duties changes only what R62 and R212 name. -/
theorem packedState_eq (cfg : Config) (f : WireFormat) (s : State) (hr : Unraced s) :
    packedState cfg f s =
      succeeded (floorStride f (widthOf s)) (setDst (packedState cfg f s).dst s) := by
  rw [packedState_succeeded, packedState_choices cfg f s hr]
  rfl

end Sys2Proof.Machine
end

