-- ==== Sys2Proof/Laws/Exec.lean ====
section
/-! SUPPORT. What a command can answer, what the engine's turn can answer, and what a step can answer. -/

namespace Sys2Proof.Machine

/-- The faults the checks of GEOM and PACK commands raise (`60_exceptions.md` R234, R235). -/
def CheckFault (e : CommandFault) : Prop :=
  (∃ g, e = .malformedGeometry g) ∨ ∃ n, 0 < n ∧ n < 2 ^ 32 ∧ e = .bufferTooSmall n

theorem geomCheck_fault (f : WireFormat) (s : State) (e : CommandFault) (h : geomCheck f s = .error e) :
    CheckFault e := by
  rcases geomCheck_cases f s with h1 | h1 | h1
  · rw [h1.2] at h; injection h with h; exact .inl ⟨_, h.symm⟩
  · rw [h1.2.2] at h; injection h with h; exact .inl ⟨_, h.symm⟩
  · rw [h1.2.2] at h; cases h

theorem packCheck_fault (f : WireFormat) (s : State) (e : CommandFault) (h : packCheck f s = .error e) :
    CheckFault e := by
  rcases packCheck_cases f s with h1 | h1 | h1 | h1 | h1 | h1 | h1
  · rw [h1.2] at h; injection h with h; exact .inl ⟨_, h.symm⟩
  · rw [h1.2.2] at h; injection h with h; exact .inl ⟨_, h.symm⟩
  · rw [h1.2.2.2] at h; injection h with h; exact .inl ⟨_, h.symm⟩
  · rw [h1.2.2.2.2] at h; injection h with h; exact .inl ⟨_, h.symm⟩
  · rw [h1.2.2.2.2.2] at h; injection h with h; exact .inl ⟨_, h.symm⟩
  · have hlt := h1.2.2.2.2.2.1
    rw [h1.2.2.2.2.2.2] at h
    injection h with h
    exact .inr ⟨_, by omega, by omega, h.symm⟩
  · rw [h1.2] at h; cases h

/-- Every command but a PACK is a success that touches no memory, or a fault of its checks. -/
theorem geomCommand_cases (f : WireFormat) (s : State) :
    (∃ v, geomCommand f s = .next (completeOk v s)) ∨
    (∃ e, CheckFault e ∧ geomCommand f s = .next (raiseFault e s)) := by
  rcases geomCommand_next f s with ⟨e, h, he⟩ | ⟨fs, _, he⟩
  · exact .inr ⟨e, geomCheck_fault f s e h, he⟩
  · exact .inl ⟨fs, he⟩

/-- `exec` is `execWith` at the default configuration (`00_scope.md` R10). -/
theorem execWith_default : execWith defaultConfig = exec := by
  funext i s
  cases i <;> rfl

/-- A PACK command's meaning is the common sequence. -/
theorem execWith_of_packFormatOf (cfg : Config) (i : Instr) (f : WireFormat) (h : packFormatOf i = some f)
    (s : State) : execWith cfg i s = packCommand cfg f s := by
  cases i <;> simp only [packFormatOf, Option.some.injEq, reduceCtorEq] at h <;> subst h <;> rfl

theorem exec_of_packFormatOf (i : Instr) (f : WireFormat) (h : packFormatOf i = some f) (s : State) :
    exec i s = packCommand defaultConfig f s := by
  rw [← execWith_default]
  exact execWith_of_packFormatOf _ i f h s

/-- No other command depends on the configuration. -/
theorem execWith_of_no_pack (cfg : Config) (i : Instr) (h : packFormatOf i = none) (s : State) :
    execWith cfg i s = exec i s := by
  cases i <;> simp only [packFormatOf, reduceCtorEq] at h <;> rfl

/-- What a command can answer, in a block of any configuration. -/
theorem execWith_cases (cfg : Config) (i : Instr) (s : State) :
    (∃ v, packFormatOf i = none ∧ execWith cfg i s = .next (completeOk v s)) ∨
    (∃ e, CheckFault e ∧ execWith cfg i s = .next (raiseFault e s)) ∨
    (∃ f n, packFormatOf i = some f ∧ PackAccepted (floorStride f (widthOf s)) (descriptor f).rowAlign s ∧
      n < 3 * widthOf s * heightOf s ∧ (Memory.read? s.src n = none ∨ (n, none) ∈ s.srcRaces) ∧
      execWith cfg i s = .fault (.srcUndefined n)) ∨
    (∃ f, packFormatOf i = some f ∧ PackAccepted (floorStride f (widthOf s)) (descriptor f).rowAlign s ∧
      PlaneReadable s ∧ execWith cfg i s = .next (packedState cfg f s)) := by
  cases hp : packFormatOf i with
  | none =>
    cases i <;> simp only [packFormatOf, reduceCtorEq] at hp
    case clamp8 v => exact .inl ⟨_, rfl, rfl⟩
    case clamp10 v => exact .inl ⟨_, rfl, rfl⟩
    case clamp12 v => exact .inl ⟨_, rfl, rfl⟩
    all_goals
      rcases geomCommand_cases _ s with ⟨v, h⟩ | ⟨e, he, h⟩
      · exact .inl ⟨v, rfl, h⟩
      · exact .inr (.inl ⟨e, he, h⟩)
  | some f =>
    rw [execWith_of_packFormatOf cfg i f hp]
    rcases packCommand_cases cfg f s with ⟨e, hc, h⟩ | ⟨n, ha, hn, hr, h⟩ | ⟨ha, hd, h⟩
    · exact .inr (.inl ⟨e, packCheck_fault f s e hc, h⟩)
    · exact .inr (.inr (.inl ⟨f, n, rfl, ha, hn, hr, h⟩))
    · exact .inr (.inr (.inr ⟨f, rfl, ha, hd, h⟩))

/-- What a command can answer. -/
theorem exec_cases (i : Instr) (s : State) :
    (∃ v, packFormatOf i = none ∧ exec i s = .next (completeOk v s)) ∨
    (∃ e, CheckFault e ∧ exec i s = .next (raiseFault e s)) ∨
    (∃ f n, packFormatOf i = some f ∧ PackAccepted (floorStride f (widthOf s)) (descriptor f).rowAlign s ∧
      n < 3 * widthOf s * heightOf s ∧ (Memory.read? s.src n = none ∨ (n, none) ∈ s.srcRaces) ∧
      exec i s = .fault (.srcUndefined n)) ∨
    (∃ f, packFormatOf i = some f ∧ PackAccepted (floorStride f (widthOf s)) (descriptor f).rowAlign s ∧
      PlaneReadable s ∧ exec i s = .next (packedState defaultConfig f s)) := by
  rw [← execWith_default]
  exact execWith_cases defaultConfig i s

/-- The engine's turn: idle, the launched command, or fault entry for a word that is none. -/
theorem engineTurn_cases (run : Instr → State → Host.Outcome State Fault Refusal) (s : State) :
    (engineActive s = false ∧ engineTurn run s = .next s) ∨
    (∃ i, engineActive s = true ∧ decode s.cmd = .ok i ∧ engineTurn run s = run i s) ∨
    (∃ e, engineActive s = true ∧ decode s.cmd = .error e ∧ engineTurn run s = .next (raiseFault e s)) := by
  unfold engineTurn fetchCommand
  cases h : engineActive s with
  | false => exact .inl ⟨rfl, rfl⟩
  | true =>
    cases hd : decode s.cmd with
    | ok i => exact .inr (.inl ⟨i, rfl, rfl, rfl⟩)
    | error e => exact .inr (.inr ⟨e, rfl, rfl, rfl⟩)

/-- The step is that of the default configuration (`00_scope.md` R10). -/
theorem stepWith_default : stepWith defaultConfig = step := by
  funext s
  unfold stepWith step
  rw [execWith_default]

/-- A step is the engine's turn or one action of the host. -/
theorem stepBy_cases (cfg : Config) (run : Instr → State → Host.Outcome State Fault Refusal) (s : State) :
    (∃ rest, EnginesTurn s rest ∧ stepBy cfg run s = engineTurn run (setAgenda rest s)) ∨
    (∃ a rest, s.agenda = a :: rest ∧ a ≠ .engine ∧ stepBy cfg run s = hostAct cfg a (setAgenda rest s)) := by
  unfold stepBy EnginesTurn
  cases h : s.agenda with
  | nil =>
    refine .inl ⟨[], .inl ⟨rfl, rfl⟩, ?_⟩
    have : setAgenda [] s = s := by
      unfold setAgenda
      rw [← h]
    rw [this]
  | cons a rest =>
    cases a
    case engine => exact .inl ⟨rest, .inr rfl, rfl⟩
    all_goals exact .inr ⟨_, rest, rfl, by simp, rfl⟩

theorem step_cases (s : State) :
    (∃ rest, EnginesTurn s rest ∧ step s = engineTurn exec (setAgenda rest s)) ∨
    (∃ a rest, s.agenda = a :: rest ∧ a ≠ .engine ∧ step s = hostAct defaultConfig a (setAgenda rest s)) :=
  stepBy_cases defaultConfig exec s

/-- On the engine's turn a step is the engine's turn. -/
theorem step_of_enginesTurn (s : State) (rest : List HostAction) (h : EnginesTurn s rest) :
    step s = engineTurn exec (setAgenda rest s) := by
  unfold step stepBy
  rcases h with ⟨h, rfl⟩ | h
  · have : setAgenda [] s = s := by
      unfold setAgenda
      rw [← h]
    rw [h, this]
  · rw [h]

end Sys2Proof.Machine
end

