-- ==== Sys2Proof/Laws/Host.lean ====
section
/-! SUPPORT. What each action of the host can answer (`70_reset_and_hazards.md` R260 to R272). -/

namespace Sys2Proof.Machine

theorem regAccess_ok (offset bits : Nat) (s : State) (r : Reg) (h : regAccess offset bits s = .ok r) :
    s.resetLine = false ∧ Reg.ofAccess offset bits = some r := by
  unfold regAccess at h
  cases hr : s.resetLine
  · rw [hr, if_neg (by decide)] at h
    cases ha : Reg.ofAccess offset bits with
    | none => simp [ha] at h
    | some r' =>
      rw [ha] at h
      injection h with h
      exact ⟨rfl, by rw [h]⟩
  · rw [hr, if_pos rfl] at h
    cases h

theorem regAccess_of_offset (r : Reg) (s : State) (h : s.resetLine = false) :
    regAccess r.offset 32 s = .ok r := by
  unfold regAccess
  rw [if_neg (by simp [h])]
  cases r <;> rfl

/-- On a host action a step is that action. -/
theorem step_of_host (s : State) (a : HostAction) (rest : List HostAction) (h : s.agenda = a :: rest)
    (ha : a ≠ .engine) : step s = hostAct defaultConfig a (setAgenda rest s) := by
  unfold step stepBy
  rw [h]
  cases a <;> first | rfl | exact absurd rfl ha

/-- A whole, aligned write reaches its register outside reset (`10_state.md` R21). -/
theorem hostWriteReg_of_offset (r : Reg) (v : Word) (s : State) (h : s.resetLine = false) :
    hostWriteReg r.offset 32 v s = .next (acceptWrite r v s) := by
  unfold hostWriteReg
  rw [regAccess_of_offset r s h]

/-- A whole, aligned read reaches its register outside reset (R21, R32). -/
theorem hostReadReg_of_offset (r : Reg) (s : State) (h : s.resetLine = false) :
    hostReadReg r.offset 32 s = .next (setRdata (readReg r s) (hostSaw r s)) := by
  unfold hostReadReg
  rw [regAccess_of_offset r s h]

/-- A register write while BUSY is ignored (`10_state.md` R26, R32). -/
theorem writeReg_busy (r : Reg) (v : Word) (s : State) (h : s.busy = true) : writeReg r v s = s := by
  unfold writeReg
  rw [if_pos h]

/-- A register write while not BUSY launches, stores an operand, or is ignored (R26, R21, R22). -/
theorem writeReg_idle (r : Reg) (v : Word) (s : State) (h : s.busy = false) :
    writeReg r v s = match r with
      | .cmd => launch v s
      | .width => { s with width := v }
      | .height => { s with height := v }
      | .stride => { s with stride := v }
      | .dstLen => { s with dstLen := v }
      | .status => s
      | .result => s
      | .errInfo => s
      | .cfg => s := by
  unfold writeReg
  cases r <;> exact if_neg (by simp [h])

/-- What lending does (`70_reset_and_hazards.md` R270): nothing, or the running PACK's destination is lent. -/
theorem lend_cases (s : State) :
    (runningLoan s = none ∧ lend s = s) ∨ ∃ l, runningLoan s = some l ∧ lend s = addLoan l s := by
  unfold lend
  cases h : runningLoan s with
  | none => exact .inl ⟨rfl, rfl⟩
  | some l => exact .inr ⟨l, rfl, rfl⟩

@[simp] theorem runningLoan_addLoan (l : Loan) (s : State) : runningLoan (addLoan l s) = runningLoan s := rfl

/-- After lending, the running PACK's destination is lent. -/
theorem mem_lend (s : State) (l : Loan) (h : runningLoan (lend s) = some l) : l ∈ (lend s).lent := by
  rcases lend_cases s with ⟨hn, he⟩ | ⟨l', hl, he⟩
  · rw [he, hn] at h
    cases h
  · rw [he, runningLoan_addLoan, hl] at h
    injection h with h
    rw [he, addLoan_lent, h]
    exact List.mem_cons_self

theorem acceptWrite_busy (r : Reg) (v : Word) (s : State) (h : s.busy = true) : acceptWrite r v s = s := by
  unfold acceptWrite
  rw [if_neg (by simp [h]), writeReg_busy r v s h]

/-- A write of CMD on a block that is not BUSY launches, and lends if it launches a PACK (R26, R270). -/
theorem acceptWrite_cmd (v : Word) (s : State) (h : s.busy = false) :
    acceptWrite .cmd v s = lend (launch v s) := by
  unfold acceptWrite
  rw [if_pos ⟨rfl, h⟩, writeReg_idle _ v s h]

theorem acceptWrite_other (r : Reg) (v : Word) (s : State) (h : r ≠ .cmd) :
    acceptWrite r v s = writeReg r v s := by
  unfold acceptWrite
  rw [if_neg (by simp [h])]

/-- A read that does not show DONE = 1 tells the host nothing. -/
theorem hostSaw_cases (r : Reg) (s : State) :
    (r = .status ∧ s.done = true ∧ hostSaw r s = returnLoans s) ∨
    (¬ (r = .status ∧ s.done = true) ∧ hostSaw r s = s) := by
  unfold hostSaw
  by_cases h : r = .status ∧ s.done = true
  · exact .inl ⟨h.1, h.2, if_pos h⟩
  · exact .inr ⟨h, if_neg h⟩

/-- A register access that reaches a register reaches the one at that offset (`10_state.md` R20, R21). -/
theorem ofAccess_some (offset bits : Nat) (r : Reg) (h : Reg.ofAccess offset bits = some r) :
    bits = 32 ∧ offset = r.offset := by
  unfold Reg.ofAccess at h
  split at h
  · cases h
  · next hb =>
    refine ⟨by omega, ?_⟩
    repeat' split at h
    all_goals first | (cases h; done) | (injection h with h; subst h; assumption)

theorem hostWriteReg_next (offset bits : Nat) (v : Word) (s t : State)
    (h : hostWriteReg offset bits v s = .next t) :
    ∃ r, s.resetLine = false ∧ Reg.ofAccess offset bits = some r ∧ t = acceptWrite r v s := by
  unfold hostWriteReg at h
  split at h
  · cases h
  · next r hr =>
    injection h with h
    exact ⟨r, (regAccess_ok _ _ _ _ hr).1, (regAccess_ok _ _ _ _ hr).2, h.symm⟩

theorem hostReadReg_next (offset bits : Nat) (s t : State) (h : hostReadReg offset bits s = .next t) :
    ∃ r, s.resetLine = false ∧ Reg.ofAccess offset bits = some r ∧
      t = setRdata (readReg r s) (hostSaw r s) := by
  unfold hostReadReg at h
  split at h
  · cases h
  · next r hr =>
    injection h with h
    exact ⟨r, (regAccess_ok _ _ _ _ hr).1, (regAccess_ok _ _ _ _ hr).2, h.symm⟩

theorem hostWait_next (reads : Nat) (s t : State) (h : hostWait reads s = .next t) :
    s.resetLine = false ∧
      ((s.done = true ∧ t = setRdata s.status (returnLoans s)) ∨
       (s.done = false ∧ reads = 0 ∧ t = setRdata s.status (setAgenda (.engine :: .wait 0 :: s.agenda) s)) ∨
       (∃ k, s.done = false ∧ reads = k + 1 ∧ t = setRdata s.status (setAgenda (.wait k :: s.agenda) s))) := by
  unfold hostWait at h
  split at h
  · cases h
  · next r hr =>
    obtain ⟨h1, h2⟩ := regAccess_ok _ _ _ _ hr
    have hrs : r = .status := by
      have : Reg.ofAccess Reg.status.offset 32 = some .status := rfl
      rw [this] at h2
      injection h2 with h2
      exact h2.symm
    subst hrs
    injection h with h
    refine ⟨h1, ?_⟩
    cases hd : s.done
    · cases reads with
      | zero => exact .inr (.inl ⟨rfl, rfl, by rw [← h, hd]; rfl⟩)
      | succ k => exact .inr (.inr ⟨k, rfl, rfl, by rw [← h, hd]; rfl⟩)
    · refine .inl ⟨rfl, ?_⟩
      rw [← h, if_pos hd]
      unfold hostSaw
      rw [if_pos ⟨rfl, hd⟩]
      rfl

theorem hostReadSrc_next (i : Nat) (s t : State) (h : hostReadSrc i s = .next t) :
    ∃ v, Memory.read? s.src i = some v ∧ t = setRdata (BitVec.ofNat 32 v.toNat) s := by
  unfold hostReadSrc memRead at h
  cases hm : Memory.read? s.src i with
  | none => simp [hm] at h
  | some v =>
    simp only [hm] at h
    injection h with h
    exact ⟨v, rfl, h.symm⟩

/-- A host read of a destination byte always answers (R266, R267). -/
theorem hostReadDst_cases (o : Nat) (s : State) :
    (dstLent s o = true ∧
      hostReadDst o s = .next (setRdata ((Config.freeByte s.choices o).setWidth 32) (nextChoice s))) ∨
    (dstLent s o = false ∧ hostReadDst o s = .next (setRdata ((dstByte s o).setWidth 32) s)) := by
  unfold hostReadDst
  cases dstLent s o
  · exact .inr ⟨rfl, rfl⟩
  · exact .inl ⟨rfl, rfl⟩

/-- A running PACK is BUSY. -/
theorem runningPack_busy (s : State) (f : WireFormat) (h : runningPack s = some f) : s.busy = true := by
  unfold runningPack at h
  split at h
  · assumption
  · cases h

theorem srcLent_busy (s : State) (i : Nat) (h : srcLent s i = true) : s.busy = true := by
  unfold srcLent at h
  obtain ⟨f, hf⟩ := Option.isSome_iff_exists.1 (Bool.and_eq_true_iff.1 h).1
  exact runningPack_busy s f hf

/-- Which bytes are lent (R267). -/
theorem dstLent_iff (s : State) (o : Nat) : dstLent s o = true ↔ ∃ l ∈ s.lent, o < l.rows * l.stride := by
  simp [dstLent, Loan.covers]

/-- Which bytes a loan's command stores (`20_memory.md` R62). -/
theorem Loan.stores_iff (l : Loan) (o : Nat) :
    l.stores o = true ↔ o < l.rows * l.stride ∧ o % l.stride < l.stored := by
  simp [Loan.stores, Loan.covers]

theorem runningLoan_none (s : State) : runningLoan s = none ↔ runningPack s = none := by
  unfold runningLoan
  cases runningPack s <;> simp

/-- The running PACK's loan: its range, and its extent if its checks pass (R62, R267). -/
theorem runningLoan_some (s : State) (l : Loan) (h : runningLoan s = some l) :
    ∃ f, runningPack s = some f ∧ l.rows = heightOf s ∧ l.stride = s.stride.toNat ∧
      (PackAccepted (floorStride f (widthOf s)) (descriptor f).rowAlign s → l.stored = floorStride f (widthOf s)) ∧
      (¬ PackAccepted (floorStride f (widthOf s)) (descriptor f).rowAlign s → l.stored = 0) := by
  unfold runningLoan at h
  cases hf : runningPack s with
  | none => simp [hf] at h
  | some f =>
    rw [hf] at h
    injection h with h
    subst h
    refine ⟨f, rfl, rfl, rfl, fun ha => ?_, fun ha => ?_⟩
    · rw [(packCheck_ok_iff f s _).2 ⟨ha, rfl⟩]
      rfl
    · cases hc : packCheck f s with
      | error e => rfl
      | ok g => exact absurd ((packCheck_ok_iff f s g).1 hc).1 ha

/-- The bytes of an extent by quotient and remainder. -/
theorem inExtent_iff {rows st fs o : Nat} (h : fs ≤ st) :
    InExtent rows st fs o ↔ o < rows * st ∧ o % st < fs := by
  constructor
  · rintro ⟨y, k, hy, hk, rfl⟩
    have hmul : (y + 1) * st ≤ rows * st := Nat.mul_le_mul_right _ hy
    have he : (y + 1) * st = y * st + st := by ring
    refine ⟨by omega, ?_⟩
    rw [Nat.add_comm, Nat.add_mul_mod_self_right, Nat.mod_eq_of_lt (by omega)]
    exact hk
  · rintro ⟨h1, h2⟩
    have hpos : 0 < st := by omega
    exact ⟨o / st, o % st, (Nat.div_lt_iff_lt_mul hpos).2 h1, h2, (Nat.div_add_mod' o st).symm⟩

/-- Which bytes the running PACK will store: those of its extent if its checks pass (R62). -/
theorem runningLoan_stores (s : State) (o : Nat) :
    ((runningLoan s).any fun l => l.stores o) = true ↔
      ∃ f, runningPack s = some f ∧ PackAccepted (floorStride f (widthOf s)) (descriptor f).rowAlign s ∧
        InExtent (heightOf s) s.stride.toNat (floorStride f (widthOf s)) o := by
  cases hl : runningLoan s with
  | none => simp [(runningLoan_none s).1 hl]
  | some l =>
    obtain ⟨f, hf, h1, h2, h3, h4⟩ := runningLoan_some s l hl
    simp only [Option.any_some, Loan.stores_iff, h1, h2, hf, Option.some.injEq, exists_eq_left']
    by_cases ha : PackAccepted (floorStride f (widthOf s)) (descriptor f).rowAlign s
    · rw [h3 ha, inExtent_iff ha.stride_covers]
      exact ⟨fun h => ⟨ha, h⟩, fun h => h.2⟩
    · rw [h4 ha]
      exact ⟨fun h => absurd h.2 (Nat.not_lt_zero _), fun h => absurd h.1 ha⟩

/-- What a host write of a destination byte does (R266, R267). -/
theorem hostWriteDst_cases (o : Nat) (b : Byte) (s : State) :
    (((runningLoan s).any fun l => l.stores o) = true ∧
      hostWriteDst o b s = .next (setDst (Memory.write s.dst o b) (noteDstRace o s))) ∨
    (((runningLoan s).any fun l => l.stores o) = false ∧ (s.lent.any fun l => l.stores o) = true ∧
      (hostWriteDst o b s = .next (nextChoice (setDst (Memory.write s.dst o b) s)) ∨
        hostWriteDst o b s = .next (nextChoice s))) ∨
    (((runningLoan s).any fun l => l.stores o) = false ∧ (s.lent.any fun l => l.stores o) = false ∧
      hostWriteDst o b s = .next (setDst (Memory.write s.dst o b) s)) := by
  unfold hostWriteDst
  cases h1 : (runningLoan s).any fun l => l.stores o
  · cases h2 : s.lent.any fun l => l.stores o
    · exact .inr (.inr ⟨rfl, rfl, rfl⟩)
    · refine .inr (.inl ⟨rfl, rfl, ?_⟩)
      cases Config.freeChoice s.choices o
      · exact .inr rfl
      · exact .inl rfl
  · exact .inl ⟨rfl, rfl⟩

/-- Which word starts the PACK that is running (`30_encoding.md` R94). -/
theorem runningPack_isSome (s : State) :
    (runningPack s).isSome = true ↔ s.busy = true ∧ s.cmd ∈ packWords := by
  unfold runningPack fetchCommand
  cases s.busy
  · simp
  · simp only [if_true, true_and]
    constructor
    · intro h
      cases hd : decode s.cmd with
      | error e => simp [hd] at h
      | ok i =>
        rw [hd] at h
        obtain ⟨f, hf⟩ := Option.isSome_iff_exists.1 h
        rw [(pack_word _ _ _ hd hf).2]
        cases f <;> decide
    · intro h
      simp only [packWords, List.mem_cons, List.not_mem_nil, or_false] at h
      rcases h with h | h | h | h | h | h | h <;> rw [h] <;> decide

/-- What reset does to a running command (R262, R263): nothing to the memories, or some of the cells the
PACK would store. -/
theorem abandonCommand_cases (cfg : Config) (s : State) :
    abandonCommand cfg s = s ∨
    (∃ f, runningPack s = some f ∧ PackAccepted (floorStride f (widthOf s)) (descriptor f).rowAlign s ∧
      abandonCommand cfg s =
        nextChoice (setDst (Memory.writeAll s.dst (abandonedCells cfg f (geometryOf f s) s)) s)) := by
  unfold abandonCommand
  cases hf : runningPack s with
  | none => exact .inl rfl
  | some f =>
    cases hc : packCheck f s with
    | error e => exact .inl (by simp only [hc])
    | ok g =>
      obtain ⟨ha, rfl⟩ := (packCheck_ok_iff f s g).1 hc
      exact .inr ⟨f, rfl, ha, by simp only [hc]⟩

/-- The bytes a PACK cut off by reset has stored lie in its extent (R262). -/
theorem abandonedCells_inExtent (cfg : Config) (f : WireFormat) (s : State) (x : Host.Cell)
    (hx : x ∈ abandonedCells cfg f (geometryOf f s) s) :
    InExtent (heightOf s) s.stride.toNat (floorStride f (widthOf s)) x.1 := by
  unfold abandonedCells at hx
  obtain ⟨q, hq, hx⟩ := List.mem_flatMap.1 (List.mem_filter.1 hx).1
  obtain ⟨hy, hg⟩ := (mem_seqOrder _ _ _).1 hq
  have hlen : ∃ B : List Byte, B.length = (descriptor f).groupBytes ∧
      abandonedGroup cfg f (geometryOf f s) s q = cellsAt (groupOffset f (geometryOf f s) q) B := by
    unfold abandonedGroup
    cases hp : packGroup cfg f (geometryOf f s) s q with
    | error e => exact ⟨_, by simp, rfl⟩
    | ok c => exact packGroup_cells cfg f (geometryOf f s) s q c hp
  obtain ⟨B, hB, he⟩ := hlen
  rw [he] at hx
  obtain ⟨t, ht, rfl⟩ := (mem_cellsAt _ _ _).1 hx
  refine ⟨q.row, q.group * (descriptor f).groupBytes + t, hy, group_byte_lt f _ _ t hg (by omega), ?_⟩
  show q.row * s.stride.toNat + q.group * (descriptor f).groupBytes + t = _
  omega

/-- On a readable plane they are the command's own (R262). -/
theorem abandonedCells_eq (cfg : Config) (f : WireFormat) (s : State) (hd : PlaneReadable s) :
    abandonedCells cfg f (geometryOf f s) s =
      (commandCells cfg f s).filter fun x => Config.freeChoice s.choices x.1 := by
  unfold abandonedCells commandCells
  refine congrArg (List.filter _) ?_
  have : ∀ q ∈ commandSeq f s, abandonedGroup cfg f (geometryOf f s) s q = packedCells cfg f s q := by
    intro q hq
    unfold abandonedGroup
    rw [packGroup_ok cfg f s hd q ((mem_seqOrder _ _ _).1 hq).1]
  show (commandSeq f s).flatMap _ = _
  rw [List.flatMap_def, List.flatMap_def, List.map_congr_left this]

end Sys2Proof.Machine
end

