-- ==== Sys2Proof/Laws/PerInstr.lean ====
section
/-! SUPPORT. A statement about every command as syntax: the word the encoder gives it is a command word by
the checks of `30_encoding.md` R84 to R90. One lemma per constructor. -/

namespace Sys2Proof.Laws.EncodesLegally

/-- A well-formed command's word is legal and its format recognised. -/
def Statement (i : Instr) : Prop := i.wellFormed = true → commandWord (encode i) = true

theorem clamp8 (v : Nat) : Statement (.clamp8 v) := fun _ => commandWord_encodeC 8 v (by omega)
theorem clamp10 (v : Nat) : Statement (.clamp10 v) := fun _ => commandWord_encodeC 10 v (by omega)
theorem clamp12 (v : Nat) : Statement (.clamp12 v) := fun _ => commandWord_encodeC 12 v (by omega)
theorem geomRgb8b : Statement .geomRgb8b := fun _ => by decide
theorem geomRgb8r : Statement .geomRgb8r := fun _ => by decide
theorem geomYuv8 : Statement .geomYuv8 := fun _ => by decide
theorem geomR210 : Statement .geomR210 := fun _ => by decide
theorem geomYuv10 : Statement .geomYuv10 := fun _ => by decide
theorem geomR12b : Statement .geomR12b := fun _ => by decide
theorem geomR12l : Statement .geomR12l := fun _ => by decide
theorem packRgb8b : Statement .packRgb8b := fun _ => by decide
theorem packRgb8r : Statement .packRgb8r := fun _ => by decide
theorem packYuv8 : Statement .packYuv8 := fun _ => by decide
theorem packR210 : Statement .packR210 := fun _ => by decide
theorem packYuv10 : Statement .packYuv10 := fun _ => by decide
theorem packR12b : Statement .packR12b := fun _ => by decide
theorem packR12l : Statement .packR12l := fun _ => by decide

end Sys2Proof.Laws.EncodesLegally
end

