-- ==== Sys2Proof/Laws/R12.lean ====
section
/-! SUPPORT. The bits of a 12-bit group (`46_pack_rgb12.md` R182 to R190): which bit of which word, byte and
stream place carries which sample bit. -/

namespace Sys2Proof.Machine

/-- Bit `b` of word `k` carries the sample bit the map names (R182). -/
theorem getLsbD_r12Word (cfg : Config) (P : List Pixel) (k b : Nat) (h : b < 32) :
    (r12Word cfg P k).getLsbD b = sampleBitOf P (cfg.r12Map k b) := getLsbD_wordOfBits _ b h

/-- The bits of a group, when they do not depend on the port: little-endian words for R12L, big-endian words
for R12B (R184 to R186). -/
theorem groupR12_eq (cfg : Config) (hostLe be : Bool) (P : List Pixel) :
    groupR12 cfg hostLe be P =
      (List.range 9).flatMap fun k => if be then beBytes (r12Word cfg P k) else leBytes (r12Word cfg P k) := by
  unfold groupR12
  simp only [storeLe_eq, storeBe_eq]

/-- A list of whole words stored little-endian reads byte `m` of word `k` at `4 k + m`. -/
theorem getD_flatMap_leBytes (f : Nat → Word) (n k m : Nat) (hk : k < n) (hm : m < 4) :
    ((List.range n).flatMap fun j => leBytes (f j)).getD (4 * k + m) 0 = byteOf (f k) m := by
  induction n generalizing f k with
  | zero => omega
  | succ n ih =>
    rw [List.range_succ_eq_map, List.flatMap_cons, List.flatMap_map]
    cases k with
    | zero =>
      have : m = 0 ∨ m = 1 ∨ m = 2 ∨ m = 3 := by omega
      rcases this with rfl | rfl | rfl | rfl <;> rfl
    | succ k =>
      have h := ih (fun j => f (j + 1)) k (by omega)
      rw [← h, List.getD_append_right _ _ _ _ (by rw [leBytes_length]; omega), leBytes_length]
      congr 1
      omega

/-- A list of whole words stored big-endian reads byte `3 - m` of word `k` at `4 k + m`. -/
theorem getD_flatMap_beBytes (f : Nat → Word) (n k m : Nat) (hk : k < n) (hm : m < 4) :
    ((List.range n).flatMap fun j => beBytes (f j)).getD (4 * k + m) 0 = byteOf (f k) (3 - m) := by
  induction n generalizing f k with
  | zero => omega
  | succ n ih =>
    rw [List.range_succ_eq_map, List.flatMap_cons, List.flatMap_map]
    cases k with
    | zero =>
      have : m = 0 ∨ m = 1 ∨ m = 2 ∨ m = 3 := by omega
      rcases this with rfl | rfl | rfl | rfl <;> rfl
    | succ k =>
      have h := ih (fun j => f (j + 1)) k (by omega)
      rw [← h, List.getD_append_right _ _ _ _ (by rw [beBytes_length]; omega), beBytes_length]
      congr 1
      omega

/-- Byte `m` of word `k` of an R12L group (R184). -/
theorem groupR12_little (cfg : Config) (hostLe : Bool) (P : List Pixel) (k m : Nat) (hk : k < 9) (hm : m < 4) :
    (groupR12 cfg hostLe false P).getD (4 * k + m) 0 = byteOf (r12Word cfg P k) m := by
  rw [groupR12_eq]
  exact getD_flatMap_leBytes (r12Word cfg P) 9 k m hk hm

/-- Byte `m` of word `k` of an R12B group (R185). -/
theorem groupR12_big (cfg : Config) (hostLe : Bool) (P : List Pixel) (k m : Nat) (hk : k < 9) (hm : m < 4) :
    (groupR12 cfg hostLe true P).getD (4 * k + m) 0 = byteOf (r12Word cfg P k) (3 - m) := by
  rw [groupR12_eq]
  exact getD_flatMap_beBytes (r12Word cfg P) 9 k m hk hm

/-- A number of little-endian bytes has bit `n` where byte `n / 8` has bit `n % 8`. -/
theorem testBit_leNumber (bs : List Byte) (n : Nat) :
    (leNumber bs).testBit n = (bs.getD (n / 8) 0).getLsbD (n % 8) := by
  induction bs generalizing n with
  | nil => simp [leNumber]
  | cons b bs ih =>
    have hb : b.toNat < 2 ^ 8 := b.isLt
    unfold leNumber
    rw [Nat.add_comm, Nat.testBit_two_pow_mul_add _ hb]
    by_cases h : n < 8
    · rw [if_pos h, Nat.div_eq_of_lt h, Nat.mod_eq_of_lt h]
      rfl
    · rw [if_neg h, ih, show n / 8 = (n - 8) / 8 + 1 by omega, show n % 8 = (n - 8) % 8 by omega]
      rfl

theorem getLsbD_byteOf (w : Word) (m i : Nat) (h : i < 8) : (byteOf w m).getLsbD i = w.getLsbD (8 * m + i) := by
  unfold byteOf
  rw [BitVec.getLsbD_extractLsb', decide_eq_true h, Bool.true_and]

/-- Bit `n` of the stream of an R12L group is bit `n % 32` of word `n / 32` (R184, R190). -/
theorem testBit_groupR12 (cfg : Config) (hostLe : Bool) (P : List Pixel) (n : Nat) (h : n < 288) :
    (leNumber (groupR12 cfg hostLe false P)).testBit n = sampleBitOf P (cfg.r12Map (n / 32) (n % 32)) := by
  rw [testBit_leNumber, show n / 8 = 4 * (n / 32) + n % 32 / 8 by omega,
    groupR12_little cfg hostLe P _ _ (by omega) (by omega), getLsbD_byteOf _ _ _ (by omega),
    getLsbD_r12Word _ _ _ _ (by omega)]
  congr 2
  omega

/-- Bit `n` of the stream under the default map is bit `n % 12` of sample `n / 12` (R182). -/
theorem testBit_groupR12_default (hostLe : Bool) (P : List Pixel) (n : Nat) (h : n < 288) :
    (leNumber (groupR12 defaultConfig hostLe false P)).testBit n =
      ((slotPixel P (n / 12 / 3)).channel (n / 12 % 3)).testBit (n % 12) := by
  rw [testBit_groupR12 _ _ _ _ h]
  show sampleBitOf P (defaultR12Map (n / 32) (n % 32)) = _
  unfold defaultR12Map sampleBitOf
  rw [Nat.div_add_mod]

/-- Sample `j` read back from the stream of an R12L group is the sample packed there (R190). -/
theorem unpackSample_groupR12 (hostLe : Bool) (P : List Pixel) (hP : ∀ p ∈ P, p.fits 12) (j : Nat) (h : j < 24) :
    unpackSample (leNumber (groupR12 defaultConfig hostLe false P)) j = (slotPixel P (j / 3)).channel (j % 3) := by
  have hf : (slotPixel P (j / 3)).fits 12 := by
    unfold slotPixel
    by_cases hj : j / 3 < P.length
    · rw [List.getD_eq_getElem _ _ hj]
      exact hP _ (List.getElem_mem hj)
    · rw [List.getD_eq_default _ _ (by omega)]
      exact ⟨by decide, by decide, by decide⟩
  have hc : (slotPixel P (j / 3)).channel (j % 3) < 2 ^ 12 := by
    have : j % 3 = 0 ∨ j % 3 = 1 ∨ j % 3 = 2 := by omega
    rcases this with h | h | h <;> rw [h]
    · exact hf.1
    · exact hf.2.1
    · exact hf.2.2
  apply Nat.eq_of_testBit_eq
  intro b
  unfold unpackSample slice
  rw [Nat.testBit_mod_two_pow, Nat.testBit_div_two_pow]
  by_cases hb : b < 12
  · rw [decide_eq_true (by omega), Bool.true_and, testBit_groupR12_default _ _ _ (by omega),
      show (b + 12 * j) / 12 = j by omega, show (b + 12 * j) % 12 = b by omega]
  · rw [decide_eq_false (by omega), Bool.false_and]
    exact (Nat.testBit_lt_two_pow (lt_of_lt_of_le hc (Nat.pow_le_pow_right (by norm_num) (by omega)))).symm

/-- Bit `b` of the word R183 writes out is the bit R182 names, whatever the slots hold, as long as they are
clamped. -/
theorem testBit_writtenWord (p : Nat → Pixel) (hp : ∀ i, (p i).fits 12) (k b : Nat) (hk : k < 9) (hb : b < 32) :
    (writtenWord p k).testBit b =
      ((p ((32 * k + b) / 12 / 3)).channel ((32 * k + b) / 12 % 3)).testBit ((32 * k + b) % 12) := by
  have h12 : ∀ v n, v < 2 ^ 12 → 12 ≤ n → v.testBit n = false := fun v n hv h =>
    Nat.testBit_lt_two_pow (lt_of_lt_of_le hv (Nat.pow_le_pow_right (by norm_num) h))
  have ha : ∀ i n, 12 ≤ n → (p i).a.testBit n = false := fun i n => h12 _ n (hp i).1
  have hb' : ∀ i n, 12 ≤ n → (p i).b.testBit n = false := fun i n => h12 _ n (hp i).2.1
  have hc : ∀ i n, 12 ≤ n → (p i).c.testBit n = false := fun i n => h12 _ n (hp i).2.2
  interval_cases k <;>
    simp only [writtenWord, Nat.testBit_or, Nat.testBit_and, Nat.testBit_shiftLeft, Nat.testBit_shiftRight] <;>
    interval_cases b <;> simp [Pixel.channel, ha, hb', hc] <;> intro _ <;> rfl

/-- Under the default map word `k` of a group is the one R183 writes out. -/
theorem r12Word_default (P : List Pixel) (hP : ∀ i, (slotPixel P i).fits 12) (k : Nat) (hk : k < 9) :
    r12Word defaultConfig P k = BitVec.ofNat 32 (writtenWord (slotPixel P) k) := by
  apply BitVec.eq_of_getLsbD_eq
  intro b hb
  rw [getLsbD_r12Word _ _ _ _ hb, BitVec.getLsbD_ofNat, decide_eq_true hb, Bool.true_and,
    testBit_writtenWord _ hP k b hk hb]
  rfl

/-- Reversing every aligned unit of a big-endian list of words gives the little-endian one. -/
theorem reverseUnits_flatMap_beBytes (f : Nat → Word) (l : List Nat) :
    reverseUnits (l.flatMap fun k => beBytes (f k)) = l.flatMap fun k => leBytes (f k) := by
  induction l with
  | nil => rfl
  | cons k l ih =>
    rw [List.flatMap_cons, List.flatMap_cons, ← ih]
    rfl

end Sys2Proof.Machine
end

