-- ==== Sys2Proof/Tests/Slice0.lean ====
section
/-! SUPPORT. Tests of the model. Every expected value is copied from the spec: the encodings of
`30_encoding.md` R94 and the vectors of `95_test_vectors.md` (section named at each test). -/

namespace Sys2Proof.Tests

open Machine

/-! Well-formedness: one ill-formed term or word for each check (R82, R83, R84, R86, R89). -/

theorem test_wf_clamp8_wide : (Instr.clamp8 0x10000).wellFormed = false := by decide
theorem test_wf_clamp10_wide : (Instr.clamp10 0x10000).wellFormed = false := by decide
theorem test_wf_clamp12_wide : (Instr.clamp12 0x10000).wellFormed = false := by decide
theorem test_wf_op_reserved : opDefined 0x40000001#32 = false := by decide
theorem test_wf_zero_field : zeroFieldClear 0x20000101#32 = false := by decide
theorem test_wf_zero_field_c : zeroFieldClear 0x1C010000#32 = false := by decide
theorem test_wf_depth : depthDeclared 0x19000005#32 = false := by decide
theorem test_wf_format : formatRecognised 0x20000008#32 = false := by decide
theorem test_wf_word : commandWord 0x00000000#32 = false := by decide

/-! Decoding: the words of R94, written out. -/

theorem test_decode_clamp8 : decode 0x180000FE#32 = .ok (.clamp8 0xFE) := by decide
theorem test_decode_clamp10 : decode 0x1A00FFFF#32 = .ok (.clamp10 0xFFFF) := by decide
theorem test_decode_clamp12 : decode 0x1C000ABC#32 = .ok (.clamp12 0xABC) := by decide
theorem test_decode_geom : decode 0x20000001#32 = .ok .geomRgb8b ∧ decode 0x20000002#32 = .ok .geomRgb8r ∧
    decode 0x20000003#32 = .ok .geomYuv8 ∧ decode 0x20000004#32 = .ok .geomR210 ∧
    decode 0x20000005#32 = .ok .geomYuv10 ∧ decode 0x20000006#32 = .ok .geomR12b ∧
    decode 0x20000007#32 = .ok .geomR12l := by decide
theorem test_decode_pack : decode 0x30000001#32 = .ok .packRgb8b ∧ decode 0x30000002#32 = .ok .packRgb8r ∧
    decode 0x30000003#32 = .ok .packYuv8 ∧ decode 0x30000004#32 = .ok .packR210 ∧
    decode 0x30000005#32 = .ok .packYuv10 ∧ decode 0x30000006#32 = .ok .packR12b ∧
    decode 0x30000007#32 = .ok .packR12l := by decide

/-- Section 2.8: illegal words and unsupported formats; the illegal word wins. -/
theorem test_decode_faults : decode 0x1B0003FF#32 = .error (.illegalCommand 0x1B0003FF#32) ∧
    decode 0x18FF0000#32 = .error (.illegalCommand 0x18FF0000#32) ∧
    decode 0x2FFFFF01#32 = .error (.illegalCommand 0x2FFFFF01#32) ∧
    decode 0x30000108#32 = .error (.illegalCommand 0x30000108#32) ∧
    decode 0xF0000007#32 = .error (.illegalCommand 0xF0000007#32) ∧
    decode 0x30000009#32 = .error (.unsupportedFormat 9) ∧
    decode 0x20000000#32 = .error (.unsupportedFormat 0) := by decide

/-! One step on a small state. -/

/-- The reset state with WIDTH, HEIGHT, STRIDE, DST_LEN, the source samples from index 0 and `c` launched. -/
def small (c : Word) (w h : Int) (st dl : Nat) (samples : List Nat) : State :=
  placeCommand c { State.reset with
    width := BitVec.ofInt 32 w, height := BitVec.ofInt 32 h, stride := BitVec.ofNat 32 st
    dstLen := BitVec.ofNat 32 dl
    src := (List.range samples.length).map fun i => (i, BitVec.ofNat 16 (samples.getD i 0)) }

/-- STATUS, RESULT and ERR_INFO after one step, as numbers. -/
def outcomeOf (o : Host.Outcome State Fault Refusal) : Option (Nat × Nat × Nat) :=
  match o with
  | .next t => some (t.status.toNat, t.result.toNat, t.errInfo.toNat)
  | .fault _ => none
  | .refused _ => none

/-- The destination bytes from offset 0 after one step, as numbers. -/
def bytesOf (n : Nat) (o : Host.Outcome State Fault Refusal) : List (Option Nat) :=
  match o with
  | .next t => (List.range n).map fun a => (Memory.read? t.dst a).map BitVec.toNat
  | .fault _ => []
  | .refused _ => []

/-- Section 2.1. -/
theorem test_clamp8 : outcomeOf (step (small 0x18000100#32 0 0 0 0 [])) = some (0x02, 0xFF, 0) := by decide
theorem test_clamp8_kept : outcomeOf (step (small 0x180000FE#32 0 0 0 0 [])) = some (0x02, 0xFE, 0) := by decide
theorem test_clamp10 : outcomeOf (step (small 0x1A000400#32 0 0 0 0 [])) = some (0x02, 0x3FF, 0) := by decide
theorem test_clamp10_high : outcomeOf (step (small 0x1A008000#32 0 0 0 0 [])) = some (0x02, 0x3FF, 0) := by decide
theorem test_clamp12 : outcomeOf (step (small 0x1C001000#32 0 0 0 0 [])) = some (0x02, 0xFFF, 0) := by decide
theorem test_clamp12_kept : outcomeOf (step (small 0x1C000ABC#32 0 0 0 0 [])) = some (0x02, 0xABC, 0) := by decide

/-- Section 2.2: values, the largest widths, and the faults. -/
theorem test_geom_rgb8b : outcomeOf (step (small 0x20000001#32 1073741823 0 0 0 [])) = some (0x02, 4294967292, 0) := by decide
theorem test_geom_rgb8b_floor : outcomeOf (step (small 0x20000001#32 1073741824 0 0 0 [])) = some (0x22, 0, 3) := by decide
theorem test_geom_rgb8r : outcomeOf (step (small 0x20000002#32 3 0 0 0 [])) = some (0x02, 12, 0) := by decide
theorem test_geom_rgb8r_negative : outcomeOf (step (small 0x20000002#32 (-1) 0 0 0 [])) = some (0x22, 0, 1) := by decide
theorem test_geom_yuv8 : outcomeOf (step (small 0x20000003#32 2147483646 0 0 0 [])) = some (0x02, 4294967292, 0) := by decide
theorem test_geom_yuv8_floor : outcomeOf (step (small 0x20000003#32 2147483647 0 0 0 [])) = some (0x22, 0, 3) := by decide
theorem test_geom_r210 : outcomeOf (step (small 0x20000004#32 65 0 0 0 [])) = some (0x02, 512, 0) := by decide
theorem test_geom_r210_floor : outcomeOf (step (small 0x20000004#32 1073741761 0 0 0 [])) = some (0x22, 0, 3) := by decide
theorem test_geom_yuv10 : outcomeOf (step (small 0x20000005#32 65 0 0 0 [])) = some (0x02, 260, 0) := by decide
theorem test_geom_yuv10_zero : outcomeOf (step (small 0x20000005#32 0 0 0 0 [])) = some (0x22, 0, 1) := by decide
theorem test_geom_r12b : outcomeOf (step (small 0x20000006#32 9 0 0 0 [])) = some (0x02, 72, 0) := by decide
theorem test_geom_r12b_limit : outcomeOf (step (small 0x20000006#32 954437176 0 0 0 [])) = some (0x02, 4294967292, 0) := by decide
theorem test_geom_r12l : outcomeOf (step (small 0x20000007#32 3840 0 0 0 [])) = some (0x02, 17280, 0) := by decide
theorem test_geom_r12l_floor : outcomeOf (step (small 0x20000007#32 954437177 0 0 0 [])) = some (0x22, 0, 3) := by decide

/-- Section 2.3. -/
theorem test_pack_rgb8b :
    bytesOf 4 (step (small 0x30000001#32 1 1 4 4 [0x12, 0x34, 0x56])) = [some 0x56, some 0x34, some 0x12, some 0xFF] := by
  decide +kernel
theorem test_pack_rgb8r :
    bytesOf 4 (step (small 0x30000002#32 1 1 4 4 [256, 0, 255])) = [some 0xFF, some 0, some 0xFF, some 0xFF] := by
  decide +kernel

/-- Section 2.4: width 3, the chroma of the odd pixel dropped, the unused slot 0. -/
theorem test_pack_yuv8 :
    bytesOf 8 (step (small 0x30000003#32 3 1 8 8 [1, 2, 3, 4, 5, 6, 7, 8, 9])) =
      [some 2, some 1, some 3, some 4, some 8, some 7, some 9, some 0] := by
  decide +kernel

/-- Program P2, line 7: two rows, padded stride; the padding is not written. -/
theorem test_pack_yuv8_padded :
    bytesOf 24 (step (small 0x30000003#32 3 2 12 24
      [0x10, 0x80, 0x81, 0x20, 0x90, 0x91, 0x30, 0xA0, 0xA1, 0x140, 0x1B0, 0xC1, 0x50, 0xD0, 0xD1, 0xFF, 0x100, 0x00])) =
      [some 0x80, some 0x10, some 0x81, some 0x20, some 0xA0, some 0x30, some 0xA1, some 0x00, none, none, none, none,
       some 0xFF, some 0xFF, some 0xC1, some 0x50, some 0xFF, some 0xFF, some 0x00, some 0x00, none, none, none, none] := by
  decide +kernel

/-- Section 2.5: the word and the first padding slot. -/
theorem test_pack_r210 :
    bytesOf 8 (step (small 0x30000004#32 1 1 256 256 [0x155, 0x2AA, 0x0F0])) =
      [some 0x15, some 0x5A, some 0xA8, some 0xF0, some 0, some 0, some 0, some 0] := by
  decide +kernel
/-- Section 2.8: 516 mod 256 = 4. -/
theorem test_pack_r210_misaligned :
    outcomeOf (step (small 0x30000004#32 65 1 516 1000 [])) = some (0x22, 0, 5) := by decide

/-- Section 2.6. -/
theorem test_pack_yuv10 :
    bytesOf 4 (step (small 0x30000005#32 1 1 4 4 [1, 2, 3])) = [some 0x02, some 0x04, some 0x30, some 0x00] := by
  decide +kernel
theorem test_pack_yuv10_clamped :
    bytesOf 4 (step (small 0x30000005#32 1 1 4 4 [5000, 1024, 65535])) = [some 0xFF, some 0xFF, some 0xFF, some 0x3F] := by
  decide +kernel

/-- Section 2.7, vector R12-d: sample `j` is `0x800 + j`. -/
theorem test_pack_r12l :
    bytesOf 36 (step (small 0x30000007#32 8 1 36 36 ((List.range 24).map (0x800 + ·)))) =
      [0x00, 0x18, 0x80, 0x02, 0x38, 0x80, 0x04, 0x58, 0x80, 0x06, 0x78, 0x80, 0x08, 0x98, 0x80, 0x0A, 0xB8, 0x80,
       0x0C, 0xD8, 0x80, 0x0E, 0xF8, 0x80, 0x10, 0x18, 0x81, 0x12, 0x38, 0x81, 0x14, 0x58, 0x81, 0x16, 0x78, 0x81].map some := by
  decide +kernel
theorem test_pack_r12b :
    bytesOf 36 (step (small 0x30000006#32 8 1 36 36 ((List.range 24).map (0x800 + ·)))) =
      [0x02, 0x80, 0x18, 0x00, 0x58, 0x04, 0x80, 0x38, 0x80, 0x78, 0x06, 0x80, 0x0A, 0x80, 0x98, 0x08, 0xD8, 0x0C,
       0x80, 0xB8, 0x80, 0xF8, 0x0E, 0x80, 0x12, 0x81, 0x18, 0x10, 0x58, 0x14, 0x81, 0x38, 0x81, 0x78, 0x16, 0x81].map some := by
  decide +kernel
/-- Section 2.7, vector R12-e: one white pixel. -/
theorem test_pack_r12b_partial :
    bytesOf 10 (step (small 0x30000006#32 1 1 36 36 [4095, 4095, 4095])) =
      [some 0xFF, some 0xFF, some 0xFF, some 0xFF, some 0, some 0, some 0, some 0x0F, some 0, some 0] := by
  decide +kernel
theorem test_pack_r12l_twelve :
    outcomeOf (step (small 0x30000007#32 9 1 76 200 [])) = some (0x22, 0, 5) := by decide

/-- Section 2.8, PACK checks in their order. -/
theorem test_pack_width_first : outcomeOf (step (small 0x30000001#32 (-5) (-1) 0 0 [])) = some (0x22, 0, 1) := by decide
theorem test_pack_saturates :
    outcomeOf (step (small 0x30000001#32 1 2 2147483648 4294967295 [])) = some (0x32, 0, 4294967295) := by decide
theorem test_unsupported_first : outcomeOf (step (small 0x30000008#32 0 0 0 0 [])) = some (0x12, 0, 8) := by decide
theorem test_illegal : outcomeOf (step (small 0x00000000#32 8 1 32 32 [])) = some (0x42, 0, 0) := by decide

/-- Section 2.9, step 7: a write while BUSY is ignored; R269. -/
theorem test_busy_write_ignored :
    (match step { small 0x30000001#32 1 1 4 4 [] with agenda := [.writeReg 0x10 32 7#32] } with
      | .next t => t.width.toNat
      | _ => 0) = 1 := by decide

/-- R93: `PACKA` is GEOM, WAIT, MOVR STRIDE, PACK, WAIT. -/
theorem test_packa : (HostLine.packa 4).actions 0 7 =
    [.writeReg 0 32 0x20000004#32, .wait 0, .readReg 8 32, .writeBack 0x18 32, .writeReg 0 32 0x30000004#32,
     .wait 7] := by
  decide

/-! Witnesses: for every statement with hypotheses, values that meet them all, clause by clause and at the
boundaries. Named after the statement. -/

/-- A one-pixel image of a format at its floor stride and exact length. -/
def onePixel (f : WireFormat) : State :=
  small (encode (packInstr f)) 1 1 (floorStride f 1) (floorStride f 1) [0, 255, 65535]

theorem onePixel_accepted (f : WireFormat) :
    PackAccepted (floorStride f (widthOf (onePixel f))) (descriptor f).rowAlign (onePixel f) := by
  cases f <;> exact ⟨by decide, by decide, by decide, by decide, by decide, by decide⟩

theorem onePixel_defined (f : WireFormat) : PlaneDefined (onePixel f) := by
  cases f <;> (unfold PlaneDefined SrcDefined; decide)

theorem onePixel_fields (f : WireFormat) : Unraced (onePixel f) ∧ (onePixel f).busy = true ∧
    (onePixel f).resetLine = false ∧ packFormatOf (packInstr f) = some f := by
  cases f <;> exact ⟨⟨rfl, rfl⟩, by decide, rfl, rfl⟩

theorem witness_DecodeOfEncodeIsTheCommand : (Instr.clamp12 0xFFFF).wellFormed = true ∧
    Instr.packR12l.wellFormed = true := by decide
theorem witness_EncodeOfDecodeIsTheWord : decode 0x1C00FFFF#32 = .ok (.clamp12 0xFFFF) := by decide
theorem witness_EveryWordIsACommandOrOneFault : legalWord 0x40000001#32 = false ∧
    (legalWord 0x30000008#32 = true ∧ formatRecognised 0x30000008#32 = false) ∧
    (legalWord 0x30000007#32 = true ∧ formatRecognised 0x30000007#32 = true) := by decide

theorem witness_StepRunsTheLaunchedCommand : Launched 0x18000100#32 (small 0x18000100#32 0 0 0 0 []) [] ∧
    Launched 0x18000100#32 { small 0x18000100#32 0 0 0 0 [] with agenda := [.engine, .wait 2] } [.wait 2] ∧
    decode 0x18000100#32 = .ok (.clamp8 256) ∧ (Instr.clamp8 256).wellFormed = true :=
  ⟨⟨rfl, by decide, .inl ⟨rfl, rfl⟩⟩, ⟨rfl, by decide, .inr rfl⟩, by decide, by decide⟩
theorem witness_PlacedWordRunsNext : decodeTableWord 32 0x30000004 = some .packR210 := by decide
theorem witness_LaunchedBadWordFaults :
    (Launched 0xF0000007#32 (small 0xF0000007#32 0 0 0 0 []) [] ∧ legalWord 0xF0000007#32 = false) ∧
    (Launched 0x20000000#32 (small 0x20000000#32 0 0 0 0 []) [] ∧ legalWord 0x20000000#32 = true ∧
      formatRecognised 0x20000000#32 = false) :=
  ⟨⟨⟨rfl, by decide, .inl ⟨rfl, rfl⟩⟩, by decide⟩, ⟨rfl, by decide, .inl ⟨rfl, rfl⟩⟩, by decide, by decide⟩
theorem witness_IdleEngineChangesNothing : EnginesTurn State.reset [] ∧ State.reset.busy = false ∧
    EnginesTurn { State.reset with agenda := [.engine], resetLine := true } [] :=
  ⟨.inl ⟨rfl, rfl⟩, by decide, .inr rfl⟩

theorem witness_ClampCommandsSaturate :
    Launched (BitVec.ofNat 32 (0x18000000 + 65535)) (small 0x1800FFFF#32 0 0 0 0 []) [] ∧
    Launched (BitVec.ofNat 32 (0x1A000000 + 0)) (small 0x1A000000#32 0 0 0 0 []) [] ∧
    Launched (BitVec.ofNat 32 (0x1C000000 + 4096)) (small 0x1C001000#32 0 0 0 0 []) [] :=
  ⟨⟨rfl, by decide, .inl ⟨rfl, rfl⟩⟩, ⟨rfl, by decide, .inl ⟨rfl, rfl⟩⟩, ⟨rfl, by decide, .inl ⟨rfl, rfl⟩⟩⟩
theorem witness_ClampLaws : 2 ^ 8 - 1 < 256 ∧ 255 ≤ 2 ^ 8 - 1 ∧ 2 ^ 12 - 1 < 4096 := by decide

/-- A state with a WIDTH. -/
def wide (w : Int) : State := { State.reset with width := BitVec.ofInt 32 w }

theorem witness_GeomWordPerPixel : (wide 0).width.toInt ≤ 0 ∧ 0 < (wide 1).width.toInt ∧
    (wide 1073741823).width.toInt ≤ 1073741823 ∧ 1073741823 < (wide 1073741824).width.toInt := by decide
theorem witness_GeomYuv8PixelPairs : (wide (-1)).width.toInt ≤ 0 ∧ 0 < (wide 2147483646).width.toInt ∧
    (wide 2147483646).width.toInt ≤ 2147483646 ∧ (wide 2147483647).width.toInt = 2147483647 := by decide
theorem witness_GeomR210AlignsRows : (wide 0).width.toInt ≤ 0 ∧ 0 < (wide 1073741760).width.toInt ∧
    (wide 1073741760).width.toInt ≤ 1073741760 ∧ 1073741760 < (wide 1073741761).width.toInt := by decide
theorem witness_GeomR12GroupsOfEight : (wide (-2147483648)).width.toInt ≤ 0 ∧
    0 < (wide 954437176).width.toInt ∧ (wide 954437176).width.toInt ≤ 954437176 ∧
    954437176 < (wide 954437177).width.toInt := by decide
theorem witness_FloorStrideLaws : 1 ≤ 1 ∧ 1 ≤ 2 := by decide

/-- One state for each check, failing at it and passing those before; the stride at the floor, one below it,
and one above; the length one short. -/
theorem witness_PackChecksInOrder :
    (wide 0).width.toInt ≤ 0 ∧
    (0 < (small 0 1 0 0 0 []).width.toInt ∧ (small 0 1 0 0 0 []).height.toInt ≤ 0) ∧
    (0 < (small 0 1073741824 1 0 0 []).height.toInt ∧
      2 ^ 32 ≤ floorStride .rgb8b (widthOf (small 0 1073741824 1 0 0 []))) ∧
    (small 0 9 1 71 0 []).stride.toNat < floorStride .r12b (widthOf (small 0 9 1 71 0 [])) ∧
    (floorStride .r12b (widthOf (small 0 9 1 73 0 [])) ≤ (small 0 9 1 73 0 []).stride.toNat ∧
      (small 0 9 1 73 0 []).stride.toNat % 36 ≠ 0) ∧
    ((small 0 9 1 72 71 []).stride.toNat % 36 = 0 ∧
      (small 0 9 1 72 71 []).dstLen.toNat <
        heightOf (small 0 9 1 72 71 []) * (small 0 9 1 72 71 []).stride.toNat) := by decide

theorem witness_PackRgb8StoresPixels : PackAccepted (widthOf (onePixel .rgb8b) * 4) 4 (onePixel .rgb8b) ∧
    PlaneDefined (onePixel .rgb8b) ∧ Unraced (onePixel .rgb8b) ∧ 0 < heightOf (onePixel .rgb8b) ∧
    0 < widthOf (onePixel .rgb8b) ∧ ¬ InExtent 1 4 4 4 :=
  ⟨onePixel_accepted .rgb8b, onePixel_defined _, ⟨rfl, rfl⟩, by decide, by decide, by rintro ⟨y, k, _, _, _⟩; omega⟩
/-- The odd width 1: its one pair has an unused slot. -/
theorem witness_PackYuv8StoresPairs :
    PackAccepted ((widthOf (onePixel .yuv8) + 1) / 2 * 4) 4 (onePixel .yuv8) ∧
    PlaneDefined (onePixel .yuv8) ∧ Unraced (onePixel .yuv8) ∧ 0 < (widthOf (onePixel .yuv8) + 1) / 2 ∧
    widthOf (onePixel .yuv8) ≤ 2 * 0 + 1 :=
  ⟨onePixel_accepted .yuv8, onePixel_defined _, ⟨rfl, rfl⟩, by decide, by decide⟩
/-- Slot 63 of the width 1 is the last unused one. Also for `R210HoldsForEveryWordFunction`. -/
theorem witness_PackR210StoresWords :
    PackAccepted ((widthOf (onePixel .r210) + 63) / 64 * 256) 256 (onePixel .r210) ∧
    PlaneDefined (onePixel .r210) ∧ Unraced (onePixel .r210) ∧
    63 < (widthOf (onePixel .r210) + 63) / 64 * 64 ∧ widthOf (onePixel .r210) ≤ 63 :=
  ⟨onePixel_accepted .r210, onePixel_defined _, ⟨rfl, rfl⟩, by decide, by decide⟩
theorem witness_PackYuv10StoresWords : PackAccepted (widthOf (onePixel .yuv10) * 4) 4 (onePixel .yuv10) ∧
    PlaneDefined (onePixel .yuv10) ∧ Unraced (onePixel .yuv10) :=
  ⟨onePixel_accepted .yuv10, onePixel_defined _, ⟨rfl, rfl⟩⟩
theorem witness_PackR12StoresNineWords :
    PackAccepted ((widthOf (onePixel .r12b) + 7) / 8 * 36) 36 (onePixel .r12b) ∧
    PlaneDefined (onePixel .r12b) ∧ Unraced (onePixel .r12b) ∧ 0 < (widthOf (onePixel .r12b) + 7) / 8 :=
  ⟨onePixel_accepted .r12b, onePixel_defined _, ⟨rfl, rfl⟩, by decide⟩

theorem witness_RoundTrips : (⟨255, 0, 255⟩ : Pixel).fits 8 ∧ (⟨1023, 0, 1023⟩ : Pixel).fits 10 ∧
    (List.replicate 8 (⟨4095, 0, 4095⟩ : Pixel)).length = 8 ∧
    ∀ p ∈ List.replicate 8 (⟨4095, 0, 4095⟩ : Pixel), p.fits 12 := by
  unfold Pixel.fits
  decide

/-- A map other than the default one: every sample's bits in reverse. It is admissible too, so the statements for
every admissible map say more than those for the default one. -/
def reversedMap (k b : Nat) : SampleBit :=
  { slot := (32 * k + b) / 36, channel := (32 * k + b) / 12 % 3, bit := 11 - (32 * k + b) % 12 }

theorem witness_AdmissibleMap : AdmissibleMap reversedMap := by
  refine ⟨fun k b hk hb => ?_, fun k b k' b' hk hb hk' hb' h => ?_, fun i c n hi hc hn => ?_,
    fun i c hi hc => ?_⟩
  · simp only [reversedMap]
    omega
  · simp only [reversedMap, SampleBit.mk.injEq] at h
    omega
  · refine ⟨(36 * i + 12 * c + (11 - n)) / 32, (36 * i + 12 * c + (11 - n)) % 32, by omega, by omega, ?_⟩
    simp only [reversedMap, SampleBit.mk.injEq]
    omega
  · unfold Straddles carries Neighbours
    rcases Nat.mod_two_eq_zero_or_one (3 * i + c) with hj | hj
    · refine ⟨4, 12, 0, 4, .inr rfl, ⟨3 * ((3 * i + c) / 2) / 4, 3 * ((3 * i + c) / 2) % 4, ?_⟩,
        (3 * ((3 * i + c) / 2) + 1) / 4, (3 * ((3 * i + c) / 2) + 1) % 4, (3 * i + c + 1) / 3, (3 * i + c + 1) % 3,
        8, ?_⟩ <;> interval_cases i <;> interval_cases c <;> revert hj <;> decide
    · refine ⟨0, 8, 8, 12, .inl rfl, ⟨(3 * ((3 * i + c) / 2) + 2) / 4, (3 * ((3 * i + c) / 2) + 2) % 4, ?_⟩,
        (3 * ((3 * i + c) / 2) + 1) / 4, (3 * ((3 * i + c) / 2) + 1) % 4, (3 * i + c - 1) / 3, (3 * i + c - 1) % 3,
        0, ?_⟩ <;> interval_cases i <;> interval_cases c <;> revert hj <;> decide

/-- A block whose `R12_MAP` is that one. -/
def reversedConfig : Config := { defaultConfig with r12Map := reversedMap }

theorem witness_R12HoldsForEveryMap : AdmissibleMap reversedConfig.r12Map ∧
    PackAccepted ((widthOf (onePixel .r12l) + 7) / 8 * 36) 36 (onePixel .r12l) ∧
    PlaneDefined (onePixel .r12l) ∧ Unraced (onePixel .r12l) ∧ 0 < (widthOf (onePixel .r12l) + 7) / 8 :=
  ⟨witness_AdmissibleMap, onePixel_accepted .r12l, onePixel_defined _, ⟨rfl, rfl⟩, by decide⟩

/-- A command that completes and one that stops, at the defaults. -/
theorem witness_ParametersReachOnlyTheirBytes :
    (∃ t, exec (.clamp8 256) State.reset = .next t) ∧ (∃ t, exec .packR210 State.reset = .next t ∧ t.err ≠ 0) ∧
    (∃ e, exec .packRgb8b (small 0 1 1 4 4 []) = .fault e) :=
  ⟨⟨_, rfl⟩, ⟨_, rfl, by decide⟩, _, rfl⟩

theorem witness_R12PartialGroupZeroFilled :
    (∀ p ∈ oneSample 0 0 4095, p.fits 12) ∧ (oneSample 0 0 4095).length = 8 ∧
    (∀ i, i < 8 → 1 ≤ i → slotPixel (oneSample 0 0 4095) i = zeroPixel) ∧ ceilDiv (36 * 1) 8 ≤ 5 := by
  unfold Pixel.fits
  decide

/-- Also for `RowsAreIndependent`, `CommandsHaveNoHistory` and `BytesDoNotDependOnHostLe`, with a second state
that ran other commands. -/
theorem witness_PackWritesExactlyItsExtent :
    (∀ f, PackAccepted (floorStride f (widthOf (onePixel f))) (descriptor f).rowAlign (onePixel f) ∧
      PlaneDefined (onePixel f)) ∧
    (∃ t, exec .packRgb8b State.reset = .next t ∧ t.err ≠ 0) ∧ packFormatOf .geomR210 = none :=
  ⟨fun f => ⟨onePixel_accepted f, onePixel_defined f⟩, ⟨_, rfl, by decide⟩, rfl⟩
theorem witness_CommandsWriteOnlyTheirResults : ∃ t, exec (.clamp8 256) State.reset = .next t := ⟨_, rfl⟩
theorem witness_FaultsAreAllOrNothing : ∃ t, exec .geomR12b State.reset = .next t ∧ t.err ≠ 0 :=
  ⟨_, rfl, by decide⟩
theorem witness_UndefinedSourceStopsThePack :
    PackAccepted (floorStride .yuv8 (widthOf (small 0 1 1 4 4 [1, 2]))) 4 (small 0 1 1 4 4 [1, 2]) ∧
    2 < 3 * widthOf (small 0 1 1 4 4 [1, 2]) * heightOf (small 0 1 1 4 4 [1, 2]) ∧
    Memory.read? (small 0 1 1 4 4 [1, 2]).src 2 = none :=
  ⟨⟨by decide, by decide, by decide, by decide, by decide, by decide⟩, by decide, by decide⟩
theorem witness_CommandsHaveNoHistory : ∃ t, exec .geomYuv8 (wide 3) = .next t ∧
    ({ wide 3 with cmd := 1, result := 7 } : State).width = (wide 3).width := ⟨_, rfl, rfl⟩
/-- The host wrote container 0 and the last byte of the destination while they were lent. -/
theorem witness_RacedPackStillCompletes (f : WireFormat) :
    PackAccepted (floorStride f (widthOf (noteDstRace 3 (noteSrcRace 0 (some 7#16) (onePixel f)))))
      (descriptor f).rowAlign (noteDstRace 3 (noteSrcRace 0 (some 7#16) (onePixel f))) ∧
    PlaneReadable (noteDstRace 3 (noteSrcRace 0 (some 7#16) (onePixel f))) := by
  obtain ⟨h1, h2, h3, h4, h5, h6⟩ := onePixel_accepted f
  refine ⟨⟨h1, h2, h3, h4, h5, h6⟩, onePixel_defined f, fun x hx _ => ?_⟩
  have hx : x ∈ (0, some 7#16) :: (onePixel f).srcRaces := hx
  rw [(onePixel_fields f).1.1] at hx
  rw [List.mem_singleton.1 hx]
  rfl

/-- R267, R268: the engine's read of a raced container is the old value or the new one; a container the host did
not write reads as what it holds. -/
theorem test_raced_read (n : Nat) : pickValue n 0#16 [7#16] = 0#16 ∨ pickValue n 0#16 [7#16] = 7#16 := by
  have h : n % 2 = 0 ∨ n % 2 = 1 := by omega
  rcases h with h | h <;> simp [pickValue, h]
theorem test_unraced_read :
    (match engineRead (noteSrcRace 0 (some 7#16) (onePixel .rgb8b)) 0 2 with
      | .ok v => v
      | .error _ => 0) = 65535 := by decide
/-- R272: a raced container that had no value stops the read. -/
theorem test_raced_undefined_stops :
    (match engineRead (noteSrcRace 0 none (onePixel .rgb8b)) 0 0 with
      | .ok _ => false
      | .error e => decide (e = .srcUndefined 0)) = true := by decide

/-- The host's port: an idle block, a BUSY block and a block in reset, each with any action first. -/
theorem witness_HostPort (a : HostAction) :
    (setAgenda [a] State.reset).agenda = a :: [] ∧ (setAgenda [a] State.reset).resetLine = false ∧
    (setAgenda [a] State.reset).busy = false ∧ (setAgenda [a] State.reset).done = false ∧
    (setAgenda [a] (onePixel .r210)).busy = true ∧ (setAgenda [a] (onePixel .r210)).resetLine = false ∧
    (setAgenda [a] (setResetLine true State.reset)).resetLine = true := by
  exact ⟨rfl, rfl, (by decide : State.reset.busy = false), (by decide : State.reset.done = false),
    (by decide : (onePixel .r210).busy = true), rfl, rfl⟩
theorem witness_WaitPollsAndMovrCopies : (completeOk 7 State.reset).done = true ∧
    (completeOk 7 State.reset).busy = false ∧ (completeOk 7 State.reset).resetLine = false := by decide
/-- R274: `WAIT` may read STATUS again before the engine moves. -/
theorem test_wait_reads :
    (match step { onePixel .rgb8b with agenda := [.wait 1] } with
      | .next t => t.agenda
      | _ => []) = [.wait 0] := by decide
theorem witness_RegisterAccess : 0x24 > 0x20 ∧ 0x21 % 4 ≠ 0 ∧ 8 ≠ 32 ∧ Reg.ofAccess 0x20 32 = some .cfg := by decide
/-- Container 2 is the last one lent to the one-pixel PACK, byte 3 the last one of its destination. -/
theorem witness_HostMemory : Memory.read? (onePixel .rgb8b).src 2 = some 65535#16 ∧
    Memory.read? State.reset.src 0 = none ∧ Memory.read? State.reset.dst 0 = none ∧
    Memory.read? (setDst [(0, 1#8)] State.reset).dst 0 = some 1#8 ∧
    dstLent (onePixel .rgb8b) 3 = true ∧ dstLent (onePixel .rgb8b) 4 = false ∧
    srcLent (onePixel .rgb8b) 2 = true ∧ srcLent (onePixel .rgb8b) 3 = false ∧
    (onePixel .rgb8b).cmd ∈ packWords ∧ (small 0x20000001#32 1 1 4 4 []).cmd ∉ packWords := by decide
/-- A state after one step, with what the host does next. -/
def after (s : State) (l : List HostAction) : State :=
  match step s with
  | .next t => setAgenda l t
  | .fault _ => s
  | .refused _ => s

/-- R267: the byte is lent after DONE = 1 too, until the host has read it; a read of RESULT does not end that. -/
theorem test_lent_until_done_is_read :
    (after (onePixel .rgb8b) []).done = true ∧ dstLent (after (onePixel .rgb8b) []) 3 = true ∧
    dstLent (after (after (onePixel .rgb8b) [.readReg 8 32]) []) 3 = true ∧
    dstLent (after (after (onePixel .rgb8b) [.readReg 4 32]) []) 3 = false ∧
    dstLent (after (after (onePixel .rgb8b) [.wait 0]) []) 3 = false := by decide +kernel
/-- Bytes 0 and 3 of a row of eight are stored by the one-pixel PACK, bytes 4 and 7 are lent and not stored; a
PACK that faults stores none. -/
theorem witness_LentUntilDoneIsRead :
    (small 0x30000001#32 1 2 8 16 [0, 255, 65535]).lent = [⟨2, 8, 4⟩] ∧
    (small 0x30000001#32 1 2 8 15 []).lent = [⟨2, 8, 0⟩] ∧ (small 0x20000001#32 1 2 8 16 []).lent = [] ∧
    (⟨2, 8, 4⟩ : Loan).stores 0 = true ∧ (⟨2, 8, 4⟩ : Loan).stores 11 = true ∧
    (⟨2, 8, 4⟩ : Loan).stores 4 = false ∧ (⟨2, 8, 4⟩ : Loan).covers 15 = true ∧
    (⟨2, 8, 4⟩ : Loan).covers 16 = false := by decide +kernel
/-- Its other premises: the invariant holds of a state with a PACK running. -/
theorem witness_LentUntilDoneIsRead_inv : Inv (onePixel .rgb8b) ∧ runningPack (onePixel .rgb8b) = some .rgb8b :=
  ⟨⟨by decide, by decide, by decide, by decide, by decide, fun h => absurd h (by decide), by decide,
    (fun l hl => by
      have h : runningLoan (onePixel .rgb8b) = some ⟨1, 4, 4⟩ := by decide
      rw [h] at hl
      rw [← Option.some.inj hl]
      decide), by decide, by decide⟩, by decide⟩
/-- R266: a read of a byte nothing has written completes. -/
theorem test_read_unwritten_dst :
    (match step { State.reset with agenda := [.readDst 0] } with
      | .next t => t.agenda.isEmpty
      | _ => false) = true := by decide

theorem witness_ResetPutsRegistersAtTheirValues :
    runningPack State.reset = none ∧ runningPack (small 0x20000004#32 1 0 0 0 []) = none := by decide
theorem witness_ResetAbandonsARunningPack (f : WireFormat) : runningPack (onePixel f) = some f := by
  cases f <;> decide
/-- R260: reset while a PACK runs over containers nothing has written resets the registers all the same. -/
theorem test_reset_of_undefined_pack :
    outcomeOf (step { small 0x30000001#32 1 1 4 4 [] with agenda := [.assertReset] }) = some (0, 0, 0) := by
  decide

theorem witness_StatusStateMachine : ∃ t, step (small 0x1800FFFF#32 0 0 0 0 []) = .next t := ⟨_, rfl⟩
theorem witness_StepKeepsTheInvariant : Inv (small 0x1800FFFF#32 1 1 4 4 [1, 2, 3]) ∧
    ∃ t, step (small 0x1800FFFF#32 1 1 4 4 [1, 2, 3]) = .next t :=
  ⟨⟨by decide, by decide, by decide, by decide, by decide, fun h => absurd h (by decide), by decide,
    (fun l hl => nomatch (show runningLoan (small 0x1800FFFF#32 1 1 4 4 [1, 2, 3]) = none by decide) ▸ hl),
    by decide, by decide⟩, _, rfl⟩
theorem witness_LaunchedCommandEventuallyCompletes :
    (setAgenda [.wait 3, .releaseReset] (onePixel .yuv10)).busy = true ∧
    (setAgenda [.wait 3, .releaseReset] (onePixel .yuv10)).resetLine = false ∧
    HostAction.assertReset ∉ (setAgenda [.wait 3, .releaseReset] (onePixel .yuv10)).agenda ∧
    agendaSteps (setAgenda [.wait 3, .releaseReset] (onePixel .yuv10)).agenda = 5 := by decide

end Sys2Proof.Tests
end

section
/-! PROOFS of the family `00_scope.md`: the idle engine (R8) and the parameters of the block (R10). -/

namespace Sys2Proof.Machine

/-! The idle engine (`00_scope.md` R8, `70_reset_and_hazards.md` R260) -/

/-- The engine is idle exactly without a command or in reset. -/
theorem engineActive_eq_false_iff (s : State) :
    engineActive s = false ↔ s.busy = false ∨ s.resetLine = true := by
  unfold engineActive
  rw [Bool.and_eq_false_iff, Bool.not_eq_false']

@[simp] theorem setAgenda_engineActive (l : List HostAction) (s : State) :
    engineActive (setAgenda l s) = engineActive s := rfl

theorem engineTurn_idle (run : Instr → State → Host.Outcome State Fault Refusal) (s : State)
    (h : engineActive s = false) : engineTurn run s = .next s :=
  if_neg (by simp [h])

/-! Which commands the parameters reach (`00_scope.md` R10) -/

/-- `packInstr` is the only way to a PACK command (`30_encoding.md` R94). -/
theorem packFormatOf_eq_some_iff (i : Instr) (f : WireFormat) : packFormatOf i = some f ↔ i = packInstr f := by
  constructor
  · intro h
    cases i <;> simp only [packFormatOf, Option.some.injEq, reduceCtorEq] at h <;> subst h <;> rfl
  · rintro rfl
    exact packFormatOf_packInstr f

/-- Only the 10-bit RGB and the two 12-bit group functions take a parameter (`44_pack_r210.md` R161,
`46_pack_rgb12.md` R182). -/
theorem applyGroup_of_no_parameter (cfg cfg' : Config) (f : WireFormat) (h1 : f ≠ .r210) (h2 : f ≠ .r12b)
    (h3 : f ≠ .r12l) (hostLe : Bool) (P : List Pixel) :
    applyGroup cfg hostLe (descriptor f).group P = applyGroup cfg' hostLe (descriptor f).group P := by
  cases f with
  | r210 => exact absurd rfl h1
  | r12b => exact absurd rfl h2
  | r12l => exact absurd rfl h3
  | rgb8b | rgb8r | yuv8 | yuv10 => rfl

/-- A command without a parameter means the same in every configuration. -/
theorem execWith_of_no_parameter (cfg : Config) (i : Instr) (s : State) (h1 : i ≠ .packR210)
    (h2 : i ≠ .packR12b) (h3 : i ≠ .packR12l) : execWith cfg i s = exec i s := by
  cases hp : packFormatOf i with
  | none => exact execWith_of_no_pack cfg i hp s
  | some f =>
    obtain rfl := (packFormatOf_eq_some_iff i f).1 hp
    rw [execWith_of_packFormatOf cfg _ f hp, exec_of_packFormatOf _ f hp]
    exact packCommand_congr _ _ f (applyGroup_of_no_parameter _ _ f
      (by rintro rfl; exact h1 rfl) (by rintro rfl; exact h2 rfl) (by rintro rfl; exact h3 rfl)) s

/-! What the parameters leave alone in a PACK -/

/-- A plane is not readable if one of its containers has, or had, no value (`70_reset_and_hazards.md` R268,
R272). -/
theorem not_planeReadable (s : State) (n : Nat) (hn : n < 3 * widthOf s * heightOf s)
    (h : Memory.read? s.src n = none ∨ (n, none) ∈ s.srcRaces) : ¬ PlaneReadable s := by
  intro hd
  obtain ⟨hval, hrace⟩ := readable_container s hd n hn
  rcases h with h | h
  · rw [h] at hval
    cases hval
  · exact hrace h

/-- When a command stops: an accepted PACK over a plane that cannot be read, whatever the configuration. -/
theorem execWith_stops_iff (cfg : Config) (i : Instr) (s : State) :
    (∃ e, execWith cfg i s = .fault e) ↔
      ∃ f, packFormatOf i = some f ∧ PackAccepted (floorStride f (widthOf s)) (descriptor f).rowAlign s ∧
        ¬ PlaneReadable s := by
  constructor
  · rintro ⟨e, he⟩
    rcases execWith_cases cfg i s with ⟨v, _, h⟩ | ⟨c, _, h⟩ | ⟨f, n, hf, ha, hn, hr, _⟩ | ⟨f, _, _, _, h⟩
    · rw [h] at he; cases he
    · rw [h] at he; cases he
    · exact ⟨f, hf, ha, not_planeReadable s n hn hr⟩
    · rw [h] at he; cases he
  · rintro ⟨f, hf, ha, hd⟩
    rw [execWith_of_packFormatOf cfg i f hf]
    rcases packCommand_cases cfg f s with ⟨c, hc, _⟩ | ⟨n, _, _, _, h⟩ | ⟨_, hr, _⟩
    · rw [(packCheck_ok_iff f s _).2 ⟨ha, rfl⟩] at hc
      cases hc
    · exact ⟨_, h⟩
    · exact absurd hr hd

/-- A PACK whose checks fail enters the fault, whatever the configuration (`60_exceptions.md` R236). -/
theorem packCommand_of_check_error (cfg : Config) (f : WireFormat) (s : State) (e : CommandFault)
    (h : packCheck f s = .error e) : packCommand cfg f s = .next (raiseFault e s) := by
  unfold packCommand
  rw [h]

/-- A command that completes in one configuration completes in every other: in the same state, or as a PACK
that stores its own bytes. -/
theorem execWith_next (cfg cfg' : Config) (i : Instr) (s t : State) (h : execWith cfg i s = .next t) :
    execWith cfg' i s = .next t ∨
    ∃ f, packFormatOf i = some f ∧ t = packedState cfg f s ∧ execWith cfg' i s = .next (packedState cfg' f s) := by
  cases hp : packFormatOf i with
  | none =>
    rw [execWith_of_no_pack cfg i hp] at h
    exact .inl ((execWith_of_no_pack cfg' i hp s).trans h)
  | some f =>
    rw [execWith_of_packFormatOf cfg i f hp] at h
    rw [execWith_of_packFormatOf cfg' i f hp]
    rcases packCommand_cases cfg f s with ⟨e, hc, h'⟩ | ⟨n, _, _, _, h'⟩ | ⟨ha, hd, h'⟩
    · exact .inl ((packCommand_of_check_error cfg' f s e hc).trans (h'.symm.trans h))
    · rw [h'] at h; cases h
    · rw [h'] at h
      injection h with h
      exact .inr ⟨f, rfl, h.symm, packCommand_next cfg' f s ha hd⟩

/-- The states a PACK leaves in two configurations differ in the destination alone. -/
theorem packedState_config (cfg cfg' : Config) (f : WireFormat) (s : State) :
    packedState cfg' f s = { packedState cfg f s with dst := (packedState cfg' f s).dst } := by
  rw [packedState_fields cfg, packedState_fields cfg']

@[simp] theorem packedState_err (cfg : Config) (f : WireFormat) (s : State) : (packedState cfg f s).err = 0 :=
  completeOk_err _ _

/-! The statements -/

/-- Settles O9: an idle engine's turn is the state it is given, and a step on the engine's turn gives it the
state without the used-up agenda entry. -/
theorem idleEngineChangesNothing : Obligations.IdleEngineChangesNothing := by
  intro s rest hturn hidle
  rw [step_of_enginesTurn s rest hturn]
  apply engineTurn_idle
  rw [setAgenda_engineActive]
  exact (engineActive_eq_false_iff s).2 hidle

/-- Settles O25: `execWith_of_no_parameter` for the commands the parameters do not reach, `execWith_next` for
those that complete and `execWith_stops_iff`, whose right side names no configuration, for the stops. -/
theorem parametersReachOnlyTheirBytes : Obligations.ParametersReachOnlyTheirBytes := by
  refine ⟨fun i s => by rw [execWith_default], fun s => by rw [stepWith_default], rfl,
    execWith_of_no_parameter, ?_, ?_⟩
  · intro cfg i s t h
    rw [← execWith_default] at h
    rcases execWith_next defaultConfig cfg i s t h with h' | ⟨f, hf, rfl, h'⟩
    · exact ⟨t, h', rfl, fun _ _ => rfl⟩
    · refine ⟨_, h', packedState_config defaultConfig cfg f s, fun o ho => ?_⟩
      have hout : ¬ InExtent (heightOf s) s.stride.toNat (floorStride f (widthOf s)) o :=
        ho.elim (fun herr => absurd (packedState_err defaultConfig f s) herr) (fun hout => hout f hf)
      rw [packedState_read_outside cfg f s o hout, packedState_read_outside defaultConfig f s o hout]
  · intro cfg i s
    rw [← execWith_default, execWith_stops_iff defaultConfig, execWith_stops_iff cfg]

end Sys2Proof.Machine
end

section
/-! PROOFS of the family `10_state.md`: what a move of the host or of the engine does to the registers, the
invariant of the machine, the register port, and what a command's results depend on. -/

namespace Sys2Proof.Machine

/-! Two states that agree on a part of the block -/

/-- The operand registers of `t` are those of `s` (`10_state.md` R22 to R24). -/
structure SameOperands (s t : State) : Prop where
  width : t.width = s.width
  height : t.height = s.height
  stride : t.stride = s.stride
  dstLen : t.dstLen = s.dstLen

/-- The other registers of `t` and its sequencer are those of `s` (R26 to R31, R33). -/
structure SameControl (s t : State) : Prop where
  cmd : t.cmd = s.cmd
  status : t.status = s.status
  result : t.result = s.result
  errInfo : t.errInfo = s.errInfo
  cfg : t.cfg = s.cfg
  seq : t.seq = s.seq

section
variable {s t : State}

theorem SameOperands.symm (h : SameOperands s t) : SameOperands t s :=
  ⟨h.width.symm, h.height.symm, h.stride.symm, h.dstLen.symm⟩

theorem SameOperands.widthOf_eq (h : SameOperands s t) : widthOf t = widthOf s :=
  congrArg (fun w : Word => w.toInt.toNat) h.width

theorem SameOperands.heightOf_eq (h : SameOperands s t) : heightOf t = heightOf s :=
  congrArg (fun w : Word => w.toInt.toNat) h.height

/-- The checks of a GEOM command read WIDTH alone (`41_geometry.md` R128). -/
theorem SameOperands.geomCheck_eq (h : SameOperands s t) (f : WireFormat) : geomCheck f t = geomCheck f s := by
  simp only [geomCheck, State.widthOperand, h.width]

/-- The checks of a PACK command read the operand registers alone (`47_dispatch.md` R204). -/
theorem SameOperands.packCheck_eq (h : SameOperands s t) (f : WireFormat) : packCheck f t = packCheck f s := by
  simp only [packCheck, State.widthOperand, State.heightOperand, State.strideOperand, State.dstLenOperand, h.width,
    h.height, h.stride, h.dstLen]

theorem SameOperands.packAccepted (h : SameOperands s t) (f : WireFormat)
    (ha : PackAccepted (floorStride f (widthOf s)) (descriptor f).rowAlign s) :
    PackAccepted (floorStride f (widthOf t)) (descriptor f).rowAlign t := by
  have hok := (packCheck_ok_iff f s _).2 ⟨ha, rfl⟩
  rw [← h.packCheck_eq] at hok
  exact ((packCheck_ok_iff f t _).1 hok).1

theorem SameControl.busy_eq (h : SameControl s t) : t.busy = s.busy := by
  simp only [State.busy, h.status]

theorem SameControl.done_eq (h : SameControl s t) : t.done = s.done := by
  simp only [State.done, h.status]

theorem SameControl.err_eq (h : SameControl s t) : t.err = s.err := by
  simp only [State.err, h.status]

/-- Which PACK runs, and on which destination, is a matter of CMD, STATUS and the operand registers. -/
theorem SameControl.runningLoan_eq (h : SameControl s t) (ho : SameOperands s t) :
    runningLoan t = runningLoan s := by
  simp only [runningLoan, runningPack, fetchCommand, State.heightOperand, State.strideOperand, h.busy_eq, h.cmd,
    ho.packCheck_eq, ho.height, ho.stride]

/-- Nothing runs on a block that is not BUSY. -/
theorem runningLoan_of_not_busy (h : s.busy = false) : runningLoan s = none := by
  rw [runningLoan_none]
  cases hf : runningPack s with
  | none => rfl
  | some f => exact absurd (runningPack_busy s f hf) (by simp [h])

end

/-! What a move of the host does -/

/-- A move that leaves every register, the sequencer and the reset input alone, ends no loan unless DONE = 1, and
keeps the memories canonical. -/
structure QuietMove (s t : State) : Prop where
  control : SameControl s t
  operands : SameOperands s t
  resetLine : t.resetLine = s.resetLine
  loans : s.done = false → t.lent = s.lent
  src_wf : Memory.wf s.src → Memory.wf t.src
  dst_wf : Memory.wf s.dst → Memory.wf t.dst

/-- What the host's action can make of `s`. -/
inductive HostMove (s t : State) : HostAction → Prop where
  | quiet {a : HostAction} (h : QuietMove s t) : HostMove s t a
  | stored {a : HostAction} (idle : s.busy = false) (released : s.resetLine = false) (w h st n : Word)
      (ht : t = { s with width := w, height := h, stride := st, dstLen := n }) : HostMove s t a
  | launched {a : HostAction} (idle : s.busy = false) (released : s.resetLine = false) (c : Word)
      (ht : t = lend (launch c s)) : HostMove s t a
  | resetAsserted (cfg : Config)
      (ht : t = setResetLine true (resetRegisters (returnLoans (abandonCommand cfg s)))) :
      HostMove s t .assertReset
  | resetReleased {a : HostAction} (ht : t = setResetLine false s) : HostMove s t a

/-- A state that differs from `s` in the memories and the model's own fields. -/
theorem QuietMove.of_fields {s t : State} (h : t = { s with
      src := t.src, dst := t.dst, agenda := t.agenda, rdata := t.rdata, srcRaces := t.srcRaces
      dstRaces := t.dstRaces, lent := t.lent, choices := t.choices })
    (loans : s.done = false → t.lent = s.lent) (src_wf : Memory.wf s.src → Memory.wf t.src)
    (dst_wf : Memory.wf s.dst → Memory.wf t.dst) : QuietMove s t := by
  refine ⟨?_, ?_, ?_, loans, src_wf, dst_wf⟩
  · rw [h]; exact ⟨rfl, rfl, rfl, rfl, rfl, rfl⟩
  · rw [h]; exact ⟨rfl, rfl, rfl, rfl⟩
  · rw [h]

theorem QuietMove.refl (s : State) : QuietMove s s := .of_fields rfl (fun _ => rfl) id id

theorem quietMove_setAgenda (l : List HostAction) (s : State) : QuietMove s (setAgenda l s) :=
  .of_fields rfl (fun _ => rfl) id id

/-- A register write is ignored, stores an operand or launches (R21, R22, R26). -/
theorem acceptWrite_move (r : Reg) (v : Word) (s : State) (a : HostAction) (hr : s.resetLine = false) :
    HostMove s (acceptWrite r v s) a := by
  cases hb : s.busy with
  | true =>
    rw [acceptWrite_busy r v s hb]
    exact .quiet (.refl s)
  | false =>
    by_cases hc : r = .cmd
    · subst hc
      exact .launched hb hr v (acceptWrite_cmd v s hb)
    · rw [acceptWrite_other r v s hc, writeReg_idle r v s hb]
      cases r with
      | cmd => exact absurd rfl hc
      | width => exact .stored hb hr v s.height s.stride s.dstLen rfl
      | height => exact .stored hb hr s.width v s.stride s.dstLen rfl
      | stride => exact .stored hb hr s.width s.height v s.dstLen rfl
      | dstLen => exact .stored hb hr s.width s.height s.stride v rfl
      | status | result | errInfo | cfg => exact .quiet (.refl s)

theorem hostWriteReg_move (offset bits : Nat) (v : Word) (s t : State) (a : HostAction)
    (h : hostWriteReg offset bits v s = .next t) : HostMove s t a := by
  obtain ⟨r, hr, _, rfl⟩ := hostWriteReg_next offset bits v s t h
  exact acceptWrite_move r v s a hr

/-- A register read ends the loans only if it shows DONE = 1 (R32, `70_reset_and_hazards.md` R267). -/
theorem hostReadReg_quiet (offset bits : Nat) (s t : State) (h : hostReadReg offset bits s = .next t) :
    QuietMove s t := by
  obtain ⟨r, _, _, rfl⟩ := hostReadReg_next offset bits s t h
  rcases hostSaw_cases r s with ⟨_, hd, hs⟩ | ⟨_, hs⟩ <;> rw [hs]
  · exact .of_fields rfl (fun hn => absurd hd (by simp [hn])) id id
  · exact .of_fields rfl (fun _ => rfl) id id

theorem hostWait_quiet (reads : Nat) (s t : State) (h : hostWait reads s = .next t) : QuietMove s t := by
  obtain ⟨_, ⟨hd, rfl⟩ | ⟨_, _, rfl⟩ | ⟨k, _, _, rfl⟩⟩ := hostWait_next reads s t h
  · exact .of_fields rfl (fun hn => absurd hd (by simp [hn])) id id
  · exact .of_fields rfl (fun _ => rfl) id id
  · exact .of_fields rfl (fun _ => rfl) id id

theorem hostWriteSrc_quiet (i : Nat) (v : BitVec 16) (s t : State) (h : hostWriteSrc i v s = .next t) :
    QuietMove s t := by
  unfold hostWriteSrc at h
  injection h with h
  subst h
  split
  · exact .of_fields rfl (fun _ => rfl) (Memory.wf_write _ _ _) id
  · exact .of_fields rfl (fun _ => rfl) (Memory.wf_write _ _ _) id

theorem hostReadSrc_quiet (i : Nat) (s t : State) (h : hostReadSrc i s = .next t) : QuietMove s t := by
  obtain ⟨v, _, rfl⟩ := hostReadSrc_next i s t h
  exact .of_fields rfl (fun _ => rfl) id id

theorem hostWriteDst_quiet (o : Nat) (b : Byte) (s t : State) (h : hostWriteDst o b s = .next t) :
    QuietMove s t := by
  rcases hostWriteDst_cases o b s with ⟨_, h'⟩ | ⟨_, _, h' | h'⟩ | ⟨_, _, h'⟩ <;>
    (rw [h'] at h; injection h with h; subst h)
  · exact .of_fields rfl (fun _ => rfl) id (Memory.wf_write _ _ _)
  · exact .of_fields rfl (fun _ => rfl) id (Memory.wf_write _ _ _)
  · exact .of_fields rfl (fun _ => rfl) id id
  · exact .of_fields rfl (fun _ => rfl) id (Memory.wf_write _ _ _)

theorem hostReadDst_quiet (o : Nat) (s t : State) (h : hostReadDst o s = .next t) : QuietMove s t := by
  rcases hostReadDst_cases o s with ⟨_, h'⟩ | ⟨_, h'⟩ <;> (rw [h'] at h; injection h with h; subst h)
  · exact .of_fields rfl (fun _ => rfl) id id
  · exact .of_fields rfl (fun _ => rfl) id id

/-- Everything an action of the host can do to the block (`70_reset_and_hazards.md` R266). -/
theorem hostAct_move (cfg : Config) (a : HostAction) (s t : State) (h : hostAct cfg a s = .next t) :
    HostMove s t a := by
  cases a with
  | engine => injection h with h; exact .quiet (h ▸ .refl s)
  | writeReg offset bits v => exact hostWriteReg_move offset bits v s t _ h
  | readReg offset bits => exact .quiet (hostReadReg_quiet offset bits s t h)
  | writeBack offset bits => exact hostWriteReg_move offset bits s.rdata s t _ h
  | wait reads => exact .quiet (hostWait_quiet reads s t h)
  | writeSrc i v => exact .quiet (hostWriteSrc_quiet i v s t h)
  | readSrc i => exact .quiet (hostReadSrc_quiet i s t h)
  | writeDst o b => exact .quiet (hostWriteDst_quiet o b s t h)
  | readDst o => exact .quiet (hostReadDst_quiet o s t h)
  | assertReset => injection h with h; exact .resetAsserted cfg h.symm
  | releaseReset => injection h with h; exact .resetReleased h.symm

/-! What a turn of the engine does -/

theorem engineActive_iff (s : State) : engineActive s = true ↔ s.busy = true ∧ s.resetLine = false := by
  unfold engineActive
  rw [Bool.and_eq_true, Bool.not_eq_true']

/-- What the engine's turn can make of `s`: nothing, or one of the two ends of a command. -/
inductive EngineMove (s t : State) : Prop where
  | idle (ht : t = s)
  | success (active : engineActive s = true) (value : Nat) (d : Memory Byte) (n : Nat)
      (dst_wf : Memory.wf s.dst → Memory.wf d)
      (ht : t = completeOk value { s with dst := d, choices := n })
  | fault (active : engineActive s = true) (e : CommandFault) (fits : infoFits e.code e.info s.cmd)
      (ht : t = raiseFault e s)

/-- The faults of the checks record what `60_exceptions.md` R234, R235 and R244 ask for. -/
theorem CheckFault.infoFits {e : CommandFault} (h : CheckFault e) (c : Word) : infoFits e.code e.info c := by
  rcases h with ⟨g, rfl⟩ | ⟨n, hpos, hlt, rfl⟩
  · exact ⟨nofun, nofun, fun _ => by cases g <;> decide, nofun, nofun⟩
  · have hn : (BitVec.ofNat 32 n).toNat = n := by rw [BitVec.toNat_ofNat, Nat.mod_eq_of_lt hlt]
    exact ⟨nofun, nofun, nofun, fun _ => hn.symm ▸ hpos, nofun⟩

/-- The faults of the decoder record what R232 and R237 ask for. -/
theorem infoFits_of_decode_error (c : Word) (e : CommandFault) (h : decode c = .error e) :
    infoFits e.code e.info c := by
  rcases decode_error c e h with rfl | ⟨rfl, hfmt⟩
  · exact ⟨nofun, nofun, nofun, nofun, fun _ => rfl⟩
  · have hn : (BitVec.ofNat 32 (slice c.toNat 7 0)).toNat = slice c.toNat 7 0 := by
      rw [BitVec.toNat_ofNat, Nat.mod_eq_of_lt (by omega)]
    exact ⟨nofun, fun _ => hn.symm ▸ hfmt, nofun, nofun, nofun⟩

/-- A command that completes, completes with success or with a fault of its checks. -/
theorem execWith_move (cfg : Config) (i : Instr) (s t : State) (hs : engineActive s = true)
    (h : execWith cfg i s = .next t) : EngineMove s t := by
  rcases execWith_cases cfg i s with ⟨v, _, h'⟩ | ⟨e, he, h'⟩ | ⟨f, n, _, _, _, _, h'⟩ | ⟨f, _, _, _, h'⟩ <;>
    rw [h'] at h
  · injection h with h
    exact .success hs v s.dst s.choices id h.symm
  · injection h with h
    exact .fault hs e (he.infoFits s.cmd) h.symm
  · cases h
  · injection h with h
    exact .success hs _ _ _ (Memory.wf_writeAll _ _) (h.symm.trans (packedState_fields cfg f s))

theorem engineTurn_move (cfg : Config) (s t : State) (h : engineTurn (execWith cfg) s = .next t) :
    EngineMove s t := by
  rcases engineTurn_cases (execWith cfg) s with ⟨_, h'⟩ | ⟨i, ha, _, h'⟩ | ⟨e, ha, hd, h'⟩ <;> rw [h'] at h
  · injection h with h
    exact .idle h.symm
  · exact execWith_move cfg i s t ha h
  · injection h with h
    exact .fault ha e (infoFits_of_decode_error _ _ hd) h.symm

/-- Everything a step can do, in a block of any configuration: a move of the engine or of the host, from the state
without the used-up agenda entry. -/
theorem stepWith_move (cfg : Config) (s t : State) (h : stepWith cfg s = .next t) :
    ∃ rest, EngineMove (setAgenda rest s) t ∨ ∃ a, s.agenda = a :: rest ∧ HostMove (setAgenda rest s) t a := by
  rcases stepBy_cases cfg (execWith cfg) s with ⟨rest, _, h'⟩ | ⟨a, rest, ha, _, h'⟩
  · exact ⟨rest, .inl (engineTurn_move cfg _ t (h'.symm.trans h))⟩
  · exact ⟨rest, .inr ⟨a, ha, hostAct_move cfg a _ t (h'.symm.trans h)⟩⟩

/-! The values of STATUS (`10_state.md` R27) -/

theorem CommandFault.code_cases (e : CommandFault) : e.code = 1 ∨ e.code = 2 ∨ e.code = 3 ∨ e.code = 4 := by
  cases e <;> simp [CommandFault.code]

theorem statusDone_code_mem_legalStatus (e : CommandFault) : statusDone e.code ∈ legalStatus := by
  rcases e.code_cases with h | h | h | h <;> rw [h] <;> decide

theorem statusDone_zero_mem_legalStatus : statusDone 0 ∈ legalStatus := by decide

theorem statusDone_code_ne_zero (e : CommandFault) : statusDone e.code ≠ 0 := by
  rcases e.code_cases with h | h | h | h <;> rw [h] <;> decide

/-- A launched command is not done. -/
theorem launch_done (c : Word) (s : State) : (launch c s).done = false := by
  unfold State.done
  rw [launch_status]
  decide

/-- No legal STATUS shows both BUSY and DONE. -/
theorem done_eq_false_of_busy {s : State} (hs : s.status ∈ legalStatus) (hb : s.busy = true) : s.done = false := by
  have excl : (legalStatus.all fun w => !(w.getLsbD 0 && w.getLsbD 1)) = true := by decide
  have h : (!(s.busy && s.done)) = true := List.all_eq_true.1 excl _ hs
  simpa [hb] using h

theorem busy_eq_false_of_status_zero {s : State} (h : s.status = 0) : s.busy = false := by
  unfold State.busy
  rw [h]
  decide

theorem done_eq_false_of_status_zero {s : State} (h : s.status = 0) : s.done = false := by
  unfold State.done
  rw [h]
  decide

/-! Lending at a launch (`70_reset_and_hazards.md` R270) -/

/-- Lending changes the list of loans alone. -/
theorem lend_fields (s : State) : lend s = { s with lent := (lend s).lent } := by
  rcases lend_cases s with ⟨_, h⟩ | ⟨l, _, h⟩
  · rw [h]
  · rw [h]
    rfl

theorem lend_sameControl (s : State) : SameControl s (lend s) := by
  rw [lend_fields]
  exact ⟨rfl, rfl, rfl, rfl, rfl, rfl⟩

theorem lend_resetLine (s : State) : (lend s).resetLine = s.resetLine := by rw [lend_fields]

theorem lend_src (s : State) : (lend s).src = s.src := by rw [lend_fields]

theorem lend_dst (s : State) : (lend s).dst = s.dst := by rw [lend_fields]

/-! The invariant through each move -/

section
variable {s t : State}

/-- What is left to show of a move that leaves the control registers alone. -/
theorem Inv.of_sameControl (hi : Inv s) (h : SameControl s t)
    (reset_held : t.resetLine = true → s.resetLine = true ∧ SameOperands s t)
    (lent_running : ∀ l, runningLoan t = some l → l ∈ t.lent) (src_wf : Memory.wf t.src)
    (dst_wf : Memory.wf t.dst) : Inv t where
  status_legal := h.status ▸ hi.status_legal
  seq_busy := by rw [h.seq, h.busy_eq, hi.seq_busy]
  cfg_reserved := h.cfg ▸ hi.cfg_reserved
  idle_clear := by rw [h.status, h.cmd, h.result, h.errInfo]; exact hi.idle_clear
  fault_result := by rw [h.done_eq, h.err_eq, h.result]; exact hi.fault_result
  info_fits := by rw [h.done_eq, h.err_eq, h.errInfo, h.cmd]; exact hi.info_fits
  reset_held := fun ht => by
    obtain ⟨hs, ho⟩ := reset_held ht
    rw [h.status, ho.width, ho.height, ho.stride, ho.dstLen]
    exact hi.reset_held hs
  lent_running := lent_running
  src_wf := src_wf
  dst_wf := dst_wf

/-- A quiet move keeps the invariant: the loans of a running PACK stay, since DONE is 0 while it runs. -/
theorem QuietMove.inv (h : QuietMove s t) (hi : Inv s) : Inv t := by
  refine hi.of_sameControl h.control (fun ht => ⟨h.resetLine ▸ ht, h.operands⟩) ?_ (h.src_wf hi.src_wf)
    (h.dst_wf hi.dst_wf)
  intro l hl
  rw [h.control.runningLoan_eq h.operands] at hl
  obtain ⟨f, hf, _⟩ := runningLoan_some s l hl
  rw [h.loans (done_eq_false_of_busy hi.status_legal (runningPack_busy s f hf))]
  exact hi.lent_running l hl

/-- A stored operand keeps the invariant: the block is neither BUSY nor in reset. -/
theorem Inv.stored (hi : Inv s) (idle : s.busy = false) (released : s.resetLine = false) (w h st n : Word) :
    Inv { s with width := w, height := h, stride := st, dstLen := n } := by
  refine hi.of_sameControl ⟨rfl, rfl, rfl, rfl, rfl, rfl⟩ (fun ht => absurd ht (by simp [released]))
    (fun l hl => ?_) hi.src_wf hi.dst_wf
  cases hl.symm.trans (runningLoan_of_not_busy idle)

theorem Inv.setResetLine_false (hi : Inv s) : Inv (setResetLine false s) :=
  hi.of_sameControl ⟨rfl, rfl, rfl, rfl, rfl, rfl⟩ (fun ht => nomatch ht) hi.lent_running hi.src_wf hi.dst_wf

/-- A launch keeps the invariant: it enters BUSY with a sequencer, and a PACK's destination is lent
(`10_state.md` R26, R28; `70_reset_and_hazards.md` R270). -/
theorem Inv.launched (hi : Inv s) (released : s.resetLine = false) (c : Word) : Inv (lend (launch c s)) where
  status_legal := by rw [(lend_sameControl _).status, launch_status]; decide
  seq_busy := by rw [(lend_sameControl _).seq, (lend_sameControl _).busy_eq, launch_busy, launch_seq]; rfl
  cfg_reserved := by rw [(lend_sameControl _).cfg]; exact hi.cfg_reserved
  idle_clear := by rw [(lend_sameControl _).status, launch_status]; intro h; exact absurd h (by decide)
  fault_result := by rw [(lend_sameControl _).done_eq, launch_done]; simp
  info_fits := by rw [(lend_sameControl _).done_eq, launch_done]; simp
  reset_held := by rw [lend_resetLine, launch_resetLine, released]; simp
  lent_running := mem_lend _
  src_wf := by rw [lend_src]; exact hi.src_wf
  dst_wf := by rw [lend_dst]; exact hi.dst_wf

/-- A success keeps the invariant (R29, R30, R33). -/
theorem Inv.completeOk (hi : Inv s) (released : s.resetLine = false) (v : Nat) :
    Inv (Machine.completeOk v s) where
  status_legal := statusDone_zero_mem_legalStatus
  seq_busy := by rw [completeOk_busy]; rfl
  cfg_reserved := hi.cfg_reserved
  idle_clear := fun h => absurd h (by rw [completeOk_status]; decide)
  fault_result := fun _ h => absurd (completeOk_err s v) h
  info_fits := fun _ => by rw [completeOk_err, completeOk_errInfo]; simp [infoFits]
  reset_held := fun h => absurd h (by simp [released])
  lent_running := by rw [runningLoan_of_not_busy (completeOk_busy s v)]; simp
  src_wf := hi.src_wf
  dst_wf := hi.dst_wf

/-- A fault whose detail fits keeps the invariant (R29, R30, `60_exceptions.md` R236). -/
theorem Inv.raiseFault (hi : Inv s) (released : s.resetLine = false) (e : CommandFault)
    (fits : infoFits e.code e.info s.cmd) : Inv (Machine.raiseFault e s) where
  status_legal := statusDone_code_mem_legalStatus e
  seq_busy := by rw [raiseFault_busy]; rfl
  cfg_reserved := hi.cfg_reserved
  idle_clear := fun h => absurd h (statusDone_code_ne_zero e)
  fault_result := fun _ _ => rfl
  info_fits := fun _ => by rw [raiseFault_err]; exact fits
  reset_held := fun h => absurd h (by simp [released])
  lent_running := by rw [runningLoan_of_not_busy (raiseFault_busy s e)]; simp
  src_wf := hi.src_wf
  dst_wf := hi.dst_wf

/-- A block in its reset state meets the invariant, whatever the memories hold (R36,
`70_reset_and_hazards.md` R261). -/
theorem inv_of_reset (cmd : s.cmd = 0) (status : s.status = 0) (result : s.result = 0) (errInfo : s.errInfo = 0)
    (seq : s.seq = none) (operands : s.width = 0 ∧ s.height = 0 ∧ s.stride = 0 ∧ s.dstLen = 0)
    (cfg_reserved : s.cfg.toNat < 2) (src_wf : Memory.wf s.src) (dst_wf : Memory.wf s.dst) : Inv s where
  status_legal := by rw [status]; decide
  seq_busy := by rw [seq, busy_eq_false_of_status_zero status]; rfl
  cfg_reserved := cfg_reserved
  idle_clear := fun _ => ⟨cmd, result, errInfo⟩
  fault_result := fun _ _ => result
  info_fits := by rw [done_eq_false_of_status_zero status]; simp
  reset_held := fun _ => ⟨status, operands⟩
  lent_running := by rw [runningLoan_of_not_busy (busy_eq_false_of_status_zero status)]; simp
  src_wf := src_wf
  dst_wf := dst_wf

/-- What reset does to a running command keeps the invariant's memories and CFG (R262, R263). -/
theorem abandonCommand_keeps (cfg : Config) (s : State) : (abandonCommand cfg s).cfg = s.cfg ∧
    (abandonCommand cfg s).src = s.src ∧ (Memory.wf s.dst → Memory.wf (abandonCommand cfg s).dst) := by
  rcases abandonCommand_cases cfg s with h | ⟨f, _, _, h⟩ <;> rw [h]
  · exact ⟨rfl, rfl, id⟩
  · exact ⟨rfl, rfl, Memory.wf_writeAll _ _⟩

theorem Inv.resetAsserted (hi : Inv s) (cfg : Config) :
    Inv (setResetLine true (resetRegisters (returnLoans (abandonCommand cfg s)))) := by
  obtain ⟨hcfg, hsrc, hdst⟩ := abandonCommand_keeps cfg s
  exact inv_of_reset rfl rfl rfl rfl rfl ⟨rfl, rfl, rfl, rfl⟩ (hcfg ▸ hi.cfg_reserved) (hsrc ▸ hi.src_wf)
    (hdst hi.dst_wf)

theorem HostMove.inv {a : HostAction} (h : HostMove s t a) (hi : Inv s) : Inv t := by
  cases h with
  | quiet h => exact h.inv hi
  | stored idle released w h st n ht => exact ht ▸ hi.stored idle released w h st n
  | launched idle released c ht => exact ht ▸ hi.launched released c
  | resetAsserted cfg ht => exact ht ▸ hi.resetAsserted cfg
  | resetReleased ht => exact ht ▸ hi.setResetLine_false

theorem EngineMove.inv (h : EngineMove s t) (hi : Inv s) : Inv t := by
  cases h with
  | idle ht => exact ht ▸ hi
  | success active v d n dst_wf ht =>
    have hq : QuietMove s { s with dst := d, choices := n } := .of_fields rfl (fun _ => rfl) id dst_wf
    exact ht ▸ (hq.inv hi).completeOk ((engineActive_iff s).1 active).2 v
  | fault active e fits ht => exact ht ▸ hi.raiseFault ((engineActive_iff s).1 active).2 e fits

end

theorem stepWith_keeps_inv (cfg : Config) (s t : State) (hi : Inv s) (h : stepWith cfg s = .next t) : Inv t := by
  obtain ⟨rest, hm | ⟨a, _, hm⟩⟩ := stepWith_move cfg s t h
  · exact hm.inv ((quietMove_setAgenda rest s).inv hi)
  · exact hm.inv ((quietMove_setAgenda rest s).inv hi)

/-! The statements on the whole machine -/

/-- Settles O59: a step is a move of the engine or of the host (`stepWith_move`), and each move keeps the
invariant. -/
theorem stepKeepsTheInvariant : Obligations.StepKeepsTheInvariant := by
  rintro s t hi (h | ⟨cfg, h⟩)
  · rw [← stepWith_default] at h
    exact stepWith_keeps_inv defaultConfig s t hi h
  · exact stepWith_keeps_inv cfg s t hi h

/-- Settles O58: `inv_of_reset` at `State.resetOf`, whose CFG is a single bit. -/
theorem resetMeetsTheInvariant : Obligations.ResetMeetsTheInvariant := by
  have key : ∀ cfg : Config, Inv (State.resetOf cfg) := by
    intro cfg
    have hcfg : (bit0 cfg.hostLe).toNat < 2 := by cases cfg.hostLe <;> decide
    exact inv_of_reset rfl rfl rfl rfl rfl ⟨rfl, rfl, rfl, rfl⟩ hcfg .nil .nil
  exact ⟨key defaultConfig, key⟩

/-- Settles O57, by the moves of `stepWith_move`. -/
theorem statusStateMachine : Obligations.StatusStateMachine := by
  intro s t h
  rw [← stepWith_default] at h
  obtain ⟨rest, hm | ⟨a, ha, hm⟩⟩ := stepWith_move defaultConfig s t h
  · cases hm with
    | idle ht => exact .inl (ht ▸ ⟨rfl, rfl, rfl⟩)
    | success active v d n _ ht =>
      rw [ht]
      exact .inr (.inr (.inl ⟨((engineActive_iff s).1 active).1, completeOk_done _ v, completeOk_busy _ v,
        statusDone_zero_mem_legalStatus⟩))
    | fault active e _ ht =>
      rw [ht]
      exact .inr (.inr (.inl ⟨((engineActive_iff s).1 active).1, raiseFault_done _ e, raiseFault_busy _ e,
        statusDone_code_mem_legalStatus e⟩))
  · cases hm with
    | quiet h => exact .inl ⟨h.control.status, h.control.result, h.control.errInfo⟩
    | stored _ _ w h st n ht => exact .inl (ht ▸ ⟨rfl, rfl, rfl⟩)
    | launched idle _ c ht =>
      have hl := lend_sameControl (launch c (setAgenda rest s))
      rw [ht]
      exact .inr (.inl ⟨idle, hl.status.trans statusBusy_eq, hl.result, hl.errInfo⟩)
    | resetAsserted cfg ht => exact .inr (.inr (.inr ⟨⟨rest, ha⟩, ht ▸ ⟨rfl, rfl, rfl⟩⟩))
    | resetReleased ht => exact .inl (ht ▸ ⟨rfl, rfl, rfl⟩)

/-! What a command answers and stores (`10_state.md` R25, R34) -/

/-- STATUS, RESULT and ERR_INFO of `t` are those of `s`. -/
structure SameResults (s t : State) : Prop where
  status : t.status = s.status
  result : t.result = s.result
  errInfo : t.errInfo = s.errInfo

/-- STATUS after a fault of the checks of a GEOM or PACK command (`60_exceptions.md` R231). -/
theorem CheckFault.status_cases {e : CommandFault} (h : CheckFault e) :
    statusDone e.code = 0x00000022#32 ∨ statusDone e.code = 0x00000032#32 := by
  rcases h with ⟨g, rfl⟩ | ⟨n, _, _, rfl⟩
  · exact .inl (statusDone_code (.malformedGeometry g))
  · exact .inr (statusDone_code (.bufferTooSmall n))

/-- Settles O37: `exec_cases` names the three ways a command ends, and each is an update of the named fields. -/
theorem commandsWriteOnlyTheirResults : Obligations.CommandsWriteOnlyTheirResults := by
  intro i s t h
  rcases exec_cases i s with ⟨v, _, h'⟩ | ⟨e, he, h'⟩ | ⟨f, n, _, _, _, _, h'⟩ | ⟨f, _, _, _, h'⟩ <;> rw [h'] at h
  · injection h with h
    subst h
    exact ⟨rfl, fun _ => rfl, .inl statusDone_zero⟩
  · injection h with h
    subst h
    exact ⟨rfl, fun _ => rfl, .inr he.status_cases⟩
  · cases h
  · injection h with h
    subst h
    refine ⟨?_, packedState_choices defaultConfig f s, .inl ?_⟩
    · rw [packedState_fields]
    · rw [packedState_fields]
      exact statusDone_zero

section
variable {s s' : State}

theorem geomCommand_sameResults (h : SameOperands s s') (f : WireFormat) (t : State)
    (ht : geomCommand f s = .next t) : ∃ t', geomCommand f s' = .next t' ∧ SameResults t t' := by
  unfold geomCommand at ht ⊢
  rw [h.geomCheck_eq]
  cases hc : geomCheck f s with
  | error e =>
    rw [hc] at ht
    injection ht with ht
    exact ⟨_, rfl, ht ▸ ⟨rfl, rfl, rfl⟩⟩
  | ok fs =>
    rw [hc] at ht
    injection ht with ht
    exact ⟨_, rfl, ht ▸ ⟨rfl, rfl, rfl⟩⟩

/-- A command other than a PACK answers from its immediate or from WIDTH. -/
theorem exec_sameResults_of_no_pack (h : SameOperands s s') (i : Instr) (hp : packFormatOf i = none) (t : State)
    (ht : exec i s = .next t) : ∃ t', exec i s' = .next t' ∧ SameResults t t' := by
  cases i with
  | clamp8 v | clamp10 v | clamp12 v =>
    injection ht with ht
    exact ⟨_, rfl, ht ▸ ⟨rfl, rfl, rfl⟩⟩
  | geomRgb8b | geomRgb8r | geomYuv8 | geomR210 | geomYuv10 | geomR12b | geomR12l =>
    exact geomCommand_sameResults h _ t ht
  | packRgb8b | packRgb8r | packYuv8 | packR210 | packYuv10 | packR12b | packR12l => cases hp

theorem pixelAt_of_same (h : SameOperands s s') (hsrc : s'.src = s.src) (d y x : Nat) :
    pixelAt s' d y x = pixelAt s d y x := by
  simp only [pixelAt, sampleAt, h.widthOf_eq, hsrc]

/-- The packed bytes depend on the format, WIDTH and the source, and not on the lane order (`20_memory.md` R58). -/
theorem packedByte_of_same (h : SameOperands s s') (hsrc : s'.src = s.src) (cfg : Config) (f : WireFormat)
    (y k : Nat) : packedByte cfg f s' y k = packedByte cfg f s y k := by
  simp only [packedByte, packedGroup, groupSlots, pixelAt_of_same h hsrc,
    applyGroup_hostLe cfg s'.hostLe s.hostLe]

theorem planeReadable_of_same (h : SameOperands s s') (hsrc : s'.src = s.src) (hr : Unraced s')
    (hd : PlaneReadable s) : PlaneReadable s' := by
  refine planeReadable_of_unraced s' (fun n hn => ?_) hr.1
  rw [h.widthOf_eq, h.heightOf_eq] at hn
  rw [hsrc]
  exact hd.1 n hn

/-- Two PACKs of the same operands and source leave the same bytes in their extent. -/
theorem packedState_read_of_same (h : SameOperands s s') (hsrc : s'.src = s.src) (cfg : Config) (f : WireFormat)
    (hr : Unraced s) (hr' : Unraced s') (hst : floorStride f (widthOf s) ≤ s.stride.toNat) (o : Nat)
    (ho : InExtent (heightOf s) s.stride.toNat (floorStride f (widthOf s)) o) :
    Memory.read? (packedState cfg f s').dst o = Memory.read? (packedState cfg f s).dst o := by
  obtain ⟨y, k, hy, hk, rfl⟩ := ho
  have h' := packedState_read_extent cfg f s' hr'
  rw [h.widthOf_eq, h.heightOf_eq, h.stride] at h'
  rw [h' hst y k hy hk, packedState_read_extent cfg f s hr hst y k hy hk, packedByte_of_same h hsrc]

end

/-- Settles O42: the checks read the operand registers alone, and the packed bytes the operands and the source. -/
theorem commandsHaveNoHistory : Obligations.CommandsHaveNoHistory := by
  intro i s s' t ht hr hr' hw hh hstr hlen hsrc
  have hop : SameOperands s s' := ⟨hw, hh, hstr, hlen⟩
  cases hp : packFormatOf i with
  | none =>
    obtain ⟨t', ht', hres⟩ := exec_sameResults_of_no_pack hop i hp t ht
    exact ⟨t', ht', hres.status, hres.result, hres.errInfo, fun f hf => by cases hf⟩
  | some f =>
    rw [exec_of_packFormatOf i f hp] at ht
    rw [exec_of_packFormatOf i f hp]
    rcases packCommand_cases defaultConfig f s with ⟨e, hc, h⟩ | ⟨n, _, _, _, h⟩ | ⟨ha, hd, h⟩ <;> rw [h] at ht
    · injection ht with ht
      subst ht
      refine ⟨_, packCommand_of_check_error defaultConfig f s' e ((hop.packCheck_eq f).trans hc), rfl, rfl, rfl, ?_⟩
      intro g _ herr
      rw [raiseFault_err] at herr
      have := e.code_cases
      omega
    · cases ht
    · injection ht with ht
      subst ht
      refine ⟨_, packCommand_next defaultConfig f s' (hop.packAccepted f ha)
        (planeReadable_of_same hop hsrc hr' hd), ?_, ?_, ?_, ?_⟩
      · rw [packedState_fields, packedState_fields]
      · rw [packedState_fields, packedState_fields, hop.widthOf_eq]
      · rw [packedState_fields, packedState_fields]
      · intro g hg _ o ho
        cases hg
        exact packedState_read_of_same hop hsrc defaultConfig f hr hr' ha.stride_covers o ho

/-! Launching a word (`10_state.md` R26, `30_encoding.md` R87) -/

theorem decode_of_decodeTableWord (nbits w : Nat) (i : Instr) (h : decodeTableWord nbits w = some i) :
    decode (BitVec.ofNat 32 (w % 2 ^ nbits)) = .ok i := by
  unfold decodeTableWord at h
  cases hd : decode (BitVec.ofNat 32 (w % 2 ^ nbits)) with
  | error e => simp [hd] at h
  | ok j =>
    rw [hd] at h
    injection h with h
    rw [h]

/-- With a command launched, the engine's turn is the meaning of the decoded command. -/
theorem engineTurn_of_decode (run : Instr → State → Host.Outcome State Fault Refusal) (s : State) (i : Instr)
    (ha : engineActive s = true) (hd : decode s.cmd = .ok i) : engineTurn run s = run i s := by
  unfold engineTurn fetchCommand
  rw [if_pos ha, hd]

@[simp] theorem placeCommand_cmd (c : Word) (s : State) : (placeCommand c s).cmd = c :=
  (lend_sameControl (launch c s)).cmd

theorem placeCommand_active (c : Word) (s : State) : engineActive (placeCommand c s) = true :=
  (engineActive_iff _).2 ⟨(lend_sameControl (launch c s)).busy_eq.trans (launch_busy s c), rfl⟩

/-- Placing a command puts the engine's turn before the host's agenda (log entry 5). -/
theorem placeCommand_enginesTurn (c : Word) (s : State) : EnginesTurn (placeCommand c s) s.agenda := by
  unfold EnginesTurn placeCommand
  rw [setAgenda_agenda]
  cases s.agenda with
  | nil => exact .inl ⟨rfl, rfl⟩
  | cons a rest => exact .inr rfl

/-- Settles O7: the placed word is launched and the turn is the engine's. -/
theorem placedWordRunsNext : Obligations.PlacedWordRunsNext := by
  intro s nbits w i h
  unfold State.withFetchWord
  rw [step_of_enginesTurn _ _ (placeCommand_enginesTurn _ s)]
  apply engineTurn_of_decode
  · rw [setAgenda_engineActive]
    exact placeCommand_active _ s
  · rw [setAgenda_cmd, placeCommand_cmd]
    exact decode_of_decodeTableWord nbits w i h

/-- The launch of a PACK runs it. -/
theorem runningPack_launch (c : Word) (s : State) (f : WireFormat) (h : decode c = .ok (packInstr f)) :
    runningPack (launch c s) = some f := by
  unfold runningPack fetchCommand
  rw [launch_busy, launch_cmd, h]
  exact packFormatOf_packInstr f

/-- The launch of any other word lends nothing (`70_reset_and_hazards.md` R270). -/
theorem lend_launch_of_no_pack (c : Word) (s : State) (h : c ∉ packWords) : lend (launch c s) = launch c s := by
  rcases lend_cases (launch c s) with ⟨_, he⟩ | ⟨l, hl, _⟩
  · exact he
  · obtain ⟨f, hf, _⟩ := runningLoan_some _ l hl
    exact absurd ((runningPack_isSome _).1 (by rw [hf]; rfl)).2 h

theorem launch_sameOperands (c : Word) (s : State) : SameOperands s (launch c s) := ⟨rfl, rfl, rfl, rfl⟩

/-- The launch of a PACK lends its destination, with the bytes it is to store if its checks pass (R267, R270). -/
theorem lend_launch_pack (c : Word) (s : State) (f : WireFormat) (h : decode c = .ok (packInstr f)) :
    ∃ n, (lend (launch c s)).lent = ⟨heightOf s, s.stride.toNat, n⟩ :: s.lent ∧
      (PackAccepted (floorStride f (widthOf s)) (descriptor f).rowAlign s → n = floorStride f (widthOf s)) ∧
      (¬ PackAccepted (floorStride f (widthOf s)) (descriptor f).rowAlign s → n = 0) := by
  have hrun := runningPack_launch c s f h
  have hop := launch_sameOperands c s
  rcases lend_cases (launch c s) with ⟨hn, _⟩ | ⟨⟨rows, stride, n⟩, hl, he⟩
  · rw [runningLoan_none, hrun] at hn
    cases hn
  · obtain ⟨g, hg, hrows, hstride, hacc, hrej⟩ := runningLoan_some _ _ hl
    obtain rfl : f = g := by rw [hrun] at hg; injection hg
    refine ⟨n, ?_, fun ha => hacc (hop.packAccepted f ha), fun ha => hrej fun ha' => ha (hop.symm.packAccepted f ha')⟩
    obtain rfl : rows = heightOf s := hrows
    obtain rfl : stride = s.stride.toNat := hstride
    rw [he]
    rfl

/-! The register port (`10_state.md` R20 to R26, R32) -/

section
variable (s : State) (rest : List HostAction)

@[simp] theorem setAgenda_busy : (setAgenda rest s).busy = s.busy := rfl

@[simp] theorem setAgenda_done : (setAgenda rest s).done = s.done := rfl

/-- A whole, aligned write at a register's offset reaches it, outside reset. -/
theorem step_writeReg (r : Reg) (v : Word) (ha : s.agenda = .writeReg r.offset 32 v :: rest)
    (hr : s.resetLine = false) : step s = .next (acceptWrite r v (setAgenda rest s)) := by
  rw [step_of_host s _ rest ha (by simp)]
  exact hostWriteReg_of_offset r v _ hr

/-- `MOVR`'s write is one of the value the host read last (`30_encoding.md` R93). -/
theorem step_writeBack (r : Reg) (ha : s.agenda = .writeBack r.offset 32 :: rest) (hr : s.resetLine = false) :
    step s = .next (acceptWrite r s.rdata (setAgenda rest s)) := by
  rw [step_of_host s _ rest ha (by simp)]
  exact hostWriteReg_of_offset r s.rdata _ hr

theorem step_readReg (r : Reg) (ha : s.agenda = .readReg r.offset 32 :: rest) (hr : s.resetLine = false) :
    step s = .next (setRdata (readReg r (setAgenda rest s)) (hostSaw r (setAgenda rest s))) := by
  rw [step_of_host s _ rest ha (by simp)]
  exact hostReadReg_of_offset r _ hr

/-- A write of a register other than CMD lends nothing. -/
theorem step_writeReg_of_ne_cmd (r : Reg) (v : Word) (hc : r ≠ .cmd)
    (ha : s.agenda = .writeReg r.offset 32 v :: rest) (hr : s.resetLine = false) :
    step s = .next (writeReg r v (setAgenda rest s)) := by
  rw [step_writeReg s rest r v ha hr, acceptWrite_other r v _ hc]

end

/-- STATUS, RESULT, ERR_INFO and CFG, which the host cannot write (R21). -/
def Reg.readOnly (r : Reg) : Prop := r = .status ∨ r = .result ∨ r = .errInfo ∨ r = .cfg

/-- A write of a read-only register is ignored, BUSY or not (R21). -/
theorem acceptWrite_readOnly (r : Reg) (v : Word) (s : State) (h : r.readOnly) : acceptWrite r v s = s := by
  cases hb : s.busy with
  | true => exact acceptWrite_busy r v s hb
  | false =>
    rcases h with rfl | rfl | rfl | rfl <;> rw [acceptWrite_other _ _ _ (by decide), writeReg_idle _ _ _ hb]

theorem Reg.offset_aligned (r : Reg) : r.offset % 4 = 0 ∧ r.offset ≤ 0x20 := by
  cases r <;> decide

/-- An access of another width, misaligned or above 0x20 reaches no register (R20, R21). -/
theorem regAccess_refused (offset bits : Nat) (s : State) (hr : s.resetLine = false)
    (h : bits ≠ 32 ∨ offset % 4 ≠ 0 ∨ 0x20 < offset) :
    regAccess offset bits s = .error (.registerAccess offset bits) := by
  unfold regAccess
  rw [if_neg (by simp [hr])]
  cases hacc : Reg.ofAccess offset bits with
  | none => rfl
  | some r =>
    obtain ⟨hbits, hoff⟩ := ofAccess_some offset bits r hacc
    have := r.offset_aligned
    omega

theorem hostWriteReg_refused (offset bits : Nat) (v : Word) (s : State) (hr : s.resetLine = false)
    (h : bits ≠ 32 ∨ offset % 4 ≠ 0 ∨ 0x20 < offset) :
    hostWriteReg offset bits v s = .refused (.registerAccess offset bits) := by
  unfold hostWriteReg
  rw [regAccess_refused offset bits s hr h]

theorem hostReadReg_refused (offset bits : Nat) (s : State) (hr : s.resetLine = false)
    (h : bits ≠ 32 ∨ offset % 4 ≠ 0 ∨ 0x20 < offset) :
    hostReadReg offset bits s = .refused (.registerAccess offset bits) := by
  unfold hostReadReg
  rw [regAccess_refused offset bits s hr h]

/-- Settles O45: an accepted write of CMD is a launch, and `lend` changes the list of loans alone. -/
theorem cmdWriteLaunches : Obligations.CmdWriteLaunches := by
  intro s c rest ha hr
  have hstep := step_writeReg s rest .cmd c ha hr
  refine ⟨fun hb => ⟨(lend (launch c (setAgenda rest s))).lent, ?_, fun hc => ?_, fun f hd => ?_⟩, fun hb => ?_⟩
  · rw [hstep, acceptWrite_cmd c (setAgenda rest s) hb, lend_fields, ← statusBusy_eq]
    rfl
  · rw [lend_launch_of_no_pack c _ hc]
    rfl
  · obtain ⟨n, hl, hacc, hrej⟩ := lend_launch_pack c (setAgenda rest s) f hd
    have hop : SameOperands s (setAgenda rest s) := ⟨rfl, rfl, rfl, rfl⟩
    exact ⟨n, hl, fun h => hacc (hop.packAccepted f h), fun h => hrej fun h' => h (hop.symm.packAccepted f h')⟩
  · rw [hstep, acceptWrite_busy .cmd c (setAgenda rest s) hb]
    rfl

/-- Settles O46: `acceptWrite_busy` for the writes, and `hostSaw_cases` for what a read can end. -/
theorem busyIgnoresWritesAndReadsAreFree : Obligations.BusyIgnoresWritesAndReadsAreFree := by
  intro s r v rest hr
  refine ⟨fun ha hb => ?_, fun ha hb => ?_, fun ha => ?_⟩
  · rw [step_writeReg s rest r v ha hr, acceptWrite_busy r v (setAgenda rest s) hb]
    rfl
  · rw [step_writeBack s rest r ha hr, acceptWrite_busy r _ (setAgenda rest s) hb]
    rfl
  · rw [step_readReg s rest r ha hr]
    rcases hostSaw_cases r (setAgenda rest s) with ⟨hst, hd, hs⟩ | ⟨hn, hs⟩
    · rw [setAgenda_done] at hd
      rw [hs, if_pos ⟨hst, hd⟩]
      cases r <;> rfl
    · rw [setAgenda_done] at hn
      rw [hs, if_neg hn]
      cases r <;> rfl

/-- Settles O47: such a write lends nothing, and `writeReg_idle` says what it stores. -/
theorem operandRegistersStoreAnyValue : Obligations.OperandRegistersStoreAnyValue := by
  intro s v rest hr hb
  have key : ∀ (r : Reg) (t : State), r ≠ .cmd → writeReg r v (setAgenda rest s) = t →
      s.agenda = .writeReg r.offset 32 v :: rest → step s = .next t := by
    rintro r _ hc rfl ha
    exact step_writeReg_of_ne_cmd s rest r v hc ha hr
  have hb' : (setAgenda rest s).busy = false := hb
  exact ⟨key .width _ (by decide) (writeReg_idle _ _ _ hb'), key .height _ (by decide) (writeReg_idle _ _ _ hb'),
    key .stride _ (by decide) (writeReg_idle _ _ _ hb'), key .dstLen _ (by decide) (writeReg_idle _ _ _ hb')⟩

/-- Settles O48: such an access reaches no register, and a write of a read-only one is ignored. -/
theorem registerAccessIsWholeAndAligned : Obligations.RegisterAccessIsWholeAndAligned := by
  intro s offset bits v rest hr
  refine ⟨fun h => ⟨fun ha => ?_, fun ha => ?_, fun ha => ?_⟩, fun ha hbits hoff => ?_⟩
  · rw [step_of_host s _ rest ha (by simp)]
    exact hostWriteReg_refused offset bits v _ hr h
  · rw [step_of_host s _ rest ha (by simp)]
    exact hostWriteReg_refused offset bits s.rdata _ hr h
  · rw [step_of_host s _ rest ha (by simp)]
    exact hostReadReg_refused offset bits _ hr h
  · subst hbits
    obtain ⟨r, rfl, hro⟩ : ∃ r : Reg, offset = r.offset ∧ r.readOnly := by
      rcases hoff with rfl | rfl | rfl | rfl
      · exact ⟨.status, rfl, .inl rfl⟩
      · exact ⟨.result, rfl, .inr (.inl rfl)⟩
      · exact ⟨.errInfo, rfl, .inr (.inr (.inl rfl))⟩
      · exact ⟨.cfg, rfl, .inr (.inr (.inr rfl))⟩
    rcases ha with ha | ha
    · rw [step_writeReg s rest r v ha hr, acceptWrite_readOnly r v _ hro]
      rfl
    · rw [step_writeBack s rest r ha hr, acceptWrite_readOnly r _ _ hro]
      rfl

/-- Settles O53: the engine is idle after reset since STATUS is 0. -/
theorem resetStateIsAllZeroButCfg : Obligations.ResetStateIsAllZeroButCfg := by
  refine ⟨fun cfg => ⟨rfl, rfl, rfl, rfl, rfl, rfl, rfl, rfl, rfl, rfl, ?_⟩, rfl, rfl⟩
  exact (engineActive_eq_false_iff _).2 (.inl (busy_eq_false_of_status_zero rfl))

end Sys2Proof.Machine
end

section
/-! PROOFS of the family `20_memory.md`: which bytes a command writes (R62), and that the lane order of the write
port is invisible (R57, R58). -/

namespace Sys2Proof.Machine

/-! Commands that pack nothing -/

theorem SameOperands.refl (s : State) : SameOperands s s := ⟨rfl, rfl, rfl, rfl⟩

/-- A GEOM command settles how it ends from WIDTH (`41_geometry.md` R128), whatever else a state holds. -/
theorem geomCommand_of_sameOperands (f : WireFormat) (s : State) :
    (∃ v, ∀ s', SameOperands s s' → geomCommand f s' = .next (completeOk v s')) ∨
    (∃ e, ∀ s', SameOperands s s' → geomCommand f s' = .next (raiseFault e s')) := by
  cases hc : geomCheck f s with
  | ok fs => exact .inl ⟨fs, fun s' h => by rw [geomCommand, h.geomCheck_eq, hc]⟩
  | error e => exact .inr ⟨e, fun s' h => by rw [geomCommand, h.geomCheck_eq, hc]⟩

/-- So does a CLAMP command, from its immediate (`40_clamp.md` R114 to R116). -/
theorem exec_of_no_pack (i : Instr) (s : State) (hp : packFormatOf i = none) :
    (∃ v, ∀ s', SameOperands s s' → exec i s' = .next (completeOk v s')) ∨
    (∃ e, ∀ s', SameOperands s s' → exec i s' = .next (raiseFault e s')) := by
  cases i with
  | clamp8 v | clamp10 v | clamp12 v => exact .inl ⟨_, fun _ _ => rfl⟩
  | geomRgb8b | geomRgb8r | geomYuv8 | geomR210 | geomYuv10 | geomR12b | geomR12l =>
    exact geomCommand_of_sameOperands _ s
  | packRgb8b | packRgb8r | packYuv8 | packR210 | packYuv10 | packR12b | packR12l => cases hp

/-- CLAMP and GEOM commands access neither memory (`20_memory.md` R62). -/
theorem exec_memories_of_no_pack (i : Instr) (s : State) (hp : packFormatOf i = none) (m : Memory (BitVec 16))
    (d : Memory Byte) : ∃ t, exec i s = .next t ∧ t.src = s.src ∧ t.dst = s.dst ∧
      exec i (setSrc m (setDst d s)) = .next (setSrc m (setDst d t)) := by
  have hop : SameOperands s (setSrc m (setDst d s)) := ⟨rfl, rfl, rfl, rfl⟩
  rcases exec_of_no_pack i s hp with ⟨v, hv⟩ | ⟨e, he⟩
  · exact ⟨_, hv s (.refl s), rfl, rfl, hv _ hop⟩
  · exact ⟨_, he s (.refl s), rfl, rfl, he _ hop⟩

/-! The destination of a PACK (`20_memory.md` R62) -/

/-- A command that faults has stored nothing (`60_exceptions.md` R236). -/
theorem exec_dst_of_err (i : Instr) (s t : State) (h : exec i s = .next t) (herr : t.err ≠ 0) : t.dst = s.dst := by
  rcases exec_cases i s with ⟨v, _, h'⟩ | ⟨e, _, h'⟩ | ⟨f, n, _, _, _, _, h'⟩ | ⟨f, _, _, _, h'⟩ <;> rw [h'] at h
  · injection h with h
    exact h ▸ completeOk_dst s v
  · injection h with h
    exact h ▸ raiseFault_dst s e
  · cases h
  · injection h with h
    exact absurd (h ▸ packedState_err defaultConfig f s) herr

/-- Settles O36: an accepted PACK ends in `packedState`, whose extent the operands and the source determine; the
other two clauses are `exec_dst_of_err` and `exec_memories_of_no_pack`. -/
theorem packWritesExactlyItsExtent : Obligations.PackWritesExactlyItsExtent := by
  refine ⟨?_, exec_dst_of_err, exec_memories_of_no_pack⟩
  intro i f s hp ha hd hr
  have hplane : PlaneReadable s := planeReadable_of_unraced s hd hr.1
  rw [exec_of_packFormatOf i f hp]
  refine ⟨_, packCommand_next defaultConfig f s ha hplane, packedState_read_outside defaultConfig f s, fun d => ?_⟩
  have hop : SameOperands s (setDst d s) := ⟨rfl, rfl, rfl, rfl⟩
  rw [exec_of_packFormatOf i f hp]
  refine ⟨_, packCommand_next defaultConfig f _ (hop.packAccepted f ha)
    (planeReadable_of_same hop rfl hr hplane), fun o ho => ⟨?_, ?_⟩⟩
  · obtain ⟨y, k, hy, hk, rfl⟩ := ho
    rw [packedState_read_extent defaultConfig f s hr ha.stride_covers y k hy hk]
    rfl
  · exact packedState_read_of_same hop rfl defaultConfig f hr hr ha.stride_covers o ho

/-! The lane order of the write port (`20_memory.md` R57, R58) -/

/-- Each byte a PACK makes is the same in either lane order, whatever the host raced with. -/
theorem landedIn_setCfg (cfg : Config) (f : WireFormat) (s : State) (c : Word) :
    landedIn cfg f { s with cfg := c } = landedIn cfg f s := by
  funext y g t
  exact congrArg (fun B : List Byte => B.getD t 0) (applyGroup_hostLe cfg _ s.hostLe _ _)

theorem commandCells_setCfg (cfg : Config) (f : WireFormat) (s : State) (c : Word) :
    commandCells cfg f { s with cfg := c } = commandCells cfg f s := by
  unfold commandCells packedCells
  rw [landedIn_setCfg]
  rfl

theorem packedState_setCfg (cfg : Config) (f : WireFormat) (s : State) (c : Word) :
    packedState cfg f { s with cfg := c } = { packedState cfg f s with cfg := c } := by
  rw [packedState_fields, packedState_fields, commandCells_setCfg]
  rfl

/-- Settles O41: the checks read the operand registers, which CFG is none of, and `packedState_setCfg` compares
what a PACK stores. -/
theorem bytesDoNotDependOnHostLe : Obligations.BytesDoNotDependOnHostLe := by
  intro i s t c h
  have hop : SameOperands s { s with cfg := c } := ⟨rfl, rfl, rfl, rfl⟩
  cases hp : packFormatOf i with
  | none =>
    rcases exec_of_no_pack i s hp with ⟨v, hv⟩ | ⟨e, he⟩
    · rw [hv s (.refl s)] at h
      injection h with h
      exact h ▸ hv _ hop
    · rw [he s (.refl s)] at h
      injection h with h
      exact h ▸ he _ hop
  | some f =>
    rw [exec_of_packFormatOf i f hp] at h ⊢
    rcases packCommand_cases defaultConfig f s with ⟨e, hc, h'⟩ | ⟨n, _, _, _, h'⟩ | ⟨ha, hd, h'⟩ <;> rw [h'] at h
    · injection h with h
      exact h ▸ packCommand_of_check_error defaultConfig f _ e ((hop.packCheck_eq f).trans hc)
    · cases h
    · injection h with h
      rw [← h, ← packedState_setCfg]
      exact packCommand_next defaultConfig f _ (hop.packAccepted f ha) hd

end Sys2Proof.Machine
end

section
/-! PROOFS of the family `30_encoding.md`: a word decodes to a command exactly if it is the word of that command
(R81, R82, R94), which words are no commands (R89, R90), and how a launched command and the pseudo-instructions
run (R87, R93). -/

namespace Sys2Proof.Machine

/-! The words of the two formats (`30_encoding.md` R81, R82) -/

/-- A word of OP 1 with a clear ZERO field is the format C word of its DEP and VAL. -/
theorem encodeC_of_slices (c : Word) (dep : Nat) (hop : slice c.toNat 31 28 = 1) (hzero : slice c.toNat 23 16 = 0)
    (hdep : slice c.toNat 27 24 = dep) : encodeC dep (slice c.toNat 15 0) = c := by
  apply BitVec.eq_of_toNat_eq
  have hlt : c.toNat < 2 ^ 32 := c.isLt
  rw [encodeC_toNat]
  unfold slice at *
  omega

/-- A word with a clear format F ZERO field is the format F word of its OP and FMT. -/
theorem encodeF_of_slices (c : Word) (op : Nat) (hop : slice c.toNat 31 28 = op) (hzero : slice c.toNat 27 8 = 0) :
    encodeF op (slice c.toNat 7 0) = c := by
  apply BitVec.eq_of_toNat_eq
  have hlt : c.toNat < 2 ^ 32 := c.isLt
  rw [encodeF_toNat]
  unfold slice at *
  omega

/-- The fields of a format C word are those it is made of. -/
theorem slices_encodeC (dep val : Nat) :
    slice (encodeC dep val).toNat 31 28 = 1 ∧ slice (encodeC dep val).toNat 23 16 = 0 ∧
      slice (encodeC dep val).toNat 27 24 = dep % 16 ∧ slice (encodeC dep val).toNat 15 0 = val % 2 ^ 16 := by
  rw [encodeC_toNat]
  unfold slice
  omega

/-- The fields of a format F word are those it is made of. -/
theorem slices_encodeF (op fmt : Nat) :
    slice (encodeF op fmt).toNat 31 28 = op % 16 ∧ slice (encodeF op fmt).toNat 27 8 = 0 ∧
      slice (encodeF op fmt).toNat 7 0 = fmt % 256 := by
  rw [encodeF_toNat]
  unfold slice
  omega

/-! The five families of commands -/

/-- Every command is a CLAMP of a declared depth, or the GEOM or PACK command of a format (R94). -/
theorem instr_families (i : Instr) :
    (∃ v, i = .clamp8 v ∨ i = .clamp10 v ∨ i = .clamp12 v) ∨ ∃ f, i = geomInstr f ∨ i = packInstr f := by
  cases i with
  | clamp8 v => exact .inl ⟨v, .inl rfl⟩
  | clamp10 v => exact .inl ⟨v, .inr (.inl rfl)⟩
  | clamp12 v => exact .inl ⟨v, .inr (.inr rfl)⟩
  | geomRgb8b => exact .inr ⟨.rgb8b, .inl rfl⟩
  | geomRgb8r => exact .inr ⟨.rgb8r, .inl rfl⟩
  | geomYuv8 => exact .inr ⟨.yuv8, .inl rfl⟩
  | geomR210 => exact .inr ⟨.r210, .inl rfl⟩
  | geomYuv10 => exact .inr ⟨.yuv10, .inl rfl⟩
  | geomR12b => exact .inr ⟨.r12b, .inl rfl⟩
  | geomR12l => exact .inr ⟨.r12l, .inl rfl⟩
  | packRgb8b => exact .inr ⟨.rgb8b, .inr rfl⟩
  | packRgb8r => exact .inr ⟨.rgb8r, .inr rfl⟩
  | packYuv8 => exact .inr ⟨.yuv8, .inr rfl⟩
  | packR210 => exact .inr ⟨.r210, .inr rfl⟩
  | packYuv10 => exact .inr ⟨.yuv10, .inr rfl⟩
  | packR12b => exact .inr ⟨.r12b, .inr rfl⟩
  | packR12l => exact .inr ⟨.r12l, .inr rfl⟩

theorem encode_geomInstr (f : WireFormat) : encode (geomInstr f) = encodeF 2 f.number := by cases f <;> rfl

theorem encode_packInstr (f : WireFormat) : encode (packInstr f) = encodeF 3 f.number := by cases f <;> rfl

theorem wellFormed_geomInstr (f : WireFormat) : (geomInstr f).wellFormed = true := by cases f <;> rfl

theorem wellFormed_packInstr (f : WireFormat) : (packInstr f).wellFormed = true := by cases f <;> rfl

theorem immediateFits_iff (v : Nat) : immediateFits v = true ↔ v < 2 ^ 16 := decide_eq_true_iff

/-! Decoding against encoding -/

/-- What the decoder makes of a format C word (R82, R84). -/
theorem decode_encodeC (dep val : Nat) (hdep : dep < 16) (hval : val < 2 ^ 16) :
    decode (encodeC dep val) =
      if dep = 8 then .ok (.clamp8 val) else if dep = 10 then .ok (.clamp10 val)
      else if dep = 12 then .ok (.clamp12 val) else .error (.illegalCommand (encodeC dep val)) := by
  obtain ⟨hop, hzero, hd, hv⟩ := slices_encodeC dep val
  rw [Nat.mod_eq_of_lt hdep] at hd
  rw [Nat.mod_eq_of_lt hval] at hv
  simp only [decode, hop, hzero, hd, hv, if_true, ne_eq, not_true_eq_false, if_false]

/-- What the decoder makes of a format F word of a recognised format (R81, R88). -/
theorem decode_encodeF_number (op : Nat) (f : WireFormat) (hop : op = 2 ∨ op = 3) :
    decode (encodeF op f.number) = if op = 2 then .ok (geomInstr f) else .ok (packInstr f) := by
  obtain ⟨ho, hzero, hfmt⟩ := slices_encodeF op f.number
  have hnum : f.number % 256 = f.number := by cases f <;> rfl
  have hop' : op % 16 = op := by omega
  have hne : op ≠ 1 := by omega
  rw [hop'] at ho
  rw [hnum] at hfmt
  simp only [decode, ho, hzero, hfmt, ofNumber_number, if_neg hne, if_pos hop, ne_eq, not_true_eq_false, if_false]

/-- Settles O2, family by family (`instr_families`): the decoder reads back the fields the encoder wrote. -/
theorem decodeOfEncodeIsTheCommand : Obligations.DecodeOfEncodeIsTheCommand := by
  intro i hwf
  rcases instr_families i with ⟨v, rfl | rfl | rfl⟩ | ⟨f, rfl | rfl⟩
  · exact decode_encodeC 8 v (by decide) ((immediateFits_iff v).1 hwf)
  · exact decode_encodeC 10 v (by decide) ((immediateFits_iff v).1 hwf)
  · exact decode_encodeC 12 v (by decide) ((immediateFits_iff v).1 hwf)
  · rw [encode_geomInstr]
    exact decode_encodeF_number 2 f (.inl rfl)
  · rw [encode_packInstr]
    exact decode_encodeF_number 3 f (.inr rfl)

/-- Settles O3: where the decoder answers a command (`decode_cases`), it has read every field of the word. -/
theorem encodeOfDecodeIsTheWord : Obligations.EncodeOfDecodeIsTheWord := by
  intro c i h
  have hval : immediateFits (slice c.toNat 15 0) = true := (immediateFits_iff _).2 (slice_lt _ _ _)
  rcases decode_cases c with ⟨hop, hzero, ⟨hdep, hd⟩ | ⟨hdep, hd⟩ | ⟨hdep, hd⟩⟩ |
    ⟨hzero, f, hf, ⟨hop, hd⟩ | ⟨hop, hd⟩⟩ | ⟨_, _, _, hd⟩ | ⟨_, hd⟩ <;> rw [hd] at h <;> cases h
  · exact ⟨hval, encodeC_of_slices c 8 hop hzero hdep⟩
  · exact ⟨hval, encodeC_of_slices c 10 hop hzero hdep⟩
  · exact ⟨hval, encodeC_of_slices c 12 hop hzero hdep⟩
  · rw [encode_geomInstr, number_of_ofNumber _ f hf]
    exact ⟨wellFormed_geomInstr f, encodeF_of_slices c 2 hop hzero⟩
  · rw [encode_packInstr, number_of_ofNumber _ f hf]
    exact ⟨wellFormed_packInstr f, encodeF_of_slices c 3 hop hzero⟩

/-- Decoding and encoding are inverse: a word selects a command exactly if it is that command's word. -/
theorem decode_eq_ok_iff (c : Word) (i : Instr) : decode c = .ok i ↔ i.wellFormed = true ∧ c = encode i := by
  constructor
  · intro h
    obtain ⟨hwf, hc⟩ := encodeOfDecodeIsTheWord c i h
    exact ⟨hwf, hc.symm⟩
  · rintro ⟨hwf, rfl⟩
    exact decodeOfEncodeIsTheCommand i hwf

/-- The format C word of a declared depth, written as R94 writes it. -/
theorem encodeC_eq_ofNat (dep v : Nat) (hdep : dep < 16) (hv : v < 2 ^ 16) :
    encodeC dep v = BitVec.ofNat 32 (2 ^ 28 + dep * 2 ^ 24 + v) := by
  apply BitVec.eq_of_toNat_eq
  rw [encodeC_toNat, BitVec.toNat_ofNat]
  omega

/-- A CLAMP row of R94: the command with immediate `v` is selected by its depth's word plus `v`. -/
theorem decode_eq_clamp_iff (c : Word) (v dep : Nat) (hdep : dep < 16) (i : Instr)
    (hwf : i.wellFormed = immediateFits v) (henc : encode i = encodeC dep v) :
    decode c = .ok i ↔ v < 2 ^ 16 ∧ c = BitVec.ofNat 32 (2 ^ 28 + dep * 2 ^ 24 + v) := by
  rw [decode_eq_ok_iff, hwf, henc, immediateFits_iff]
  exact and_congr_right fun hv => by rw [encodeC_eq_ofNat dep v hdep hv]

/-- A GEOM or PACK row of R94: the command without operands is selected by its one word. -/
theorem decode_eq_ok_iff_word (c w : Word) (i : Instr) (hwf : i.wellFormed = true) (henc : encode i = w) :
    decode c = .ok i ↔ c = w := by
  rw [decode_eq_ok_iff, henc]
  exact and_iff_right hwf

/-- Settles O1, row by row from `decode_eq_ok_iff`. -/
theorem opcodeMapSelectsExactWords : Obligations.OpcodeMapSelectsExactWords := by
  refine ⟨fun c v => decode_eq_clamp_iff c v 8 (by decide) _ rfl rfl,
    fun c v => decode_eq_clamp_iff c v 10 (by decide) _ rfl rfl,
    fun c v => decode_eq_clamp_iff c v 12 (by decide) _ rfl rfl, fun c => ?_, fun c => ?_⟩
  · refine ⟨?_, ?_, ?_, ?_, ?_, ?_, ?_⟩ <;> exact decode_eq_ok_iff_word c _ _ rfl rfl
  · refine ⟨?_, ?_, ?_, ?_, ?_, ?_, ?_⟩ <;> exact decode_eq_ok_iff_word c _ _ rfl rfl

/-! Words that are no commands (`30_encoding.md` R89, R90) -/

/-- A check of a bit field is one of the field's number. -/
theorem extract_beq_iff (c : Word) (hi lo : Nat) (x : BitVec (hi + 1 - lo)) :
    (c.extractLsb' lo (hi + 1 - lo) == x) = true ↔ slice c.toNat hi lo = x.toNat := by
  rw [slice_eq_extract, BitVec.toNat_inj, beq_iff_eq]

theorem op_beq_iff (c : Word) (x : BitVec 4) : (c.extractLsb' 28 4 == x) = true ↔ slice c.toNat 31 28 = x.toNat :=
  extract_beq_iff c 31 28 x

theorem dep_beq_iff (c : Word) (x : BitVec 4) : (c.extractLsb' 24 4 == x) = true ↔ slice c.toNat 27 24 = x.toNat :=
  extract_beq_iff c 27 24 x

theorem isFormatC_iff (c : Word) : isFormatC c = true ↔ slice c.toNat 31 28 = 1 := op_beq_iff c 1

theorem opDefined_iff (c : Word) : opDefined c = true ↔
    slice c.toNat 31 28 = 1 ∨ slice c.toNat 31 28 = 2 ∨ slice c.toNat 31 28 = 3 := by
  simp only [opDefined, Bool.or_eq_true, op_beq_iff, BitVec.toNat_ofNat, or_assoc]

theorem zeroFieldClear_iff (c : Word) : zeroFieldClear c = true ↔
    if slice c.toNat 31 28 = 1 then slice c.toNat 23 16 = 0 else slice c.toNat 27 8 = 0 := by
  unfold zeroFieldClear
  by_cases h : slice c.toNat 31 28 = 1
  · rw [if_pos h, if_pos ((isFormatC_iff c).2 h)]
    exact extract_beq_iff c 23 16 0
  · rw [if_neg h, if_neg (mt (isFormatC_iff c).1 h)]
    exact extract_beq_iff c 27 8 0

theorem depthDeclared_iff (c : Word) : depthDeclared c = true ↔ (slice c.toNat 31 28 = 1 →
    slice c.toNat 27 24 = 8 ∨ slice c.toNat 27 24 = 10 ∨ slice c.toNat 27 24 = 12) := by
  simp only [depthDeclared, Bool.or_eq_true, dep_beq_iff, Bool.not_eq_true', or_assoc]
  rw [← isFormatC_iff, ← Bool.not_eq_true, ← imp_iff_not_or]
  rfl

theorem slice_low_byte (v : Nat) : slice v 7 0 = v % 256 := by simp [slice]

/-- R90's list, in the numbers of the fields. -/
theorem legalWord_iff (c : Word) : legalWord c = true ↔
    (slice c.toNat 31 28 = 1 ∧ slice c.toNat 23 16 = 0 ∧
      (slice c.toNat 27 24 = 8 ∨ slice c.toNat 27 24 = 10 ∨ slice c.toNat 27 24 = 12)) ∨
    ((slice c.toNat 31 28 = 2 ∨ slice c.toNat 31 28 = 3) ∧ slice c.toNat 27 8 = 0) := by
  simp only [legalWord, Bool.and_eq_true, opDefined_iff, zeroFieldClear_iff, depthDeclared_iff]
  split <;> omega

/-- FMT names a format, or the word is of format C and has none (R88, R89). -/
theorem formatRecognised_iff (c : Word) : formatRecognised c = true ↔
    slice c.toNat 31 28 = 1 ∨ (WireFormat.ofNumber (slice c.toNat 7 0)).isSome = true := by
  rw [ofNumber_isSome, slice_eq_extract c 7 0]
  simp only [formatRecognised, Bool.or_eq_true, Bool.and_eq_true, decide_eq_true_iff, isFormatC_iff]

/-- Settles O4: each answer of the decoder (`decode_cases`) is the one that R89 and R90 ask of the word's fields. -/
theorem everyWordIsACommandOrOneFault : Obligations.EveryWordIsACommandOrOneFault := by
  intro c
  rw [← Bool.not_eq_true, ← Bool.not_eq_true, legalWord_iff, formatRecognised_iff]
  rcases decode_cases c with ⟨hop, hzero, hd⟩ | ⟨hzero, f, hf, hd⟩ | ⟨hop, hzero, hnone, hd⟩ | ⟨hbad, hd⟩
  · have hdep := hd.imp And.left (Or.imp And.left And.left)
    refine ⟨fun h => absurd (.inl ⟨hop, hzero, hdep⟩) h, fun _ h => absurd (.inl hop) h, fun _ _ => ?_⟩
    rcases hd with ⟨_, hd⟩ | ⟨_, hd⟩ | ⟨_, hd⟩ <;> exact ⟨_, hd⟩
  · have hop := hd.imp And.left And.left
    refine ⟨fun h => absurd (.inr ⟨hop, hzero⟩) h, fun _ h => absurd (.inr (hf ▸ rfl)) h, fun _ _ => ?_⟩
    rcases hd with ⟨_, hd⟩ | ⟨_, hd⟩ <;> exact ⟨_, hd⟩
  · refine ⟨fun h => absurd (.inr ⟨hop, hzero⟩) h, fun _ _ => ?_, fun _ h => ?_⟩
    · rw [hd, slice_low_byte]
    · rw [hnone] at h
      rcases h with h | h
      · omega
      · cases h
  · exact ⟨fun _ => hd, fun h => absurd h (by omega), fun h => absurd h (by omega)⟩

/-- Settles O5: the decoder, evaluated on seven words. -/
theorem sampleWordsDecode : Obligations.SampleWordsDecode := by
  unfold Obligations.SampleWordsDecode
  decide

/-! Running the launched command (`30_encoding.md` R87) and the pseudo-instructions (R93) -/

/-- Settles O6: on the engine's turn the launched word is the one that is decoded. -/
theorem stepRunsTheLaunchedCommand : Obligations.StepRunsTheLaunchedCommand := by
  rintro c s rest i ⟨rfl, hactive, hturn⟩ hd _
  rw [step_of_enginesTurn s rest hturn]
  exact engineTurn_of_decode exec (setAgenda rest s) i hactive hd

section
variable (s : State)

/-- A `WAIT` that reads DONE = 1 is over, and so are the loans (R93, `70_reset_and_hazards.md` R267). -/
theorem hostWait_of_done (n : Nat) (hr : s.resetLine = false) (hd : s.done = true) :
    hostWait n s = .next (setRdata s.status (returnLoans s)) := by
  have hsaw : hostSaw .status s = returnLoans s := if_pos ⟨rfl, hd⟩
  unfold hostWait
  simp only [regAccess_of_offset .status s hr, if_pos hd, hsaw]
  rfl

/-- A `WAIT` that reads DONE = 0 reads again (R93). -/
theorem hostWait_succ_of_not_done (k : Nat) (hr : s.resetLine = false) (hd : s.done = false) :
    hostWait (k + 1) s = .next (setRdata s.status (setAgenda (.wait k :: s.agenda) s)) := by
  unfold hostWait
  simp only [regAccess_of_offset .status s hr, hd]
  rfl

/-- When its reads are over, the engine moves first (R93, `70_reset_and_hazards.md` R274). -/
theorem hostWait_zero_of_not_done (hr : s.resetLine = false) (hd : s.done = false) :
    hostWait 0 s = .next (setRdata s.status (setAgenda (.engine :: .wait 0 :: s.agenda) s)) := by
  unfold hostWait
  simp only [regAccess_of_offset .status s hr, hd]
  rfl

theorem OperandReg.reg_ne_cmd (r : OperandReg) : r.reg ≠ .cmd := by cases r <;> decide

variable (rest : List HostAction)

/-- The first step of `MOVR` reads RESULT, which ends no loan (R93). -/
theorem step_movr_read (r : OperandReg) (ha : s.agenda = movrActions r ++ rest) (hr : s.resetLine = false) :
    step s = .next (setRdata s.result (setAgenda (.writeBack r.reg.offset 32 :: rest) s)) :=
  step_readReg s _ .result ha hr

/-- The second writes the value `v` the host read, and lends nothing. -/
theorem step_movr_write (r : OperandReg) (v : Word) (hr : s.resetLine = false) :
    step (setRdata v (setAgenda (.writeBack r.reg.offset 32 :: rest) s)) =
      .next (writeReg r.reg v (setRdata v (setAgenda rest s))) :=
  (step_writeBack (setRdata v (setAgenda _ s)) rest r.reg rfl hr).trans
    (congrArg _ (acceptWrite_other _ _ _ r.reg_ne_cmd))

end

/-- Settles O49: the three rounds of `WAIT` by `hostWait_of_done` and its two companions, and the two steps of
`MOVR`, whose write `writeReg_idle` stores in the named register. -/
theorem waitPollsAndMovrCopies : Obligations.WaitPollsAndMovrCopies := by
  intro s rest n hr
  refine ⟨fun ha hd => ?_, fun ha hd => ?_, fun ha hd => ?_, fun r ha hb => ?_⟩
  · rw [step_of_host s _ rest ha (by simp)]
    exact hostWait_of_done (setAgenda rest s) n hr hd
  · rw [step_of_host s _ rest ha (by simp)]
    exact hostWait_succ_of_not_done (setAgenda rest s) n hr hd
  · rw [step_of_host s _ rest ha (by simp)]
    exact hostWait_zero_of_not_done (setAgenda rest s) hr hd
  · refine ⟨_, step_movr_read s rest r ha hr, ?_⟩
    rw [step_movr_write s rest r s.result hr, writeReg_idle r.reg _ (setRdata s.result (setAgenda rest s)) hb]
    cases r <;> rfl

end Sys2Proof.Machine
end

section
/-! PROOFS of the family `40_clamp.md`: the laws of clamping (R112) and the three CLAMP commands (R114 to R116). -/

namespace Sys2Proof.Machine

/-! The laws of clamping, at every depth (`40_clamp.md` R112) -/

section
variable {v v' d : Nat}

theorem clamp_of_gt (h : 2 ^ d - 1 < v) : clamp v d = 2 ^ d - 1 := Nat.min_eq_right h.le

theorem clamp_of_le (h : v ≤ 2 ^ d - 1) : clamp v d = v := Nat.min_eq_left h

theorem clamp_le (v d : Nat) : clamp v d ≤ 2 ^ d - 1 := Nat.min_le_right _ _

/-- What is clamped is in range, so it is clamped to itself. -/
theorem clamp_clamp (v d : Nat) : clamp (clamp v d) d = clamp v d := clamp_of_le (clamp_le v d)

theorem clamp_mono (h : v ≤ v') : clamp v d ≤ clamp v' d := min_le_min_right _ h

end

/-- Settles O11: the laws hold at every depth, so at the declared ones. -/
theorem clampLaws : Obligations.ClampLaws :=
  fun d _ v _ => ⟨clamp_of_gt, clamp_of_le, clamp_clamp v d, clamp_le v d, clamp_mono⟩

/-! The CLAMP commands (`40_clamp.md` R114 to R116) -/

section
variable (v : Nat) (s : State)

theorem exec_clamp8 : exec (.clamp8 v) s = .next (succeeded (min v 255) s) :=
  congrArg Host.Outcome.next (completeOk_eq_succeeded s (clamp v 8))

theorem exec_clamp10 : exec (.clamp10 v) s = .next (succeeded (min v 1023) s) :=
  congrArg Host.Outcome.next (completeOk_eq_succeeded s (clamp v 10))

theorem exec_clamp12 : exec (.clamp12 v) s = .next (succeeded (min v 4095) s) :=
  congrArg Host.Outcome.next (completeOk_eq_succeeded s (clamp v 12))

end

/-- What decodes is well-formed, so a launched word that decodes is run (`30_encoding.md` R87). -/
theorem step_of_launched {c : Word} {s : State} {rest : List HostAction} {i : Instr} (hl : Launched c s rest)
    (hd : decode c = .ok i) : step s = exec i (setAgenda rest s) :=
  stepRunsTheLaunchedCommand c s rest i hl hd ((decode_eq_ok_iff c i).1 hd).1

/-- Settles O10: the opcode map (O1) names the command of each launched word, and its meaning is that of the first
clause. -/
theorem clampCommandsSaturate : Obligations.ClampCommandsSaturate := by
  obtain ⟨row8, row10, row12, _, _⟩ := opcodeMapSelectsExactWords
  refine ⟨fun v s => ⟨exec_clamp8 v s, exec_clamp10 v s, exec_clamp12 v s⟩,
    fun v s rest hv => ⟨fun hl => ?_, fun hl => ?_, fun hl => ?_⟩⟩
  · rw [step_of_launched hl ((row8 _ v).2 ⟨hv, rfl⟩), exec_clamp8]
  · rw [step_of_launched hl ((row10 _ v).2 ⟨hv, rfl⟩), exec_clamp10]
  · rw [step_of_launched hl ((row12 _ v).2 ⟨hv, rfl⟩), exec_clamp12]

end Sys2Proof.Machine
end

section
/-! PROOFS of the family `41_geometry.md`: the laws of the floor stride (R127), what a GEOM command answers (R128),
and the seven GEOM commands (R129 to R135). -/

namespace Sys2Proof.Machine

/-! Division rounded up (`00_scope.md` R11) -/

section
variable {a a' b : Nat}

theorem ceilDiv_eq (a b : Nat) : ceilDiv a b = a ⌈/⌉ b := rfl

theorem ceilDiv_mono (b : Nat) (h : a ≤ a') : ceilDiv a b ≤ ceilDiv a' b :=
  Nat.div_le_div_right (by omega)

theorem le_ceilDiv_mul (hb : 0 < b) : a ≤ ceilDiv a b * b := by
  rw [ceilDiv_eq, Nat.mul_comm]
  exact le_smul_ceilDiv hb

/-- A whole number of units is not rounded. -/
theorem ceilDiv_mul (n : Nat) (hb : 0 < b) : ceilDiv (n * b) b = n := by
  rw [ceilDiv_eq, Nat.mul_comm]
  exact smul_ceilDiv hb n

theorem ceilDiv_pos (ha : 0 < a) (hb : 0 < b) : 0 < ceilDiv a b :=
  Nat.div_pos (by omega) hb

end

/-! The laws of the floor stride (`41_geometry.md` R127) -/

section
variable (f : WireFormat) {w w' : Nat}

theorem rowPixels_pos : 0 < (descriptor f).rowPixels := by cases f <;> decide

theorem rowAlign_pos : 0 < (descriptor f).rowAlign := by cases f <;> decide

theorem floorStride_mono (h : w ≤ w') : floorStride f w ≤ floorStride f w' :=
  Nat.mul_le_mul_right _ (ceilDiv_mono _ h)

variable {f} in
/-- By monotonicity the two strides next to the bound decide which widths stay below it. -/
theorem floorStride_lt_iff {m bound : Nat} (fits : floorStride f m < bound)
    (exceeds : bound ≤ floorStride f (m + 1)) : floorStride f w < bound ↔ w ≤ m := by
  constructor
  · intro h
    by_contra hm
    have : floorStride f (m + 1) ≤ floorStride f w := floorStride_mono f (by omega)
    omega
  · intro h
    exact (floorStride_mono f h).trans_lt fits

theorem floorStride_ceil (w : Nat) :
    floorStride f (ceilDiv w (descriptor f).rowPixels * (descriptor f).rowPixels) = floorStride f w := by
  rw [floorStride, ceilDiv_mul _ (rowPixels_pos f), floorStride]

theorem floorStride_pos (h : 0 < w) : 0 < floorStride f w :=
  Nat.mul_pos (ceilDiv_pos h (rowPixels_pos f)) (rowAlign_pos f)

theorem floorStride_mod_rowAlign (w : Nat) : floorStride f w % (descriptor f).rowAlign = 0 :=
  Nat.mul_mod_left _ _

/-- A format whose row unit has room for `p / q` bytes of each of its pixels has that room in every row. -/
theorem pixelBytes_le_floorStride (w : Nat) {p q : Nat}
    (h : p * (descriptor f).rowPixels ≤ q * (descriptor f).rowAlign) : p * w ≤ q * floorStride f w := by
  unfold floorStride
  generalize hn : ceilDiv w (descriptor f).rowPixels = n
  calc p * w ≤ p * (n * (descriptor f).rowPixels) := Nat.mul_le_mul_left p (hn ▸ le_ceilDiv_mul (rowPixels_pos f))
    _ = n * (p * (descriptor f).rowPixels) := Nat.mul_left_comm ..
    _ ≤ n * (q * (descriptor f).rowAlign) := Nat.mul_le_mul_left n h
    _ = q * (n * (descriptor f).rowAlign) := Nat.mul_left_comm ..

end

/-- Settles O16: four bytes a pixel are the case `p / q = 4 / 1` of the room in a row, two bytes `2 / 1`, and
thirty-six bits `9 / 2`. -/
theorem floorStrideLaws : Obligations.FloorStrideLaws := by
  intro f w w' hw
  refine ⟨floorStride_mono f, (floorStride_ceil f w).symm, floorStride_pos f hw, floorStride_mod_rowAlign f w,
    ?_, ?_, ?_⟩
  · intro word
    have room : 4 * (descriptor f).rowPixels ≤ 1 * (descriptor f).rowAlign := by
      rcases word with rfl | rfl | rfl | rfl <;> decide
    simpa using pixelBytes_le_floorStride f w room
  · rintro rfl
    have room : 2 * (descriptor .yuv8).rowPixels ≤ 1 * (descriptor .yuv8).rowAlign := by decide
    exact ⟨by simpa using pixelBytes_le_floorStride .yuv8 w room, floorStride_mod_rowAlign .yuv8 w⟩
  · intro r12
    have room : 9 * (descriptor f).rowPixels ≤ 2 * (descriptor f).rowAlign := by
      rcases r12 with rfl | rfl <;> decide
    have align : (descriptor f).rowAlign = 36 := by rcases r12 with rfl | rfl <;> rfl
    exact ⟨pixelBytes_le_floorStride f w room, align ▸ floorStride_mod_rowAlign f w⟩

/-! The common sequence of the GEOM commands (`41_geometry.md` R128) -/

section
variable {f : WireFormat} {s : State}

theorem exec_geomInstr (f : WireFormat) (s : State) : exec (geomInstr f) s = geomCommand f s := by
  cases f <;> rfl

theorem exec_geomInstr_of_ok {n : Nat} (h : geomCheck f s = .ok n) :
    exec (geomInstr f) s = .next (succeeded n s) := by
  rw [exec_geomInstr, geomCommand, h, ← completeOk_eq_succeeded]

theorem exec_geomInstr_of_error {e : CommandFault} (h : geomCheck f s = .error e) :
    exec (geomInstr f) s = .next (faulted e.code e.info.toNat s) := by
  rw [exec_geomInstr, geomCommand, h, ← raiseFault_eq_faulted]

/-- What the GEOM command of a format answers, `m` being the greatest width whose floor stride fits RESULT. -/
theorem exec_geomInstr_of_widest {m : Nat} {stride : Nat → Nat} (hstride : ∀ w, floorStride f w = stride w)
    (fits : stride m < 2 ^ 32) (exceeds : 2 ^ 32 ≤ stride (m + 1)) (s : State) :
    (s.width.toInt ≤ 0 → exec (geomInstr f) s = .next (faulted 2 1 s)) ∧
    (0 < s.width.toInt → s.width.toInt ≤ m →
      exec (geomInstr f) s = .next (succeeded (stride s.width.toInt.toNat) s)) ∧
    (m < s.width.toInt → exec (geomInstr f) s = .next (faulted 2 3 s)) := by
  have fitsIff : floorStride f (widthOf s) < 2 ^ 32 ↔ widthOf s ≤ m :=
    floorStride_lt_iff (by rwa [hstride]) (by rwa [hstride])
  have checks := geomCheck_cases f s
  simp only [State.widthOperand, widthOf_eq] at fitsIff checks
  rcases checks with ⟨hw, hc⟩ | ⟨hw, hbig, hc⟩ | ⟨hw, hfit, hc⟩
  · exact ⟨fun _ => exec_geomInstr_of_error hc, by omega, by omega⟩
  · exact ⟨by omega, by omega, fun _ => exec_geomInstr_of_error hc⟩
  · exact ⟨by omega, fun _ _ => hstride _ ▸ exec_geomInstr_of_ok hc, by omega⟩

end

/-! The seven GEOM commands (`41_geometry.md` R129 to R135): each word is that of the opcode table (`30_encoding.md`
R94), and the greatest width is checked on itself and its successor. -/

theorem decode_of_geomWord (f : WireFormat) {c : Word} (h : c = encode (geomInstr f)) :
    decode c = .ok (geomInstr f) :=
  (decode_eq_ok_iff c _).2 ⟨wellFormed_geomInstr f, h⟩

/-- Settles O12. -/
theorem geomWordPerPixel : Obligations.GeomWordPerPixel := by
  refine ⟨decode_of_geomWord .rgb8b (by decide), decode_of_geomWord .rgb8r (by decide),
    decode_of_geomWord .yuv10 (by decide), ?_⟩
  rintro i s (rfl | rfl | rfl)
  · exact exec_geomInstr_of_widest floorStride_rgb8b (by decide) (by decide) s
  · exact exec_geomInstr_of_widest floorStride_rgb8r (by decide) (by decide) s
  · exact exec_geomInstr_of_widest floorStride_yuv10 (by decide) (by decide) s

/-- Settles O13: only the greatest WIDTH of all is too large. -/
theorem geomYuv8PixelPairs : Obligations.GeomYuv8PixelPairs := by
  refine ⟨decode_of_geomWord .yuv8 (by decide), fun s => ?_⟩
  obtain ⟨malformed, fits, tooLarge⟩ :=
    exec_geomInstr_of_widest (m := 2147483646) floorStride_yuv8 (by decide) (by decide) s
  exact ⟨malformed, fits, fun h => tooLarge (by omega)⟩

/-- Settles O14. -/
theorem geomR210AlignsRows : Obligations.GeomR210AlignsRows :=
  ⟨decode_of_geomWord .r210 (by decide), exec_geomInstr_of_widest floorStride_r210 (by decide) (by decide)⟩

/-- Settles O15. -/
theorem geomR12GroupsOfEight : Obligations.GeomR12GroupsOfEight := by
  refine ⟨decode_of_geomWord .r12b (by decide), decode_of_geomWord .r12l (by decide), ?_⟩
  rintro i s (rfl | rfl)
  · exact exec_geomInstr_of_widest floorStride_r12b (by decide) (by decide) s
  · exact exec_geomInstr_of_widest floorStride_r12l (by decide) (by decide) s

end Sys2Proof.Machine
end

section
/-! PROOFS of the family `42_pack_rgb8.md`: the four bytes of an 8-bit RGB pixel (R142), that they give the pixel back
(R145), and what PACK.RGB8B and PACK.RGB8R store (R143, R144). -/

namespace Sys2Proof.Machine

/-! The bytes of a pixel (`42_pack_rgb8.md` R142) -/

/-- A word of four byte fields holds the fields themselves, the last one lowest (`00_scope.md` R11). -/
theorem leBytes_concatWord (v3 v2 v1 v0 : Nat) :
    leBytes (concatWord [(v3, 8), (v2, 8), (v1, 8), (v0, 8)]) =
      [BitVec.ofNat 8 v0, BitVec.ofNat 8 v1, BitVec.ofNat 8 v2, BitVec.ofNat 8 v3] := by
  have field : ∀ m n, (concatFrom 0 [(v3, 8), (v2, 8), (v1, 8), (v0, 8)] / 2 ^ (8 * m)) % 2 ^ 8 = n % 2 ^ 8 →
      byteOf (concatWord [(v3, 8), (v2, 8), (v1, 8), (v0, 8)]) m = BitVec.ofNat 8 n := fun m n h =>
    BitVec.eq_of_toNat_eq (by rw [byteOf_toNat, concatWord_toNat _ (by simp), BitVec.toNat_ofNat, h])
  have number : concatFrom 0 [(v3, 8), (v2, 8), (v1, 8), (v0, 8)] =
      v3 % 256 * 16777216 + v2 % 256 * 65536 + v1 % 256 * 256 + v0 % 256 := by
    simp only [concatFrom]
    omega
  rw [number] at field
  rw [leBytes, field 0 v0 (by omega), field 1 v1 (by omega), field 2 v2 (by omega), field 3 v3 (by omega)]

/-- R142's table: the bytes of a pixel in ascending offset order. -/
def rgb8Bytes (swap : Bool) (p : Pixel) : List Byte :=
  if swap then [BitVec.ofNat 8 p.a, BitVec.ofNat 8 p.b, BitVec.ofNat 8 p.c, 0xFF#8]
  else [BitVec.ofNat 8 p.c, BitVec.ofNat 8 p.b, BitVec.ofNat 8 p.a, 0xFF#8]

theorem groupRgb8_eq (hostLe swap : Bool) (P : List Pixel) :
    groupRgb8 hostLe swap P = rgb8Bytes swap (slotPixel P 0) := by
  rw [groupRgb8, storeLe_eq]
  cases swap with
  | false => exact leBytes_concatWord ..
  | true => exact leBytes_concatWord ..

/-- Components that fit 8 bits (`40_clamp.md` R112) are their bytes. -/
theorem unpackRgb8_rgb8Bytes (swap : Bool) (p : Pixel) (h : p.fits 8) : unpackRgb8 swap (rgb8Bytes swap p) = p := by
  obtain ⟨ha, hb, hc⟩ := h
  have pixel : (⟨(BitVec.ofNat 8 p.a).toNat, (BitVec.ofNat 8 p.b).toNat, (BitVec.ofNat 8 p.c).toNat⟩ : Pixel) = p := by
    simp only [BitVec.toNat_ofNat, Nat.mod_eq_of_lt ha, Nat.mod_eq_of_lt hb, Nat.mod_eq_of_lt hc]
  cases swap with
  | false => exact pixel
  | true => exact pixel

/-- Settles O26: the bytes of the group are those of R142's table in either lane order. -/
theorem rgb8RoundTrip : Obligations.Rgb8RoundTrip := by
  intro hostLe swap p hp
  rw [groupRgb8_eq]
  exact ⟨unpackRgb8_rgb8Bytes swap p hp, by cases swap <;> rfl⟩

/-! What an accepted PACK of a defined plane stores (`47_dispatch.md` R204, R211, R212) -/

/-- In a block of any configuration it completes, stores byte `m` of group `g` of every row, and leaves all else. -/
theorem execWith_pack_stores (cfg : Config) (f : WireFormat) (s : State)
    (ha : PackAccepted (floorStride f (widthOf s)) (descriptor f).rowAlign s) (hd : PlaneDefined s)
    (hr : Unraced s) :
    ∃ t, execWith cfg (packInstr f) s = .next t ∧
      t = succeeded (floorStride f (widthOf s)) (setDst t.dst s) ∧
      (∀ y g m, y < heightOf s → g < groupsPerRow f (floorStride f (widthOf s)) → m < (descriptor f).groupBytes →
        Memory.read? t.dst (dstOffset s.stride.toNat y (g * (descriptor f).groupBytes + m)) =
          some ((packedGroup cfg f s y g).getD m 0)) ∧
      (∀ o, ¬ InExtent (heightOf s) s.stride.toNat (floorStride f (widthOf s)) o →
        Memory.read? t.dst o = Memory.read? s.dst o) := by
  rw [execWith_of_packFormatOf cfg _ f (packFormatOf_packInstr f)]
  exact ⟨packedState cfg f s, packCommand_next cfg f s ha (planeReadable_of_unraced s hd hr.1),
    packedState_eq cfg f s hr, packedState_read_group cfg f s hr ha.stride_covers,
    packedState_read_outside cfg f s⟩

/-- A group of one pixel has the pixel's own number (R204). -/
theorem groupSlots_of_one_pixel {f : WireFormat} (h : (descriptor f).groupPixels = 1) (s : State) (y x : Nat) :
    groupSlots f s y x = [pixelAt s (descriptor f).depth y x] := by
  simp [groupSlots, h]

/-! The 8-bit RGB formats (`42_pack_rgb8.md` R143, R144) -/

/-- The format of each channel order. -/
def rgb8Format (swap : Bool) : WireFormat := if swap then .rgb8r else .rgb8b

theorem descriptor_rgb8Format (swap : Bool) :
    descriptor (rgb8Format swap) = { descriptor .rgb8b with group := .rgb8 swap } := by
  cases swap <;> rfl

theorem floorStride_rgb8Format (swap : Bool) (w : Nat) : floorStride (rgb8Format swap) w = w * 4 := by
  cases swap with
  | false => exact floorStride_rgb8b w
  | true => exact floorStride_rgb8r w

theorem packedGroup_rgb8Format (cfg : Config) (swap : Bool) (s : State) (y x : Nat) :
    packedGroup cfg (rgb8Format swap) s y x = rgb8Bytes swap (pixelAt s 8 y x) := by
  rw [packedGroup, groupSlots_of_one_pixel (by rw [descriptor_rgb8Format]; rfl), descriptor_rgb8Format]
  exact groupRgb8_eq ..

/-- The PACK command of either channel order stores the four bytes of R142's table for every pixel. -/
theorem exec_packRgb8_stores (swap : Bool) (s : State) (ha : PackAccepted (widthOf s * 4) 4 s)
    (hd : PlaneDefined s) (hr : Unraced s) :
    ∃ t, exec (packInstr (rgb8Format swap)) s = .next t ∧ t = succeeded (widthOf s * 4) (setDst t.dst s) ∧
      (∀ y x, y < heightOf s → x < widthOf s →
        let bytes := rgb8Bytes swap (pixelAt s 8 y x)
        Memory.read? t.dst (dstOffset s.stride.toNat y (4 * x)) = some (bytes.getD 0 0) ∧
        Memory.read? t.dst (dstOffset s.stride.toNat y (4 * x + 1)) = some (bytes.getD 1 0) ∧
        Memory.read? t.dst (dstOffset s.stride.toNat y (4 * x + 2)) = some (bytes.getD 2 0) ∧
        Memory.read? t.dst (dstOffset s.stride.toNat y (4 * x + 3)) = some (bytes.getD 3 0)) ∧
      (∀ o, ¬ InExtent (heightOf s) s.stride.toNat (widthOf s * 4) o →
        Memory.read? t.dst o = Memory.read? s.dst o) := by
  have groups : groupsPerRow (rgb8Format swap) (widthOf s * 4) = widthOf s := by
    rw [groupsPerRow, descriptor_rgb8Format]
    exact Nat.mul_div_cancel _ (by decide)
  have stores := execWith_pack_stores defaultConfig (rgb8Format swap) s
  rw [floorStride_rgb8Format, groups, descriptor_rgb8Format, execWith_default] at stores
  obtain ⟨t, next, frame, group, outside⟩ := stores ha hd hr
  refine ⟨t, next, frame, fun y x hy hx => ?_, outside⟩
  have byte : ∀ m, m < 4 → Memory.read? t.dst (dstOffset s.stride.toNat y (4 * x + m)) =
      some ((rgb8Bytes swap (pixelAt s 8 y x)).getD m 0) := by
    intro m hm
    rw [Nat.mul_comm 4 x, ← packedGroup_rgb8Format defaultConfig]
    exact group y x m hy hx hm
  exact ⟨byte 0 (by decide), byte 1 (by decide), byte 2 (by decide), byte 3 (by decide)⟩

/-- Settles O18: the two commands are the two channel orders. -/
theorem packRgb8StoresPixels : Obligations.PackRgb8StoresPixels :=
  fun s ha hd hr => ⟨exec_packRgb8_stores false s ha hd hr, exec_packRgb8_stores true s ha hd hr⟩

end Sys2Proof.Machine
end

section
/-! PROOFS of the family `43_pack_yuv8.md`: what a pair of pixels leaves of itself in its four bytes (R151, R152,
R155), and what PACK.YUV8 stores (R153, R154). -/

namespace Sys2Proof.Machine

/-! The bytes of a pair (`43_pack_yuv8.md` R152, R155) -/

/-- A component that fits 8 bits (`40_clamp.md` R112) is its byte. -/
theorem toNat_byte_of_lt {n : Nat} (h : n < 2 ^ 8) : (BitVec.ofNat 8 n).toNat = n :=
  (BitVec.toNat_ofNat n 8).trans (Nat.mod_eq_of_lt h)

theorem unpackYuv8Even_groupYuv8 (p q : Pixel) (h : p.fits 8) : unpackYuv8Even (groupYuv8 [p, q]) = p := by
  obtain ⟨ha, hb, hc⟩ := h
  change (⟨(BitVec.ofNat 8 p.a).toNat, (BitVec.ofNat 8 p.b).toNat, (BitVec.ofNat 8 p.c).toNat⟩ : Pixel) = p
  rw [toNat_byte_of_lt ha, toNat_byte_of_lt hb, toNat_byte_of_lt hc]

theorem unpackYuv8OddLuma_groupYuv8 (p q : Pixel) (h : q.fits 8) : unpackYuv8OddLuma (groupYuv8 [p, q]) = q.a :=
  toNat_byte_of_lt h.1

/-- Settles O27: no byte of the group is made from the odd pixel's chroma. -/
theorem yuv8RoundTrip : Obligations.Yuv8RoundTrip :=
  ⟨fun p q hp hq => ⟨unpackYuv8Even_groupYuv8 p q hp, unpackYuv8OddLuma_groupYuv8 p q hq, fun _ _ => rfl⟩,
    by decide, by decide⟩

/-! The pairs of a row (`43_pack_yuv8.md` R153, R154) -/

/-- The pairs fill the floor stride. -/
theorem groupsPerRow_yuv8 (w : Nat) : groupsPerRow .yuv8 ((w + 1) / 2 * 4) = (w + 1) / 2 :=
  Nat.mul_div_cancel _ (by decide)

/-- Group `p` of a row holds its pixels `2 p` and `2 p + 1` (`47_dispatch.md` R204). -/
theorem groupSlots_yuv8 (s : State) (y p : Nat) :
    groupSlots .yuv8 s y p = [pixelAt s 8 y (2 * p), pixelAt s 8 y (2 * p + 1)] := by
  rw [Nat.mul_comm 2 p]
  rfl

theorem packedGroup_yuv8 (cfg : Config) (s : State) (y p : Nat) :
    packedGroup cfg .yuv8 s y p = groupYuv8 [pixelAt s 8 y (2 * p), pixelAt s 8 y (2 * p + 1)] := by
  rw [← groupSlots_yuv8]
  rfl

/-- Settles O19: the stores of any PACK at the bytes of a pair; the odd slot of an odd width is beyond the width, so
its pixel is the zero pixel. -/
theorem packYuv8StoresPairs : Obligations.PackYuv8StoresPairs := by
  intro s ha hd hr
  have stores := execWith_pack_stores defaultConfig .yuv8 s
  rw [floorStride_yuv8, groupsPerRow_yuv8, execWith_default] at stores
  obtain ⟨t, next, frame, group, outside⟩ := stores ha hd hr
  refine ⟨t, next, frame, fun y p hy hp => ?_, outside⟩
  have byte : ∀ m, m < 4 → Memory.read? t.dst (dstOffset s.stride.toNat y (4 * p + m)) =
      some ((groupYuv8 [pixelAt s 8 y (2 * p), pixelAt s 8 y (2 * p + 1)]).getD m 0) := by
    intro m hm
    rw [Nat.mul_comm 4 p, ← packedGroup_yuv8 defaultConfig]
    exact group y p m hy hp hm
  refine ⟨byte 0 (by decide), byte 1 (by decide), byte 2 (by decide), byte 3 (by decide), fun unused => ?_⟩
  have odd := byte 3 (by decide)
  rw [pixelAt_unused s 8 y (2 * p + 1) unused] at odd
  exact odd

end Sys2Proof.Machine
end

section
/-! PROOFS of the family `44_pack_r210.md`: the four bytes of a 10-bit RGB pixel (R161, R162), that they give the pixel
back (R166), and what PACK.R210 stores (R164, R165), for every `R210_WORD` and for the default one. -/

namespace Sys2Proof.Machine

/-! A word stored big-endian (`00_scope.md` R11) -/

theorem getD_beBytes (w : Word) (m : Nat) (hm : m < 4) : (beBytes w).getD m 0 = byteOf w (3 - m) := by
  have single := getD_flatMap_beBytes (fun _ => w) 1 0 m (by decide) hm
  rwa [Nat.mul_zero, Nat.zero_add] at single

/-- The number of the bytes is the word itself. -/
theorem beNumber_beBytes (w : Word) : beNumber (beBytes w) = w.toNat := by
  change (byteOf w 3).toNat * 2 ^ 24 + (byteOf w 2).toNat * 2 ^ 16 + (byteOf w 1).toNat * 2 ^ 8 + (byteOf w 0).toNat = _
  simp only [byteOf_toNat]
  omega

theorem groupR210_eq (cfg : Config) (hostLe : Bool) (p : Pixel) :
    groupR210 cfg hostLe [p] = beBytes (cfg.r210Word p.a p.b p.c) := storeBe_eq ..

/-! The default word (`44_pack_r210.md` R161, R162; log entry 9) -/

/-- R161's formula `a << 20 | b << 10 | c` as a number. -/
theorem defaultR210Word_toNat (p : Pixel) (h : p.fits 10) :
    (defaultR210Word p.a p.b p.c).toNat = p.a * 2 ^ 20 + p.b * 2 ^ 10 + p.c := by
  obtain ⟨ha, hb, hc⟩ := h
  rw [defaultR210Word, concatWord_toNat _ (by simp)]
  simp only [concatFrom, Nat.mod_eq_of_lt ha, Nat.mod_eq_of_lt hb, Nat.mod_eq_of_lt hc]
  omega

/-- R162's table: the bytes of a pixel in ascending offset order. -/
def r210Bytes (p : Pixel) : List Byte :=
  [BitVec.ofNat 8 (p.a / 16), BitVec.ofNat 8 (p.a % 16 * 16 + p.b / 64),
   BitVec.ofNat 8 (p.b % 64 * 4 + p.c / 256), BitVec.ofNat 8 (p.c % 256)]

theorem beBytes_defaultR210Word (p : Pixel) (h : p.fits 10) :
    beBytes (defaultR210Word p.a p.b p.c) = r210Bytes p := by
  have field : ∀ m n, (p.a * 2 ^ 20 + p.b * 2 ^ 10 + p.c) / 2 ^ (8 * m) % 2 ^ 8 = n % 2 ^ 8 →
      byteOf (defaultR210Word p.a p.b p.c) m = BitVec.ofNat 8 n := fun m n eq =>
    BitVec.eq_of_toNat_eq (by rw [byteOf_toNat, defaultR210Word_toNat p h, BitVec.toNat_ofNat, eq])
  obtain ⟨ha, hb, hc⟩ := h
  rw [beBytes, r210Bytes, field 3 (p.a / 16) (by omega), field 2 (p.a % 16 * 16 + p.b / 64) (by omega),
    field 1 (p.b % 64 * 4 + p.c / 256) (by omega), field 0 (p.c % 256) (by omega)]

/-- Settles O28: the number of the group's bytes is R161's word, whose slices are the three channels. -/
theorem r210RoundTrip : Obligations.R210RoundTrip := by
  intro hostLe p hp
  have number : beNumber (groupR210 defaultConfig hostLe [p]) = p.a * 2 ^ 20 + p.b * 2 ^ 10 + p.c := by
    rw [groupR210_eq, beNumber_beBytes]
    exact defaultR210Word_toNat p hp
  obtain ⟨ha, hb, hc⟩ := hp
  have channels : slice (p.a * 2 ^ 20 + p.b * 2 ^ 10 + p.c) 29 20 = p.a ∧
      slice (p.a * 2 ^ 20 + p.b * 2 ^ 10 + p.c) 19 10 = p.b ∧ slice (p.a * 2 ^ 20 + p.b * 2 ^ 10 + p.c) 9 0 = p.c ∧
      slice (p.a * 2 ^ 20 + p.b * 2 ^ 10 + p.c) 31 30 = 0 := by
    simp only [slice]
    omega
  obtain ⟨a, b, c, padding⟩ := channels
  rw [unpackR210, number, a, b, c]
  exact ⟨rfl, padding⟩

/-! The slots of a row (`44_pack_r210.md` R164, R165) -/

/-- The slots of the 64-slot units fill the floor stride. -/
theorem groupsPerRow_r210 (w : Nat) : groupsPerRow .r210 ((w + 63) / 64 * 256) = (w + 63) / 64 * 64 := by
  change (w + 63) / 64 * 256 / 4 = _
  omega

theorem packedGroup_r210 (cfg : Config) (s : State) (y x : Nat) :
    packedGroup cfg .r210 s y x =
      beBytes (cfg.r210Word (pixelAt s 10 y x).a (pixelAt s 10 y x).b (pixelAt s 10 y x).c) := by
  rw [packedGroup, groupSlots_of_one_pixel rfl]
  exact groupR210_eq ..

/-- Settles O21: the stores of any PACK at the bytes of a slot, whose word is stored big-endian; a slot beyond the
width holds the zero pixel. -/
theorem r210HoldsForEveryWordFunction : Obligations.R210HoldsForEveryWordFunction := by
  intro cfg s ha hd hr
  have stores := execWith_pack_stores cfg .r210 s
  rw [floorStride_r210, groupsPerRow_r210] at stores
  obtain ⟨t, next, frame, group, outside⟩ := stores ha hd hr
  refine ⟨t, next, frame, fun y x m hy hx hm => ?_, outside⟩
  have byte : Memory.read? t.dst (dstOffset s.stride.toNat y (4 * x + m)) =
      some (byteOf (cfg.r210Word (pixelAt s 10 y x).a (pixelAt s 10 y x).b (pixelAt s 10 y x).c) (3 - m)) := by
    rw [Nat.mul_comm 4 x, ← getD_beBytes _ m hm, ← packedGroup_r210]
    exact group y x m hy hx hm
  refine ⟨byte, fun unused => ?_⟩
  rw [pixelAt_unused s 10 y x unused] at byte
  exact byte

/-- Settles O20: the default word of a clamped pixel has the bytes of R162's table, that of the zero pixel four zero
bytes. -/
theorem packR210StoresWords : Obligations.PackR210StoresWords := by
  intro s ha hd hr
  obtain ⟨t, next, frame, word, outside⟩ := r210HoldsForEveryWordFunction defaultConfig s ha hd hr
  rw [execWith_default] at next
  refine ⟨t, next, frame, fun y x hy hx => ?_, outside⟩
  have byte : ∀ m, m < 4 → Memory.read? t.dst (dstOffset s.stride.toNat y (4 * x + m)) =
      some ((r210Bytes (pixelAt s 10 y x)).getD m 0) := by
    intro m hm
    rw [← beBytes_defaultR210Word _ (pixelAt_fits s 10 y x), getD_beBytes _ m hm]
    exact (word y x m hy hx hm).1
  have zeroBytes : ∀ m, m < 4 → (r210Bytes zeroPixel).getD m 0 = 0#8 := by decide
  refine ⟨byte 0 (by decide), byte 1 (by decide), byte 2 (by decide), byte 3 (by decide), fun unused m hm => ?_⟩
  rw [byte m hm, pixelAt_unused s 10 y x unused, zeroBytes m hm]

end Sys2Proof.Machine
end

section
/-! PROOFS of the family `45_pack_yuv10.md`: the four bytes of a 10-bit YUV pixel (R171, R172), that they give the pixel
back (R174), and what PACK.YUV10 stores (R173). -/

namespace Sys2Proof.Machine

/-! A word stored little-endian (`00_scope.md` R11) -/

/-- The number of the bytes is the word itself. -/
theorem leNumber_leBytes (w : Word) : leNumber (leBytes w) = w.toNat := by
  simp only [leBytes, leNumber, byteOf_toNat]
  omega

/-- A byte of a word is the byte of any number that has the same eight bits there. -/
theorem byteOf_eq_ofNat {w : Word} {m n : Nat} (h : w.toNat / 2 ^ (8 * m) % 2 ^ 8 = n % 2 ^ 8) :
    byteOf w m = BitVec.ofNat 8 n :=
  BitVec.eq_of_toNat_eq (by rw [byteOf_toNat, BitVec.toNat_ofNat, h])

/-! The bytes of a pixel (`45_pack_yuv10.md` R171, R172) -/

/-- R171's word as a number: V above Y above U. -/
theorem yuv10Word_toNat (p : Pixel) (h : p.fits 10) :
    (yuv10Word p.a p.b p.c).toNat = p.c * 2 ^ 20 + p.a * 2 ^ 10 + p.b := by
  obtain ⟨ha, hb, hc⟩ := h
  rw [yuv10Word, concatWord_toNat _ (by simp)]
  simp only [concatFrom, Nat.mod_eq_of_lt ha, Nat.mod_eq_of_lt hb, Nat.mod_eq_of_lt hc]
  omega

/-- R172's table: the bytes of a pixel in ascending offset order. -/
def yuv10Bytes (p : Pixel) : List Byte :=
  [BitVec.ofNat 8 (p.b % 256), BitVec.ofNat 8 (p.a % 64 * 4 + p.b / 256),
   BitVec.ofNat 8 (p.c % 16 * 16 + p.a / 64), BitVec.ofNat 8 (p.c / 16)]

theorem groupYuv10_eq (hostLe : Bool) (p : Pixel) : groupYuv10 hostLe [p] = leBytes (yuv10Word p.a p.b p.c) :=
  storeLe_eq ..

theorem leBytes_yuv10Word (p : Pixel) (h : p.fits 10) : leBytes (yuv10Word p.a p.b p.c) = yuv10Bytes p := by
  have number := yuv10Word_toNat p h
  obtain ⟨ha, hb, hc⟩ := h
  have byte0 : byteOf (yuv10Word p.a p.b p.c) 0 = BitVec.ofNat 8 (p.b % 256) := byteOf_eq_ofNat (by omega)
  have byte1 : byteOf (yuv10Word p.a p.b p.c) 1 = BitVec.ofNat 8 (p.a % 64 * 4 + p.b / 256) :=
    byteOf_eq_ofNat (by omega)
  have byte2 : byteOf (yuv10Word p.a p.b p.c) 2 = BitVec.ofNat 8 (p.c % 16 * 16 + p.a / 64) :=
    byteOf_eq_ofNat (by omega)
  have byte3 : byteOf (yuv10Word p.a p.b p.c) 3 = BitVec.ofNat 8 (p.c / 16) := byteOf_eq_ofNat (by omega)
  rw [leBytes, byte0, byte1, byte2, byte3, yuv10Bytes]

/-- Settles O29: the number of the group's bytes is R171's word, whose slices are the three channels and the zero
padding; the boundary pixels have the bytes of R172's table. -/
theorem yuv10RoundTrip : Obligations.Yuv10RoundTrip := by
  intro hostLe
  have bytes : ∀ p : Pixel, p.fits 10 → groupYuv10 hostLe [p] = yuv10Bytes p := fun p hp =>
    (groupYuv10_eq hostLe p).trans (leBytes_yuv10Word p hp)
  have boundary : zeroPixel.fits 10 ∧ (⟨1023, 1023, 1023⟩ : Pixel).fits 10 := by unfold Pixel.fits; decide
  refine ⟨fun p hp => ?_, (bytes _ boundary.1).trans (by decide), (bytes _ boundary.2).trans (by decide)⟩
  have number : leNumber (groupYuv10 hostLe [p]) = p.c * 2 ^ 20 + p.a * 2 ^ 10 + p.b := by
    rw [groupYuv10_eq, leNumber_leBytes, yuv10Word_toNat p hp]
  obtain ⟨ha, hb, hc⟩ := hp
  have fields : slice (leNumber (groupYuv10 hostLe [p])) 19 10 = p.a ∧
      slice (leNumber (groupYuv10 hostLe [p])) 9 0 = p.b ∧ slice (leNumber (groupYuv10 hostLe [p])) 29 20 = p.c ∧
      slice (leNumber (groupYuv10 hostLe [p])) 31 30 = 0 := by
    simp only [slice, number]
    omega
  obtain ⟨luma, u, v, padding⟩ := fields
  rw [unpackYuv10, luma, u, v]
  exact ⟨rfl, padding⟩

/-! The pixels of a row (`45_pack_yuv10.md` R173) -/

/-- The pixels of a row fill the floor stride. -/
theorem groupsPerRow_yuv10 (w : Nat) : groupsPerRow .yuv10 (w * 4) = w :=
  Nat.mul_div_cancel _ (by decide)

/-- Clamping makes every pixel fit, so its group is R172's table (`47_dispatch.md` R208). -/
theorem packedGroup_yuv10 (cfg : Config) (s : State) (y x : Nat) :
    packedGroup cfg .yuv10 s y x = yuv10Bytes (pixelAt s 10 y x) := by
  rw [packedGroup, groupSlots_of_one_pixel rfl, ← leBytes_yuv10Word _ (pixelAt_fits s 10 y x)]
  exact groupYuv10_eq ..

/-- Settles O22: the stores of any PACK at the bytes of a pixel. -/
theorem packYuv10StoresWords : Obligations.PackYuv10StoresWords := by
  intro s ha hd hr
  have stores := execWith_pack_stores defaultConfig .yuv10 s
  rw [floorStride_yuv10, groupsPerRow_yuv10, execWith_default] at stores
  obtain ⟨t, next, frame, group, outside⟩ := stores ha hd hr
  refine ⟨t, next, frame, fun y x hy hx => ?_, outside⟩
  have byte : ∀ m, m < 4 → Memory.read? t.dst (dstOffset s.stride.toNat y (4 * x + m)) =
      some ((yuv10Bytes (pixelAt s 10 y x)).getD m 0) := by
    intro m hm
    rw [Nat.mul_comm 4 x, ← packedGroup_yuv10 defaultConfig]
    exact group y x m hy hx hm
  exact ⟨byte 0 (by decide), byte 1 (by decide), byte 2 (by decide), byte 3 (by decide)⟩

end Sys2Proof.Machine
end

section
/-! PROOFS of the family `46_pack_rgb12.md`: the default 12-bit map is admissible (R181, R182), what any admissible map
packs (R181 (f), R187, R191), the two variants and their bytes (R184 to R186, R190), and what PACK.R12B and PACK.R12L
store (R183, R188, R189). -/

namespace Sys2Proof.Machine

/-! The default map (`46_pack_rgb12.md` R181, R182; log entry 10) -/

/-- Bit `t` of sample `3 i + c` stands at place `12 (3 i + c) + t` of the stream, wherever that is in byte `q`. -/
theorem defaultR12Map_byte {q n i c t : Nat} (hc : c < 3) (ht : t < 12)
    (place : 8 * q + n = 12 * (3 * i + c) + t) : defaultR12Map (q / 4) (8 * (q % 4) + n) = ⟨i, c, t⟩ := by
  simp only [defaultR12Map, SampleBit.mk.injEq]
  omega

/-- The bits of an even sample start at a byte of their own, those of an odd sample end at one; the byte between the
two holds the high end of the even sample and the low end of the odd one. -/
theorem straddles_defaultR12Map (i c : Nat) (hi : i < 8) (hc : c < 3) : Straddles defaultR12Map i c := by
  have bits : ∀ {q n i' c'} (t : Nat) {lo hi}, c' < 3 → t < 12 → 8 * q + n = 12 * (3 * i' + c') + t →
      lo ≤ t → t < hi → carries (defaultR12Map (q / 4) (8 * (q % 4) + n)) i' c' lo hi := by
    intro q n i' c' t lo hi hc' ht place hlo hhi
    rw [defaultR12Map_byte hc' ht place]
    exact ⟨rfl, rfl, hlo, hhi⟩
  rcases Nat.even_or_odd' (3 * i + c) with ⟨u, even | odd⟩
  · refine ⟨0, 8, 8, 12, .inl rfl, ⟨3 * u / 4, 3 * u % 4, by omega, by omega, fun n hn => ?_⟩,
      (3 * u + 1) / 4, (3 * u + 1) % 4, (3 * i + c + 1) / 3, (3 * i + c + 1) % 3, 0, by omega, by omega, by omega,
      by omega, .inl (by omega), .inl rfl, fun n hn => ?_⟩
    · exact bits n hc (by omega) (by omega) (by omega) (by omega)
    · rcases Nat.lt_or_ge n 4 with low | high
      · exact .inl (bits (n + 8) hc (by omega) (by omega) (by omega) (by omega))
      · exact .inr (bits (n - 4) (by omega) (by omega) (by omega) (by omega) (by omega))
  · refine ⟨4, 12, 0, 4, .inr rfl, ⟨(3 * u + 2) / 4, (3 * u + 2) % 4, by omega, by omega, fun n hn => ?_⟩,
      (3 * u + 1) / 4, (3 * u + 1) % 4, (3 * i + c - 1) / 3, (3 * i + c - 1) % 3, 8, by omega, by omega, by omega,
      by omega, .inr (by omega), .inr rfl, fun n hn => ?_⟩
    · exact bits (n + 4) hc (by omega) (by omega) (by omega) (by omega)
    · rcases Nat.lt_or_ge n 4 with low | high
      · exact .inr (bits (n + 8) (by omega) (by omega) (by omega) (by omega) (by omega))
      · exact .inl (bits (n - 4) hc (by omega) (by omega) (by omega) (by omega))

/-- Settles O31: a place of the stream and the sample bit it carries are each the division of the other. -/
theorem defaultR12MapIsABijection : Obligations.DefaultR12MapIsABijection where
  in_range k b hk hb := by
    change (32 * k + b) / 12 / 3 < 8 ∧ (32 * k + b) / 12 % 3 < 3 ∧ (32 * k + b) % 12 < 12
    omega
  injective k b k' b' hk hb hk' hb' same := by
    change defaultR12Map k b = defaultR12Map k' b' at same
    simp only [defaultR12Map, SampleBit.mk.injEq] at same
    omega
  surjective i c n hi hc hn := by
    refine ⟨(36 * i + 12 * c + n) / 32, (36 * i + 12 * c + n) % 32, by omega, by omega, ?_⟩
    change defaultR12Map _ _ = _
    simp only [defaultR12Map, SampleBit.mk.injEq]
    omega
  straddles := straddles_defaultR12Map

/-! What a map makes of saturated and of zero samples (`46_pack_rgb12.md` R181 (f), R187, R191) -/

/-- Every bit of a saturated 12-bit sample is 1. -/
theorem testBit_saturated {n : Nat} (h : n < 12) : (4095 : Nat).testBit n = true := by
  rw [show 4095 = 2 ^ 12 - 1 by decide, Nat.testBit_two_pow_sub_one]
  exact decide_eq_true h

theorem channel_of_equal (v c : Nat) : (⟨v, v, v⟩ : Pixel).channel c = v :=
  match c with
  | 0 => rfl
  | 1 => rfl
  | _ + 2 => rfl

theorem slotPixel_replicate (p : Pixel) {n i : Nat} (h : i < n) : slotPixel (List.replicate n p) i = p := by
  simp [slotPixel, h]

/-- A group whose nine words are all the same. -/
theorem groupR12_of_equal_words {cfg : Config} {P : List Pixel} (hostLe be : Bool) {w : Word}
    (h : ∀ k, k < 9 → r12Word cfg P k = w) :
    groupR12 cfg hostLe be P = (List.range 9).flatMap fun _ => if be then beBytes w else leBytes w := by
  rw [groupR12_eq]
  exact List.flatMap_congr fun k hk => by rw [h k (List.mem_range.1 hk)]

/-- In a group of eight equal grey pixels a place takes a bit of their one sample value. -/
theorem getLsbD_r12Word_grey {cfg : Config} (map : AdmissibleMap cfg.r12Map) (v : Nat) {k b : Nat} (hk : k < 9)
    (hb : b < 32) :
    (r12Word cfg (List.replicate 8 ⟨v, v, v⟩) k).getLsbD b = v.testBit (cfg.r12Map k b).bit := by
  obtain ⟨slot, -, -⟩ := map.in_range k b hk hb
  rw [getLsbD_r12Word _ _ _ _ hb, sampleBitOf, slotPixel_replicate _ slot, channel_of_equal]

theorem r12Word_white {cfg : Config} (map : AdmissibleMap cfg.r12Map) {k : Nat} (hk : k < 9) :
    r12Word cfg (List.replicate 8 ⟨4095, 4095, 4095⟩) k = BitVec.allOnes 32 := by
  apply BitVec.eq_of_getLsbD_eq
  intro b hb
  obtain ⟨-, -, bit⟩ := map.in_range k b hk hb
  rw [getLsbD_r12Word_grey map _ hk hb, testBit_saturated bit, BitVec.getLsbD_allOnes, decide_eq_true hb]

theorem r12Word_black {cfg : Config} (map : AdmissibleMap cfg.r12Map) {k : Nat} (hk : k < 9) :
    r12Word cfg (List.replicate 8 ⟨0, 0, 0⟩) k = 0#32 := by
  apply BitVec.eq_of_getLsbD_eq
  intro b hb
  rw [getLsbD_r12Word_grey map _ hk hb, Nat.zero_testBit, BitVec.getLsbD_zero]

/-- Settles O32: the default map is admissible too, and an admissible map takes bits 0 to 11 of samples of the
group. -/
theorem r12WhiteAndBlackForEveryMap : Obligations.R12WhiteAndBlackForEveryMap := by
  intro cfg hostLe be h
  have map : AdmissibleMap cfg.r12Map := by
    rcases h with map | rfl
    · exact map
    · exact defaultR12MapIsABijection
  rw [groupR12_of_equal_words hostLe be fun k hk => r12Word_white map hk,
    groupR12_of_equal_words hostLe be fun k hk => r12Word_black map hk]
  cases be <;> decide

/-- The samples of a group of zeros but for one. -/
theorem channel_oneSample (slot channel v : Nat) {i c : Nat} (hi : i < 8) (hc : c < 3) :
    (slotPixel (oneSample slot channel v) i).channel c = if i = slot ∧ c = channel then v else 0 := by
  have pixel : slotPixel (oneSample slot channel v) i =
      if i = slot then ⟨if channel = 0 then v else 0, if channel = 1 then v else 0, if channel = 2 then v else 0⟩
      else zeroPixel := by
    simp [slotPixel, oneSample, hi]
  rw [pixel]
  by_cases at_slot : i = slot
  · simp only [at_slot, true_and, if_true]
    interval_cases c <;> exact if_congr eq_comm rfl rfl
  · rw [if_neg at_slot, if_neg fun h => at_slot h.1]
    exact channel_of_equal 0 c

/-- Settles O33: a place takes a bit below 12, which is 1 in the saturated sample and 0 in the others. -/
theorem r12SaturatedSampleSetsItsBits : Obligations.R12SaturatedSampleSetsItsBits := by
  intro cfg slot channel k b map _ _ hk hb
  obtain ⟨slot_lt, channel_lt, bit_lt⟩ := map.in_range k b hk hb
  rw [getLsbD_r12Word _ _ _ _ hb, sampleBitOf, channel_oneSample _ _ _ slot_lt channel_lt]
  split
  case isTrue own => rw [testBit_saturated bit_lt, decide_eq_true own]
  case isFalse other => rw [Nat.zero_testBit, decide_eq_false other]

/-- Settles O35: the places of such a byte lie behind the `36 r` bits of the first `r` slots, so each takes a bit of a
zero pixel. -/
theorem r12PartialGroupZeroFilled : Obligations.R12PartialGroupZeroFilled := by
  intro hostLe P r t _ _ _ unused from_end ht _
  have behind : 36 * r ≤ 8 * t := by
    unfold ceilDiv at from_end
    omega
  have zero : (groupR12 defaultConfig hostLe false P).getD t 0 = 0#8 := by
    apply BitVec.eq_of_getLsbD_eq
    intro n hn
    have place := testBit_leNumber (groupR12 defaultConfig hostLe false P) (8 * t + n)
    rw [show (8 * t + n) / 8 = t by omega, show (8 * t + n) % 8 = n by omega,
      testBit_groupR12_default _ _ _ (by omega), unused _ (by omega) (by omega), zeroPixel, channel_of_equal,
      Nat.zero_testBit] at place
    rw [← place, BitVec.getLsbD_zero]
  rw [byteNat, zero]
  rfl

/-! The two variants (`46_pack_rgb12.md` R184 to R186) and the way back (R190) -/

/-- Settles O34: both are the same nine words, each in its byte order. -/
theorem r12VariantsDifferInByteOrderOnly : Obligations.R12VariantsDifferInByteOrderOnly := by
  intro cfg hostLe P
  rw [groupR12_eq cfg hostLe true, groupR12_eq cfg hostLe false]
  exact reverseUnits_flatMap_beBytes ..

theorem map_slotPixel_range (P : List Pixel) : (List.range P.length).map (slotPixel P) = P := by
  apply List.ext_getElem
  · simp
  · intro i _ h
    simp [slotPixel, h]

theorem unpackR12l_groupR12 (hostLe : Bool) (P : List Pixel) (length : P.length = 8) (fits : ∀ p ∈ P, p.fits 12) :
    unpackR12l (groupR12 defaultConfig hostLe false P) = P := by
  have sample := unpackSample_groupR12 hostLe P fits
  conv_rhs => rw [← map_slotPixel_range P, length]
  refine List.map_congr_left fun i hi => ?_
  have hi : i < 8 := List.mem_range.1 hi
  rw [sample (3 * i) (by omega), sample (3 * i + 1) (by omega), sample (3 * i + 2) (by omega),
    show 3 * i / 3 = i by omega, show (3 * i + 1) / 3 = i by omega, show (3 * i + 2) / 3 = i by omega,
    show 3 * i % 3 = 0 by omega, show (3 * i + 1) % 3 = 1 by omega, show (3 * i + 2) % 3 = 2 by omega]
  rfl

/-- Settles O30: R12B is unpacked through the R12L group it is the reverse of. -/
theorem r12RoundTrip : Obligations.R12RoundTrip := by
  intro hostLe P length fits
  rw [unpackR12b, r12VariantsDifferInByteOrderOnly]
  exact and_self_iff.2 (unpackR12l_groupR12 hostLe P length fits)

/-! The groups of a row (`46_pack_rgb12.md` R188, R189) -/

/-- The format of each byte order. -/
def r12Format (be : Bool) : WireFormat := if be then .r12b else .r12l

/-- Which byte of its word the variant stores at offset `m` of it (R184, R185). -/
def r12ByteAt : Bool → Nat → Nat
  | true, m => 3 - m
  | false, m => m

/-- The eight pixel slots of a group (R186). -/
def r12Slots (s : State) (y g : Nat) : List Pixel := (List.range 8).map fun i => pixelAt s 12 y (8 * g + i)

theorem slotPixel_r12Slots (s : State) (y g : Nat) {i : Nat} (h : i < 8) :
    slotPixel (r12Slots s y g) i = pixelAt s 12 y (8 * g + i) := by
  simp [slotPixel, r12Slots, h]

theorem getD_groupR12 (cfg : Config) (hostLe be : Bool) (P : List Pixel) {k m : Nat} (hk : k < 9) (hm : m < 4) :
    (groupR12 cfg hostLe be P).getD (4 * k + m) 0 = byteOf (r12Word cfg P k) (r12ByteAt be m) := by
  cases be
  · exact groupR12_little cfg hostLe P k m hk hm
  · exact groupR12_big cfg hostLe P k m hk hm

theorem floorStride_r12Format (be : Bool) (w : Nat) : floorStride (r12Format be) w = (w + 7) / 8 * 36 := by
  cases be
  · exact floorStride_r12l w
  · exact floorStride_r12b w

theorem rowAlign_r12Format (be : Bool) : (descriptor (r12Format be)).rowAlign = 36 := by cases be <;> rfl

theorem groupBytes_r12Format (be : Bool) : (descriptor (r12Format be)).groupBytes = 36 := by cases be <;> rfl

/-- The groups of eight fill the floor stride. -/
theorem groupsPerRow_r12Format (be : Bool) (w : Nat) :
    groupsPerRow (r12Format be) ((w + 7) / 8 * 36) = (w + 7) / 8 := by
  rw [groupsPerRow, groupBytes_r12Format]
  exact Nat.mul_div_cancel _ (by decide)

theorem packedGroup_r12Format (cfg : Config) (be : Bool) (s : State) (y g : Nat) :
    packedGroup cfg (r12Format be) s y g = groupR12 cfg s.hostLe be (r12Slots s y g) := by
  rw [r12Slots, Nat.mul_comm 8 g]
  cases be <;> rfl

/-- In a block of any configuration the stores of a PACK are the bytes of the nine words of every group, each word in
the variant's byte order. -/
theorem execWith_packR12_stores (cfg : Config) (be : Bool) (s : State)
    (ha : PackAccepted ((widthOf s + 7) / 8 * 36) 36 s) (hd : PlaneDefined s) (hr : Unraced s) :
    ∃ t, execWith cfg (packInstr (r12Format be)) s = .next t ∧
      t = succeeded ((widthOf s + 7) / 8 * 36) (setDst t.dst s) ∧
      (∀ y g k m, y < heightOf s → g < (widthOf s + 7) / 8 → k < 9 → m < 4 →
        Memory.read? t.dst (dstOffset s.stride.toNat y (36 * g + 4 * k + m)) =
          some (byteOf (r12Word cfg (r12Slots s y g) k) (r12ByteAt be m))) ∧
      (∀ o, ¬ InExtent (heightOf s) s.stride.toNat ((widthOf s + 7) / 8 * 36) o →
        Memory.read? t.dst o = Memory.read? s.dst o) := by
  have stores := execWith_pack_stores cfg (r12Format be) s
  rw [floorStride_r12Format, rowAlign_r12Format, groupBytes_r12Format, groupsPerRow_r12Format] at stores
  obtain ⟨t, next, frame, group, outside⟩ := stores ha hd hr
  refine ⟨t, next, frame, fun y g k m hy hg hk hm => ?_, outside⟩
  rw [Nat.mul_comm 36 g, Nat.add_assoc, ← getD_groupR12 cfg s.hostLe be _ hk hm, ← packedGroup_r12Format]
  exact group y g (4 * k + m) hy hg (by omega)

/-- Bit `n` of byte `m` of a word of a group is the sample bit the map names for that place (R182). -/
theorem getLsbD_byteOf_r12Word {cfg : Config} (map : AdmissibleMap cfg.r12Map) (s : State) (y g : Nat) {k m n : Nat}
    (hk : k < 9) (hm : m < 4) (hn : n < 8) {r : SampleBit} (hr : r = cfg.r12Map k (8 * m + n)) :
    (byteOf (r12Word cfg (r12Slots s y g) k) m).getLsbD n =
      ((pixelAt s 12 y (8 * g + r.slot)).channel r.channel).testBit r.bit := by
  subst hr
  obtain ⟨slot, -, -⟩ := map.in_range k (8 * m + n) hk (by omega)
  rw [getLsbD_byteOf _ _ _ hn, getLsbD_r12Word _ _ _ _ (by omega), sampleBitOf, slotPixel_r12Slots s y g slot]

/-- Settles O24: each bit of a stored byte is one of its word's, in either byte order. -/
theorem r12HoldsForEveryMap : Obligations.R12HoldsForEveryMap := by
  intro cfg s map ha hd hr
  constructor
  · obtain ⟨t, next, frame, word, outside⟩ := execWith_packR12_stores cfg true s ha hd hr
    exact ⟨t, next, frame, fun y g k m hy hg hk hm => ⟨_, word y g k m hy hg hk hm,
      fun n r hn => getLsbD_byteOf_r12Word map s y g hk (by omega) hn⟩, outside⟩
  · obtain ⟨t, next, frame, word, outside⟩ := execWith_packR12_stores cfg false s ha hd hr
    exact ⟨t, next, frame, fun y g k m hy hg hk hm => ⟨_, word y g k m hy hg hk hm,
      fun n r hn => getLsbD_byteOf_r12Word map s y g hk hm hn⟩, outside⟩

/-- R183's words read the eight slots alone. -/
theorem writtenWord_congr {p q : Nat → Pixel} (h : ∀ i, i < 8 → p i = q i) (k : Nat) :
    writtenWord p k = writtenWord q k := by
  unfold writtenWord
  rw [h 0 (by decide), h 1 (by decide), h 2 (by decide), h 3 (by decide), h 4 (by decide), h 5 (by decide),
    h 6 (by decide), h 7 (by decide)]

/-- Clamping makes every slot fit, so each word of a group is R183's (`47_dispatch.md` R208). -/
theorem r12Word_r12Slots (s : State) (y g : Nat) {k : Nat} (hk : k < 9) :
    r12Word defaultConfig (r12Slots s y g) k =
      BitVec.ofNat 32 (writtenWord (fun i => pixelAt s 12 y (8 * g + i)) k) := by
  have fits : ∀ i, (slotPixel (r12Slots s y g) i).fits 12 := by
    intro i
    rcases Nat.lt_or_ge i 8 with h | h
    · rw [slotPixel_r12Slots s y g h]
      exact pixelAt_fits ..
    · rw [slotPixel, List.getD_eq_default _ _ (by simpa [r12Slots] using h)]
      exact ⟨by decide, by decide, by decide⟩
  rw [r12Word_default _ fits k hk, writtenWord_congr fun i => slotPixel_r12Slots s y g]

/-- Settles O23: under the default map each stored word is R183's, in either byte order. -/
theorem packR12StoresNineWords : Obligations.PackR12StoresNineWords := by
  intro s ha hd hr
  have stores := fun be => execWith_packR12_stores defaultConfig be s ha hd hr
  rw [execWith_default] at stores
  constructor
  · obtain ⟨t, next, frame, word, outside⟩ := stores true
    refine ⟨t, next, frame, fun y g k m hy hg hk hm => ?_, outside⟩
    rw [← r12Word_r12Slots s y g hk]
    exact word y g k m hy hg hk hm
  · obtain ⟨t, next, frame, word, outside⟩ := stores false
    refine ⟨t, next, frame, fun y g k m hy hg hk hm => ?_, outside⟩
    rw [← r12Word_r12Slots s y g hk]
    exact word y g k m hy hg hk hm

end Sys2Proof.Machine
end

section
/-! PROOFS of the family `47_dispatch.md`: the checks of a PACK in their order (R204 to R207), that every command
completes (R211), and that the bytes of a row depend on that row alone (R213). -/

namespace Sys2Proof.Machine

/-! The checks of a PACK (`47_dispatch.md` R204 to R207) -/

section
variable {i : Instr} {f : WireFormat} {s : State}

/-- R205: WIDTH is checked first. -/
theorem packCheck_of_width (h : s.widthOperand ≤ 0) : packCheck f s = .error (.malformedGeometry .width) :=
  if_pos h

/-- R205: HEIGHT next. -/
theorem packCheck_of_height (hw : 0 < s.widthOperand) (h : s.heightOperand ≤ 0) :
    packCheck f s = .error (.malformedGeometry .height) :=
  (if_neg (not_le.2 hw)).trans (if_pos h)

/-- R205: the floor stride fits a register. -/
theorem packCheck_of_floorTooLarge (hw : 0 < s.widthOperand) (hh : 0 < s.heightOperand)
    (h : 2 ^ 32 ≤ floorStride f (widthOf s)) : packCheck f s = .error (.malformedGeometry .floorTooLarge) :=
  (if_neg (not_le.2 hw)).trans ((if_neg (not_le.2 hh)).trans (if_pos h))

/-- R206: STRIDE covers it. -/
theorem packCheck_of_strideTooSmall (hw : 0 < s.widthOperand) (hh : 0 < s.heightOperand)
    (hf : floorStride f (widthOf s) < 2 ^ 32) (h : s.stride.toNat < floorStride f (widthOf s)) :
    packCheck f s = .error (.malformedGeometry .strideTooSmall) :=
  (if_neg (not_le.2 hw)).trans ((if_neg (not_le.2 hh)).trans ((if_neg (not_le.2 hf)).trans (if_pos h)))

/-- R206: STRIDE is aligned. -/
theorem packCheck_of_strideMisaligned (hw : 0 < s.widthOperand) (hh : 0 < s.heightOperand)
    (hf : floorStride f (widthOf s) < 2 ^ 32) (hst : floorStride f (widthOf s) ≤ s.stride.toNat)
    (h : s.stride.toNat % (descriptor f).rowAlign ≠ 0) :
    packCheck f s = .error (.malformedGeometry .strideMisaligned) :=
  (if_neg (not_le.2 hw)).trans ((if_neg (not_le.2 hh)).trans ((if_neg (not_le.2 hf)).trans
    ((if_neg (not_lt.2 hst)).trans (if_pos h))))

/-- R207: DST_LEN covers the rows. -/
theorem packCheck_of_bufferTooSmall (hw : 0 < s.widthOperand) (hh : 0 < s.heightOperand)
    (hf : floorStride f (widthOf s) < 2 ^ 32) (hst : floorStride f (widthOf s) ≤ s.stride.toNat)
    (hal : s.stride.toNat % (descriptor f).rowAlign = 0) (h : s.dstLen.toNat < heightOf s * s.stride.toNat) :
    packCheck f s = .error (.bufferTooSmall (min (heightOf s * s.stride.toNat) (2 ^ 32 - 1))) :=
  (if_neg (not_le.2 hw)).trans ((if_neg (not_le.2 hh)).trans ((if_neg (not_le.2 hf)).trans
    ((if_neg (not_lt.2 hst)).trans ((if_neg (not_not.2 hal)).trans (if_pos h)))))

/-- A PACK command whose checks fail enters the fault (`60_exceptions.md` R236). -/
theorem exec_pack_of_check_error {e : CommandFault} (hi : packFormatOf i = some f) (h : packCheck f s = .error e) :
    exec i s = .next (faulted e.code e.info.toNat s) := by
  rw [exec_of_packFormatOf i f hi, packCommand_of_check_error _ f s e h, raiseFault_eq_faulted]

/-- An accepted PACK command of a readable plane completes (R211). -/
theorem exec_pack_of_accepted (hi : packFormatOf i = some f)
    (ha : PackAccepted (floorStride f (widthOf s)) (descriptor f).rowAlign s) (hd : PlaneReadable s) :
    exec i s = .next (packedState defaultConfig f s) := by
  rw [exec_of_packFormatOf i f hi, packCommand_next _ f s ha hd]

/-- An accepted PACK command ends in no fault. -/
theorem exec_pack_err_of_accepted (hi : packFormatOf i = some f)
    (ha : PackAccepted (floorStride f (widthOf s)) (descriptor f).rowAlign s) (t : State)
    (h : exec i s = .next t) : t.err = 0 := by
  rw [exec_of_packFormatOf i f hi] at h
  rcases packCommand_cases defaultConfig f s with ⟨e, hc, _⟩ | ⟨n, _, _, _, h'⟩ | ⟨_, _, h'⟩
  · rw [(packCheck_ok_iff f s _).2 ⟨ha, rfl⟩] at hc
    cases hc
  · rw [h'] at h
    cases h
  · rw [h'] at h
    injection h with h
    exact h ▸ packedState_err defaultConfig f s

end

/-- The length a BufferTooSmall records is saturated (R207), so ERR_INFO holds it whole. -/
theorem bufferTooSmall_info (n : Nat) :
    (CommandFault.bufferTooSmall (min n (2 ^ 32 - 1))).info.toNat = min n (2 ^ 32 - 1) := by
  rw [CommandFault.info, BitVec.toNat_ofNat]
  omega

/-- Settles O17: one lemma of `packCheck` for each check, given those before it. -/
theorem packChecksInOrder : Obligations.PackChecksInOrder := by
  intro i f s hi
  refine ⟨fun h => ?_, fun hw => ⟨fun h => ?_, fun hh => ⟨fun h => ?_, fun hf => ⟨fun h => ?_, fun hst =>
    ⟨fun h => ?_, fun hal h => ?_⟩⟩⟩⟩, exec_pack_err_of_accepted hi⟩
  · exact exec_pack_of_check_error hi (packCheck_of_width h)
  · exact exec_pack_of_check_error hi (packCheck_of_height hw h)
  · exact exec_pack_of_check_error hi (packCheck_of_floorTooLarge hw hh h)
  · exact exec_pack_of_check_error hi (packCheck_of_strideTooSmall hw hh hf h)
  · exact exec_pack_of_check_error hi (packCheck_of_strideMisaligned hw hh hf hst h)
  · rw [exec_pack_of_check_error hi (packCheck_of_bufferTooSmall hw hh hf hst hal h), bufferTooSmall_info]
    rfl

/-! Completion (`47_dispatch.md` R211, `70_reset_and_hazards.md` R272) -/

/-- Settles O39: of the four answers in `exec_cases` three are next states. -/
theorem commandsStopOnlyOnUndefinedSource : Obligations.CommandsStopOnlyOnUndefinedSource := by
  intro i s
  rcases exec_cases i s with ⟨v, _, h⟩ | ⟨e, _, h⟩ | hstop | ⟨f, _, _, _, h⟩
  · exact .inl ⟨_, h⟩
  · exact .inl ⟨_, h⟩
  · exact .inr hstop
  · exact .inl ⟨_, h⟩

/-! The bytes of a row (`47_dispatch.md` R213) -/

section
variable {s s' : State} {y : Nat}

/-- Row `y` of the planes of `s` and `s'` holds the same samples. -/
def SameRow (s s' : State) (y : Nat) : Prop :=
  ∀ x c, x < widthOf s → c < 3 →
    Memory.read? s'.src (srcIndex (widthOf s) y x c) = Memory.read? s.src (srcIndex (widthOf s) y x c)

theorem SameRow.pixelAt_eq (h : SameRow s s' y) (hw : widthOf s' = widthOf s) (d x : Nat) :
    pixelAt s' d y x = pixelAt s d y x := by
  unfold pixelAt
  rw [hw]
  by_cases hx : x < widthOf s
  · have sample : ∀ c, c < 3 →
        sampleAt s' (srcIndex (widthOf s) y x c) = sampleAt s (srcIndex (widthOf s) y x c) := by
      intro c hc
      rw [sampleAt, h x c hx hc]
      rfl
    have h0 := sample 0 (by decide)
    have h1 := sample 1 (by decide)
    have h2 := sample 2 (by decide)
    simp only [srcIndex, Nat.add_zero] at h0 h1 h2
    rw [if_pos hx, if_pos hx, h0, h1, h2]
  · rw [if_neg hx, if_neg hx]

theorem SameRow.packedByte_eq (h : SameRow s s' y) (hw : widthOf s' = widthOf s) (cfg : Config) (f : WireFormat)
    (k : Nat) : packedByte cfg f s' y k = packedByte cfg f s y k := by
  simp only [packedByte, packedGroup, groupSlots, h.pixelAt_eq hw, applyGroup_hostLe cfg s'.hostLe s.hostLe]

end

/-- Settles O43: byte `k` of a row is its packed byte, which is one of the row's samples and the width. -/
theorem rowsAreIndependent : Obligations.RowsAreIndependent := by
  intro i f s s' y hi ha ha' hd hd' hr hr' hwidth hy hy' hrow
  have hw : widthOf s' = widthOf s := congrArg (fun w : Word => w.toInt.toNat) hwidth
  refine ⟨_, _, exec_pack_of_accepted hi ha (planeReadable_of_unraced s hd hr.1),
    exec_pack_of_accepted hi ha' (planeReadable_of_unraced s' hd' hr'.1), fun k hk => ?_⟩
  have hbyte := packedState_read_extent defaultConfig f s hr ha.stride_covers y k hy hk
  have hbyte' := packedState_read_extent defaultConfig f s' hr' ha'.stride_covers y k hy' (hw ▸ hk)
  exact hbyte'.trans ((congrArg some (SameRow.packedByte_eq hrow hw defaultConfig f k)).trans hbyte.symm)

/-! Liveness (`47_dispatch.md` R211, `70_reset_and_hazards.md` R274, R275) -/

/-- A command that completes leaves DONE = 1 and BUSY = 0. -/
theorem exec_ends (i : Instr) (s t : State) (h : exec i s = .next t) : t.done = true ∧ t.busy = false := by
  rcases exec_cases i s with ⟨v, _, h'⟩ | ⟨e, _, h'⟩ | ⟨f, n, _, _, _, _, h'⟩ | ⟨f, _, _, _, h'⟩ <;> rw [h'] at h
  · injection h with h
    exact h ▸ ⟨completeOk_done s v, completeOk_busy s v⟩
  · injection h with h
    exact h ▸ ⟨raiseFault_done s e, raiseFault_busy s e⟩
  · cases h
  · injection h with h
    exact h ▸ ⟨completeOk_done _ _, completeOk_busy _ _⟩

/-- The turn of an active engine ends its command. -/
theorem engineTurn_ends (s t : State) (ha : engineActive s = true) (h : engineTurn exec s = .next t) :
    t.done = true ∧ t.busy = false := by
  rcases engineTurn_cases exec s with ⟨hn, _⟩ | ⟨i, _, _, h'⟩ | ⟨e, _, _, h'⟩
  · simp [ha] at hn
  · exact exec_ends i s t (h'.symm.trans h)
  · rw [h'] at h
    injection h with h
    exact h ▸ ⟨raiseFault_done s e, raiseFault_busy s e⟩

theorem acceptWrite_agenda (r : Reg) (v : Word) (s : State) : (acceptWrite r v s).agenda = s.agenda := by
  cases hb : s.busy with
  | true => rw [acceptWrite_busy r v s hb]
  | false =>
    by_cases hc : r = .cmd
    · rw [hc, acceptWrite_cmd v s hb, lend_fields]
      rfl
    · rw [acceptWrite_other r v s hc, writeReg_idle r v s hb]
      cases r <;> rfl

theorem hostSaw_agenda (r : Reg) (s : State) : (hostSaw r s).agenda = s.agenda := by
  rcases hostSaw_cases r s with ⟨_, _, h⟩ | ⟨_, h⟩ <;> rw [h]
  rfl

theorem abandonCommand_agenda (cfg : Config) (s : State) : (abandonCommand cfg s).agenda = s.agenda := by
  rcases abandonCommand_cases cfg s with h | ⟨f, _, _, h⟩ <;> rw [h]
  rfl

/-- An action of the host other than a `WAIT` leaves the actions to come as they are. -/
theorem hostAct_agenda (cfg : Config) (a : HostAction) (s t : State) (hw : ∀ n, a ≠ .wait n)
    (h : hostAct cfg a s = .next t) : t.agenda = s.agenda := by
  cases a with
  | engine =>
    injection h with h
    rw [h]
  | writeReg offset bits v =>
    obtain ⟨r, _, _, rfl⟩ := hostWriteReg_next offset bits v s t h
    exact acceptWrite_agenda r v s
  | readReg offset bits =>
    obtain ⟨r, _, _, rfl⟩ := hostReadReg_next offset bits s t h
    exact hostSaw_agenda r s
  | writeBack offset bits =>
    obtain ⟨r, _, _, rfl⟩ := hostWriteReg_next offset bits s.rdata s t h
    exact acceptWrite_agenda r s.rdata s
  | wait n => exact absurd rfl (hw n)
  | writeSrc i v =>
    injection h with h
    subst h
    cases hl : srcLent s i <;> rfl
  | readSrc i =>
    obtain ⟨v, _, rfl⟩ := hostReadSrc_next i s t h
    rfl
  | writeDst o b =>
    rcases hostWriteDst_cases o b s with ⟨_, h'⟩ | ⟨_, _, h' | h'⟩ | ⟨_, _, h'⟩ <;> cases h'.symm.trans h <;> rfl
  | readDst o =>
    rcases hostReadDst_cases o s with ⟨_, h'⟩ | ⟨_, h'⟩ <;> cases h'.symm.trans h <;> rfl
  | assertReset =>
    injection h with h
    subst h
    exact abandonCommand_agenda cfg s
  | releaseReset =>
    injection h with h
    subst h
    rfl

/-- A block with a command to perform, no assertion of reset to come, and at most `n` steps on its agenda. -/
structure Pending (n : Nat) (s : State) : Prop where
  busy : s.busy = true
  released : s.resetLine = false
  unreset : .assertReset ∉ s.agenda
  steps : agendaSteps s.agenda ≤ n

theorem Pending.active {n : Nat} {s : State} (h : Pending n s) : engineActive s = true :=
  (engineActive_iff s).2 ⟨h.busy, h.released⟩

/-- Every entry of an agenda takes a step. -/
theorem Pending.agenda_nil {s : State} (h : Pending 0 s) : s.agenda = [] := by
  have hsteps := h.steps
  cases hl : s.agenda with
  | nil => rfl
  | cons a rest =>
    rw [hl] at hsteps
    cases a <;> simp [agendaSteps] at hsteps

/-- Within `n` steps the command is complete, unless the run stops before. -/
def CompletesWithin (n : Nat) (s : State) : Prop :=
  ∃ k, k ≤ n ∧ ∀ t, Host.Core.run core k s = .next t → t.done = true ∧ t.busy = false

/-- A run that stops nowhere has a next state at its first step. -/
theorem run_succ_next (M : Host.Core) (k : Nat) (s t : M.State) (h : M.run (k + 1) s = .next t) :
    ∃ u, M.step s = .next u ∧ M.run k u = .next t := by
  unfold Host.Core.run at h
  cases hs : M.step s <;> rw [hs] at h
  case next u => exact ⟨u, rfl, h⟩
  case fault | refused => cases h

/-- On the engine's turn the next step completes. -/
theorem completesWithin_of_enginesTurn (n : Nat) (s : State) (rest : List HostAction) (ha : engineActive s = true)
    (hturn : EnginesTurn s rest) : CompletesWithin (n + 1) s := by
  refine ⟨1, by omega, fun t ht => ?_⟩
  obtain ⟨u, hu, hut⟩ := run_succ_next core 0 s t ht
  injection hut with hut
  exact engineTurn_ends (setAgenda rest s) t ha (((step_of_enginesTurn s rest hturn).symm.trans hu).trans
    (congrArg _ hut))

/-- Else it is enough that the next state completes. -/
theorem completesWithin_of_step (n : Nat) (s : State) (h : ∀ u, step s = .next u → CompletesWithin n u) :
    CompletesWithin (n + 1) s := by
  by_cases hs : ∃ u, step s = .next u
  · obtain ⟨u, hu⟩ := hs
    obtain ⟨k, hk, hrun⟩ := h u hu
    refine ⟨k + 1, by omega, fun t ht => ?_⟩
    obtain ⟨u', hu', hut⟩ := run_succ_next core k s t ht
    cases hu.symm.trans hu'
    exact hrun t hut
  · refine ⟨1, by omega, fun t ht => ?_⟩
    obtain ⟨u, hu, _⟩ := run_succ_next core 0 s t ht
    exact absurd ⟨u, hu⟩ hs

/-- A BUSY block outside reset stays so through any action of the host but an assertion of reset. -/
theorem HostMove.pending {a : HostAction} {s t : State} (h : HostMove s t a) (ha : a ≠ .assertReset)
    (hb : s.busy = true) (hr : s.resetLine = false) : t.busy = true ∧ t.resetLine = false := by
  cases h with
  | quiet h => exact ⟨h.control.busy_eq.trans hb, h.resetLine.trans hr⟩
  | stored idle => simp [hb] at idle
  | launched idle => simp [hb] at idle
  | resetAsserted => exact absurd rfl ha
  | resetReleased ht => exact ht ▸ ⟨hb, rfl⟩

/-- An action of the host uses up one of the steps that it and the actions to come take, and adds no assertion of
reset; or the engine's turn is next, after a `WAIT` whose reads are over. -/
theorem hostAct_agendaSteps (cfg : Config) (a : HostAction) (s t : State) (he : a ≠ .engine)
    (h : hostAct cfg a s = .next t) :
    (∃ rest, t.agenda = .engine :: rest) ∨
    (agendaSteps t.agenda < agendaSteps (a :: s.agenda) ∧ (.assertReset ∉ s.agenda → .assertReset ∉ t.agenda)) := by
  cases a with
  | wait n =>
    obtain ⟨_, ⟨_, rfl⟩ | ⟨_, _, rfl⟩ | ⟨k, _, rfl, rfl⟩⟩ := hostWait_next n s t h
    · exact .inr ⟨by simp [agendaSteps], id⟩
    · exact .inl ⟨_, rfl⟩
    · exact .inr ⟨by simp [agendaSteps], by simp⟩
  | engine => exact absurd rfl he
  | _ =>
    rw [hostAct_agenda cfg _ s t (by simp) h]
    exact .inr ⟨by simp [agendaSteps], id⟩

/-- A pending command completes, by induction on the steps the agenda takes: the engine ends it on its turn, and an
action of the host leaves a shorter agenda or the engine's turn. -/
theorem Pending.completes {n : Nat} {s : State} (h : Pending n s) : CompletesWithin (n + 1) s := by
  induction n generalizing s with
  | zero => exact completesWithin_of_enginesTurn 0 s [] h.active (.inl ⟨h.agenda_nil, rfl⟩)
  | succ n ih =>
    rcases step_cases s with ⟨rest, hturn, _⟩ | ⟨a, rest, ha, hne, hstep⟩
    · exact completesWithin_of_enginesTurn _ s rest h.active hturn
    · have hmem : .assertReset ∉ a :: rest := ha ▸ h.unreset
      refine completesWithin_of_step _ s fun u hu => ?_
      have hact := hstep.symm.trans hu
      obtain ⟨hb, hr⟩ := (hostAct_move defaultConfig a _ u hact).pending
        (fun he => hmem (he ▸ List.mem_cons_self)) h.busy h.released
      rcases hostAct_agendaSteps defaultConfig a _ u hne hact with ⟨rest', hu'⟩ | ⟨hlt, hun⟩
      · exact completesWithin_of_enginesTurn n u rest' ((engineActive_iff u).2 ⟨hb, hr⟩) (.inr hu')
      · refine ih ⟨hb, hr, hun fun hm => hmem (List.mem_cons_of_mem a hm), ?_⟩
        have hsteps := h.steps
        rw [ha] at hsteps
        exact Nat.le_of_lt_succ (Nat.lt_of_lt_of_le hlt hsteps)

/-- Settles O60. -/
theorem launchedCommandEventuallyCompletes : Obligations.LaunchedCommandEventuallyCompletes :=
  fun s hb hr ha => Pending.completes (s := s) ⟨hb, hr, ha, le_rfl⟩

end Sys2Proof.Machine
end

section
/-! PROOFS of the family `60_exceptions.md`: fault entry changes nothing but the results and reads no memory (R236),
and what it records of a word that is no command (R232, R237). -/

namespace Sys2Proof.Machine

/-- A command that ends with a non-zero ERR ended in fault entry, of a fault that the operand registers settle. -/
theorem exec_fault_of_err (i : Instr) (s t : State) (h : exec i s = .next t) (herr : t.err ≠ 0) :
    ∃ e, t = raiseFault e s ∧ ∀ s', SameOperands s s' → exec i s' = .next (raiseFault e s') := by
  cases hp : packFormatOf i with
  | none =>
    rcases exec_of_no_pack i s hp with ⟨v, hv⟩ | ⟨e, he⟩
    · cases (hv s (.refl s)).symm.trans h
      exact absurd (completeOk_err s v) herr
    · cases (he s (.refl s)).symm.trans h
      exact ⟨e, rfl, he⟩
  | some f =>
    cases hc : packCheck f s with
    | error e =>
      have fault : ∀ s', SameOperands s s' → exec i s' = .next (raiseFault e s') := fun s' hop => by
        rw [exec_of_packFormatOf i f hp, packCommand_of_check_error _ f s' e ((hop.packCheck_eq f).trans hc)]
      cases (fault s (.refl s)).symm.trans h
      exact ⟨e, rfl, fault⟩
    | ok g => exact absurd (exec_pack_err_of_accepted hp ((packCheck_ok_iff f s g).1 hc).1 t h) herr

/-- On the engine's turn a launched word that the decoder rejects enters the decoder's fault (`30_encoding.md` R87). -/
theorem step_of_decode_error (c : Word) (s : State) (rest : List HostAction) (e : CommandFault)
    (hl : Launched c s rest) (hd : decode c = .error e) :
    step s = .next (faulted e.code e.info.toNat (setAgenda rest s)) := by
  obtain ⟨rfl, hactive, hturn⟩ := hl
  rw [step_of_enginesTurn s rest hturn, ← raiseFault_eq_faulted, engineTurn, setAgenda_engineActive, if_pos hactive,
    fetchCommand, setAgenda_cmd, hd]

/-- Settles O38: other memories are other states of the same operands. -/
theorem faultsAreAllOrNothing : Obligations.FaultsAreAllOrNothing := by
  refine ⟨fun i s t h herr => ?_, step_of_decode_error⟩
  obtain ⟨e, rfl, fault⟩ := exec_fault_of_err i s t h herr
  refine ⟨?_, fun m d => fault _ ⟨rfl, rfl, rfl, rfl⟩⟩
  rw [raiseFault_err, raiseFault_errInfo, raiseFault_eq_faulted]

/-- Settles O8: the decoder's fault for either kind of bad word (R89, R90), whose detail fits ERR_INFO. -/
theorem launchedBadWordFaults : Obligations.LaunchedBadWordFaults := by
  intro c s rest hl
  obtain ⟨illegal, unsupported, _⟩ := everyWordIsACommandOrOneFault c
  refine ⟨fun hc => step_of_decode_error c s rest _ hl (illegal hc), fun hc hfmt => ?_⟩
  have fits : (BitVec.ofNat 32 (c.toNat % 256)).toNat = c.toNat % 256 := by
    rw [BitVec.toNat_ofNat]
    omega
  rw [step_of_decode_error c s rest _ hl (unsupported hc hfmt), CommandFault.info, fits]
  rfl

end Sys2Proof.Machine
end

section
/-! PROOFS of the family `70_reset_and_hazards.md`: sources without a value (R272), the bytes a race leaves open
(R267, R268), the host's memory accesses (R266), the loans (R267, R270), and reset (R260 to R263). -/

namespace Sys2Proof.Machine

/-- Settles O40: a PACK completes only over a plane that can be read. -/
theorem undefinedSourceStopsThePack : Obligations.UndefinedSourceStopsThePack := by
  intro i f s n hi ha hn hvalue
  rw [exec_of_packFormatOf i f hi]
  rcases packCommand_cases defaultConfig f s with ⟨e, hc, _⟩ | ⟨k, _, hk, hstop, h⟩ | ⟨_, hd, _⟩
  · rw [(packCheck_ok_iff f s _).2 ⟨ha, rfl⟩] at hc
    cases hc
  · exact ⟨k, hk, hstop, h⟩
  · exact absurd hd (not_planeReadable s n hn hvalue)

/-! A raced PACK (`70_reset_and_hazards.md` R267, R268) -/

/-- A memory can take any values below an address. -/
theorem Memory.exists_overwrite {α : Type} (m : Memory α) (g : Nat → α) (n : Nat) :
    ∃ m' : Memory α, ∀ i, Memory.read? m' i = if i < n then some (g i) else Memory.read? m i := by
  induction n with
  | zero => exact ⟨m, fun i => by simp⟩
  | succ n ih =>
    obtain ⟨m', h⟩ := ih
    refine ⟨Memory.write m' n (g n), fun i => ?_⟩
    rw [Memory.read?_write, h]
    by_cases hi : i = n
    · simp [hi]
    · simp [hi, show i < n + 1 ↔ i < n by omega]

/-- The engine's reads of a readable plane for the byte at `o` are those of one reading of the source. -/
theorem exists_reading (s : State) (hd : PlaneReadable s) (o : Nat) :
    ∃ m, Reading s m ∧ ∀ i, i < 3 * widthOf s * heightOf s →
      ∃ v, Memory.read? m i = some v ∧ v.toNat = readValue s o i := by
  obtain ⟨m, hm⟩ := Memory.exists_overwrite s.src (fun i => BitVec.ofNat 16 (readValue s o i))
    (3 * widthOf s * heightOf s)
  have value : ∀ i, i < 3 * widthOf s * heightOf s → ∃ v, Memory.read? m i = some v ∧ v.toNat = readValue s o i ∧
      (Memory.read? s.src i = some v ∨ (i, some v) ∈ s.srcRaces) := by
    intro i hi
    obtain ⟨hval, hrace⟩ := readable_container s hd i hi
    rcases engineRead_cases s o i with ⟨v, hv, _, _, held⟩ | ⟨_, hn | hn⟩
    · have hread : readValue s o i = v.toNat := by rw [readValue, hv]
      refine ⟨v, ?_, hread.symm, held⟩
      rw [hm, if_pos hi, hread, BitVec.ofNat_toNat, BitVec.setWidth_eq]
    · rw [hn] at hval
      cases hval
    · exact absurd hn hrace
  refine ⟨m, fun i => ?_, fun i hi => ?_⟩
  · by_cases hi : i < 3 * widthOf s * heightOf s
    · obtain ⟨v, hv, _, held⟩ := value i hi
      rwa [hv, eq_comm]
    · exact .inl ((hm i).trans (if_neg hi))
  · obtain ⟨v, hv, hread, _⟩ := value i hi
    exact ⟨v, hv, hread⟩

/-- The state in which the source is `m` and the host has raced with nothing. -/
abbrev withReading (s : State) (m : Memory (BitVec 16)) : State := setSrc m (withoutRaces s)

theorem sameOperands_withReading (s : State) (m : Memory (BitVec 16)) : SameOperands s (withReading s m) :=
  ⟨rfl, rfl, rfl, rfl⟩

/-- A byte made of reads that agree with `m` is the byte that a source `m` gives. -/
theorem landedByte_eq_of_reading (cfg : Config) (f : WireFormat) (s : State) (m : Memory (BitVec 16)) (y k : Nat)
    (hy : y < heightOf s) (hv : ∀ i, i < 3 * widthOf s * heightOf s →
      ∃ v, Memory.read? m i = some v ∧ v.toNat = readValue s (y * s.stride.toNat + k) i) :
    landedByte cfg f s y k = packedByte cfg f (withReading s m) y k := by
  have offset : y * s.stride.toNat + k / (descriptor f).groupBytes * (descriptor f).groupBytes +
      k % (descriptor f).groupBytes = y * s.stride.toNat + k := by
    rw [Nat.add_assoc, Nat.div_add_mod']
  unfold landedByte landedIn packedByte packedGroup
  rw [offset]
  refine congrArg (fun P => (applyGroup cfg s.hostLe (descriptor f).group P).getD _ 0) ?_
  refine List.map_congr_left fun j _ => ?_
  unfold pixelOf pixelAt
  refine ite_congr rfl (fun hx => ?_) fun _ => rfl
  have sample : ∀ c, c < 3 → ∀ x, x < widthOf s →
      readValue s (y * s.stride.toNat + k) (3 * (y * widthOf s + x) + c) =
        sampleAt (withReading s m) (3 * (y * widthOf s + x) + c) := by
    intro c hc x hx
    obtain ⟨v, hm, hread⟩ := hv _ (srcIndex_lt hy hx hc)
    rw [sampleAt, setSrc_src, hm, ← hread]
  have h0 := sample 0 (by decide) _ hx
  have h1 := sample 1 (by decide) _ hx
  have h2 := sample 2 (by decide) _ hx
  rw [Nat.add_zero] at h0
  rw [h0, h1, h2]
  rfl

/-- Settles O44: each byte is made of one reading of the source (`exists_reading`), and a byte whose containers were
not raced, of the source as it is. -/
theorem racedPackStillCompletes : Obligations.RacedPackStillCompletes := by
  intro i f s hi ha hd
  have hop : SameOperands s (withoutRaces s) := ⟨rfl, rfl, rfl, rfl⟩
  refine ⟨_, _, exec_pack_of_accepted hi ha hd,
    exec_pack_of_accepted hi (hop.packAccepted f ha) (planeReadable_of_unraced _ hd.1 rfl),
    packedState_succeeded defaultConfig f s, ?_, packedState_read_outside defaultConfig f s⟩
  rintro y k o hy hk rfl
  refine ⟨?_, fun ho hraces => ?_⟩
  · obtain ⟨m, hm, hv⟩ := exists_reading s hd (dstOffset s.stride.toNat y k)
    have defined : PlaneDefined (withReading s m) := fun n hn => by
      obtain ⟨v, hread, _⟩ := hv n hn
      rw [setSrc_src, hread]
      rfl
    refine ⟨m, _, hm, exec_pack_of_accepted hi ((sameOperands_withReading s m).packAccepted f ha)
      (planeReadable_of_unraced _ defined rfl), ?_⟩
    have byte := packedState_read_extent defaultConfig f (withReading s m) ⟨rfl, rfl⟩ ha.stride_covers y k hy hk
    rw [← landedByte_eq_of_reading defaultConfig f s m y k hy hv] at byte
    exact (packedState_read_cases defaultConfig f s ha.stride_covers y k hy hk).imp_left fun h => h.trans byte.symm
  · have byte := packedState_read_extent defaultConfig f (withoutRaces s) ⟨rfl, rfl⟩ ha.stride_covers y k hy hk
    have same := landedByte_eq_packedByte defaultConfig f s y k hraces
    exact (packedState_read_landed defaultConfig f s ha.stride_covers y k hy hk ho).trans
      ((congrArg some same).trans byte.symm)

/-! The host's memory accesses (`70_reset_and_hazards.md` R266 to R268, R272) -/

/-- Which containers are lent (R268). -/
theorem srcLent_iff (s : State) (i : Nat) :
    srcLent s i = true ↔ s.busy = true ∧ s.cmd ∈ packWords ∧ i < 3 * widthOf s * heightOf s := by
  rw [srcLent, Bool.and_eq_true, runningPack_isSome, decide_eq_true_iff, and_assoc]
  rfl

/-- What a host write of a container does (R266, R268). -/
theorem hostWriteSrc_cases (i : Nat) (v : BitVec 16) (s : State) :
    (srcLent s i = true ∧
      hostWriteSrc i v s = .next (setSrc (Memory.write s.src i v) (noteSrcRace i (Memory.read? s.src i) s))) ∨
    (srcLent s i = false ∧ hostWriteSrc i v s = .next (setSrc (Memory.write s.src i v) s)) := by
  unfold hostWriteSrc
  cases srcLent s i with
  | true => exact .inl ⟨rfl, rfl⟩
  | false => exact .inr ⟨rfl, rfl⟩

/-- Settles O50: the cases of `hostWriteSrc_cases` and `hostWriteDst_cases`, each a write that leaves every other
address alone. -/
theorem hostMemoryWritesLand : Obligations.HostMemoryWritesLand := by
  refine ⟨srcLent_iff, dstLent_iff, fun s rest => ⟨fun i v ha => ?_, fun o b racing held ha hracing hheld => ?_⟩⟩
  · have hstep := step_of_host s _ rest ha (by simp)
    have other : ∀ j, j ≠ i → Memory.read? (Memory.write s.src i v) j = Memory.read? s.src j :=
      fun j hj => Memory.read?_write_other _ _ hj
    rcases hostWriteSrc_cases i v (setAgenda rest s) with ⟨hl, h⟩ | ⟨hl, h⟩
    · exact ⟨_, hstep.trans h, Memory.read?_write_same _ _ _, other, rfl, fun _ => rfl,
        fun hn => absurd (hl.symm.trans hn) (by decide)⟩
    · exact ⟨_, hstep.trans h, Memory.read?_write_same _ _ _, other, rfl,
        fun hn => absurd (hl.symm.trans hn) (by decide), fun _ => rfl⟩
  · have hstep := step_of_host s _ rest ha (by simp)
    have other : ∀ j, j ≠ o → Memory.read? (Memory.write s.dst o b) j = Memory.read? s.dst j :=
      fun j hj => Memory.read?_write_other _ _ hj
    have written : Memory.read? (Memory.write s.dst o b) o = some b := Memory.read?_write_same _ _ _
    have hracing' : racing ↔ ((runningLoan s).any fun l => l.stores o) = true :=
      hracing.trans (runningLoan_stores s o).symm
    have hheld' : held ↔ (s.lent.any fun l => l.stores o) = true := by
      simp only [hheld, List.any_eq_true, Loan.stores_iff]
    rw [hracing', hheld']
    have excluded : ∀ {c : Bool} {P : Prop}, c = false → c = true → P := fun h0 h1 => by simp [h0] at h1
    rcases hostWriteDst_cases o b (setAgenda rest s) with ⟨hr, h⟩ | ⟨hr, hl, h | h⟩ | ⟨hr, hl, h⟩
    · exact ⟨_, hstep.trans h, other, rfl, fun _ => ⟨written, rfl, rfl⟩, fun hn => absurd hr hn,
        fun hn => absurd hr hn, fun hn => absurd hr hn⟩
    · exact ⟨_, hstep.trans h, other, rfl, excluded hr, fun _ => rfl, fun _ _ => ⟨.inl written, rfl⟩,
        fun _ hn => absurd hl hn⟩
    · exact ⟨_, hstep.trans h, fun _ _ => rfl, rfl, excluded hr, fun _ => rfl, fun _ _ => ⟨.inr rfl, rfl⟩,
        fun _ hn => absurd hl hn⟩
    · exact ⟨_, hstep.trans h, other, rfl, excluded hr, fun _ => rfl, fun _ => excluded hl, fun _ _ => ⟨written, rfl⟩⟩

/-- A host read of a container with a value returns it, zero-extended (R266; log entry 6). -/
theorem hostReadSrc_of_some (i : Nat) (v : BitVec 16) (s : State) (h : Memory.read? s.src i = some v) :
    hostReadSrc i s = .next (setRdata (v.setWidth 32) s) := by
  rw [hostReadSrc, memRead_of_some s.src i v h, ← BitVec.ofNat_toNat]

/-- A host read of a container without one stops (R272). -/
theorem hostReadSrc_of_none (i : Nat) (s : State) (h : Memory.read? s.src i = none) :
    hostReadSrc i s = .fault (.srcUndefined i) := by
  rw [hostReadSrc, memRead, h]

/-- A host read of a byte that is not lent returns what the byte holds (R263, R266). -/
theorem hostReadDst_of_not_lent (o : Nat) (s : State) (h : dstLent s o = false) :
    hostReadDst o s = .next (setRdata ((dstByte s o).setWidth 32) s) :=
  if_neg (by simp [h])

/-- A host read of a lent byte returns a free value (R267). -/
theorem hostReadDst_of_lent (o : Nat) (s : State) (h : dstLent s o = true) :
    hostReadDst o s = .next (setRdata ((Config.freeByte s.choices o).setWidth 32) (nextChoice s)) :=
  if_pos h

/-- Settles O52: one lemma for each of the reads. -/
theorem hostMemoryReadsAnswer : Obligations.HostMemoryReadsAnswer := by
  intro s rest
  refine ⟨fun i v ha hv => ?_, fun i ha hv => ?_, fun o b ha hl hv => ?_, fun o ha hl _ => ?_, fun o ha hl => ?_⟩ <;>
    rw [step_of_host s _ rest ha (by simp)]
  · exact hostReadSrc_of_some i v (setAgenda rest s) hv
  · exact hostReadSrc_of_none i (setAgenda rest s) hv
  · have value : dstByte s o = b := by rw [dstByte, hv, Option.getD_some]
    exact value ▸ hostReadDst_of_not_lent o (setAgenda rest s) hl
  · exact ⟨dstByte s o, hostReadDst_of_not_lent o (setAgenda rest s) hl⟩
  · exact ⟨Config.freeByte s.choices o, hostReadDst_of_lent o (setAgenda rest s) hl⟩

/-! The loans (`70_reset_and_hazards.md` R267, R270) -/

/-- The destination of a running PACK is `HEIGHT` rows of `STRIDE` bytes. -/
theorem exists_runningLoan (s : State) (f : WireFormat) (h : runningPack s = some f) :
    ∃ l, runningLoan s = some l ∧ l.rows = heightOf s ∧ l.stride = s.stride.toNat := by
  cases hl : runningLoan s with
  | none => rw [runningLoan_none, h] at hl; cases hl
  | some l =>
    obtain ⟨_, _, hrows, hstride, _⟩ := runningLoan_some s l hl
    exact ⟨l, rfl, hrows, hstride⟩

/-- The engine ends no loan. -/
theorem EngineMove.lent {s t : State} (h : EngineMove s t) : t.lent = s.lent := by
  cases h with
  | idle ht => rw [ht]
  | success _ v d n _ ht => rw [ht]; rfl
  | fault _ e _ ht => rw [ht]; rfl

/-- A register write ends no loan, and a launch may add one. -/
theorem mem_lent_acceptWrite (r : Reg) (v : Word) (s : State) (l : Loan) (hl : l ∈ s.lent) :
    l ∈ (acceptWrite r v s).lent := by
  cases hb : s.busy with
  | true => rwa [acceptWrite_busy r v s hb]
  | false =>
    by_cases hc : r = .cmd
    · rw [hc, acceptWrite_cmd v s hb]
      rcases lend_cases (launch v s) with ⟨_, h⟩ | ⟨l', _, h⟩ <;> rw [h]
      · exact hl
      · exact List.mem_cons_of_mem l' hl
    · rw [acceptWrite_other r v s hc, writeReg_idle r v s hb]
      cases r <;> exact hl

/-- The actions of the host that end the loans: an assertion of reset, or a read of STATUS that shows DONE = 1. -/
def EndsLoans (s : State) (a : HostAction) : Prop :=
  a = .assertReset ∨ s.done = true ∧ (a = .readReg 0x04 32 ∨ ∃ n, a = .wait n)

/-- Every action of the host keeps all loans, or is one of those and ends them all. -/
theorem hostAct_loans (cfg : Config) (a : HostAction) (s t : State) (h : hostAct cfg a s = .next t) :
    (∀ l ∈ s.lent, l ∈ t.lent) ∨ (t.lent = [] ∧ EndsLoans s a) := by
  have keep : t.lent = s.lent → (∀ l ∈ s.lent, l ∈ t.lent) ∨ (t.lent = [] ∧ EndsLoans s a) :=
    fun he => .inl fun l hl => he ▸ hl
  cases a with
  | engine =>
    injection h with h
    exact keep (h ▸ rfl)
  | writeReg offset bits v =>
    obtain ⟨r, _, _, rfl⟩ := hostWriteReg_next offset bits v s t h
    exact .inl (mem_lent_acceptWrite r v s)
  | writeBack offset bits =>
    obtain ⟨r, _, _, rfl⟩ := hostWriteReg_next offset bits s.rdata s t h
    exact .inl (mem_lent_acceptWrite r s.rdata s)
  | readReg offset bits =>
    obtain ⟨r, _, hacc, rfl⟩ := hostReadReg_next offset bits s t h
    rcases hostSaw_cases r s with ⟨rfl, hd, hs⟩ | ⟨_, hs⟩
    · obtain ⟨rfl, rfl⟩ := ofAccess_some offset bits .status hacc
      exact .inr ⟨by rw [hs]; rfl, .inr ⟨hd, .inl rfl⟩⟩
    · exact keep (by rw [hs]; rfl)
  | wait n =>
    obtain ⟨_, ⟨hd, rfl⟩ | ⟨_, _, rfl⟩ | ⟨k, _, _, rfl⟩⟩ := hostWait_next n s t h
    · exact .inr ⟨rfl, .inr ⟨hd, .inr ⟨n, rfl⟩⟩⟩
    · exact keep rfl
    · exact keep rfl
  | writeSrc i v => rcases hostWriteSrc_cases i v s with ⟨_, h'⟩ | ⟨_, h'⟩ <;> cases h'.symm.trans h <;> exact keep rfl
  | readSrc i =>
    obtain ⟨v, _, rfl⟩ := hostReadSrc_next i s t h
    exact keep rfl
  | writeDst o b =>
    rcases hostWriteDst_cases o b s with ⟨_, h'⟩ | ⟨_, _, h' | h'⟩ | ⟨_, _, h'⟩ <;> cases h'.symm.trans h <;>
      exact keep rfl
  | readDst o => rcases hostReadDst_cases o s with ⟨_, h'⟩ | ⟨_, h'⟩ <;> cases h'.symm.trans h <;> exact keep rfl
  | assertReset =>
    injection h with h
    exact .inr ⟨h ▸ rfl, .inl rfl⟩
  | releaseReset =>
    injection h with h
    exact keep (h ▸ rfl)

/-- Settles O51: the invariant holds the running PACK's loan, the engine ends none (`EngineMove.lent`), and
`hostAct_loans` names the actions of the host that do. -/
theorem lentUntilDoneIsRead : Obligations.LentUntilDoneIsRead := by
  refine ⟨fun s f o hi hf ho => ?_, fun s t h => ?_⟩
  · obtain ⟨l, hl, hrows, hstride⟩ := exists_runningLoan s f hf
    exact (dstLent_iff s o).2 ⟨l, hi.lent_running l hl, by rwa [hrows, hstride]⟩
  · rcases step_cases s with ⟨rest, _, hstep⟩ | ⟨a, rest, ha, _, hstep⟩
    · rw [hstep, ← execWith_default] at h
      have he := (engineTurn_move defaultConfig _ t h).lent
      exact .inl fun l hl => he ▸ hl
    · refine (hostAct_loans defaultConfig a _ t (hstep.symm.trans h)).imp_right fun ⟨hnone, hends⟩ => ⟨hnone, ?_⟩
      rcases hends with rfl | ⟨hd, rfl | ⟨n, rfl⟩⟩
      · exact .inl ⟨rest, ha⟩
      · exact .inr ⟨hd, rest, .inl ha⟩
      · exact .inr ⟨hd, rest, .inr ⟨n, ha⟩⟩

/-! Reset (`70_reset_and_hazards.md` R260 to R263) -/

/-- An assertion of reset abandons the command and puts the registers in their reset state. -/
theorem step_assertReset (s : State) (rest : List HostAction) (ha : s.agenda = .assertReset :: rest) :
    step s = .next (inReset (abandonCommand defaultConfig (setAgenda rest s))) := by
  rw [step_of_host s _ rest ha (by simp)]
  rfl

/-- Without an accepted PACK running there is nothing to abandon. -/
theorem abandonCommand_of_not_accepted (cfg : Config) (s : State) (h : ∀ f, runningPack s = some f →
    ¬ PackAccepted (floorStride f (widthOf s)) (descriptor f).rowAlign s) : abandonCommand cfg s = s := by
  rcases abandonCommand_cases cfg s with he | ⟨f, hf, ha, _⟩
  · exact he
  · exact absurd ha (h f hf)

/-- An accepted PACK that runs has stored some of its cells (R262). -/
theorem abandonCommand_of_accepted (cfg : Config) (s : State) (f : WireFormat) (hf : runningPack s = some f)
    (ha : PackAccepted (floorStride f (widthOf s)) (descriptor f).rowAlign s) :
    abandonCommand cfg s =
      nextChoice (setDst (Memory.writeAll s.dst (abandonedCells cfg f (geometryOf f s) s)) s) := by
  unfold abandonCommand
  simp only [hf, (packCheck_ok_iff f s _).2 ⟨ha, rfl⟩]

/-- What is abandoned changes the destination, within the extent of a running PACK, and the model's counter. -/
theorem abandonCommand_frame (cfg : Config) (s : State) :
    abandonCommand cfg s =
      { s with dst := (abandonCommand cfg s).dst, choices := (abandonCommand cfg s).choices } ∧
    ∀ o, (∀ f, runningPack s = some f → ¬ InExtent (heightOf s) s.stride.toNat (floorStride f (widthOf s)) o) →
      Memory.read? (abandonCommand cfg s).dst o = Memory.read? s.dst o := by
  rcases abandonCommand_cases cfg s with h | ⟨f, hf, _, h⟩ <;> rw [h]
  · exact ⟨rfl, fun _ _ => rfl⟩
  · refine ⟨rfl, fun o ho => Memory.read?_writeAll_other _ _ _ fun x hx hxo => ho f hf ?_⟩
    exact hxo ▸ abandonedCells_inExtent cfg f s x hx

/-- An extent byte of an abandoned PACK is the old one or the command's (R262). -/
theorem abandonCommand_read_extent (cfg : Config) (s : State) (f : WireFormat) (hf : runningPack s = some f)
    (ha : PackAccepted (floorStride f (widthOf s)) (descriptor f).rowAlign s) (hd : PlaneReadable s)
    (hr : Unraced s) (o : Nat) :
    Memory.read? (abandonCommand cfg s).dst o = Memory.read? s.dst o ∨
      Memory.read? (abandonCommand cfg s).dst o = Memory.read? (packedState cfg f s).dst o := by
  rw [abandonCommand_of_accepted cfg s f hf ha, abandonedCells_eq cfg f s hd]
  refine (Memory.read?_writeAll_cases _ s.dst o).imp_right fun ⟨x, hx, hxo, h⟩ => h.trans ?_
  obtain ⟨y, k, hy, hk, rfl⟩ := (mem_commandCells cfg f s x).1 (List.mem_filter.1 hx).1
  subst hxo
  exact (packedState_read_landed cfg f s ha.stride_covers y k hy hk (by simp [hr.2])).symm

/-- Settles O54: without a PACK there is nothing to abandon. -/
theorem resetPutsRegistersAtTheirValues : Obligations.ResetPutsRegistersAtTheirValues := by
  refine fun s rest => ⟨fun ha hp => ?_, fun ha => ?_⟩
  · rw [step_assertReset s rest ha, abandonCommand_of_not_accepted]
    intro f hf
    cases hp.symm.trans hf
  · rw [step_of_host s _ rest ha (by simp)]
    rfl

/-- Settles O55: `step_assertReset`, with what `abandonCommand` leaves alone and what it can store. -/
theorem resetAbandonsARunningPack : Obligations.ResetAbandonsARunningPack := by
  refine ⟨fun s rest ha => ?_, fun s rest f ha hf hacc hd hr => ?_, fun s rest ha hrej => ?_⟩
  · obtain ⟨frame, outside⟩ := abandonCommand_frame defaultConfig (setAgenda rest s)
    exact ⟨_, step_assertReset s rest ha, congrArg inReset frame, outside⟩
  · have hplane : PlaneReadable s := planeReadable_of_unraced s hd hr.1
    have hop : SameOperands s (setAgenda rest s) := ⟨rfl, rfl, rfl, rfl⟩
    refine ⟨_, _, exec_pack_of_accepted (packFormatOf_packInstr f) hacc hplane, step_assertReset s rest ha,
      fun o ho => ?_⟩
    rw [← packedState_read_of_same hop rfl defaultConfig f hr hr hacc.stride_covers o ho]
    exact abandonCommand_read_extent defaultConfig (setAgenda rest s) f hf (hop.packAccepted f hacc) hplane hr o
  · have hop : SameOperands s (setAgenda rest s) := ⟨rfl, rfl, rfl, rfl⟩
    rw [step_assertReset s rest ha, abandonCommand_of_not_accepted]
    exact fun f hf hacc => hrej f hf (hop.symm.packAccepted f hacc)

/-- While reset is asserted no access reaches a register (R260). -/
theorem regAccess_of_reset (offset bits : Nat) (s : State) (h : s.resetLine = true) :
    regAccess offset bits s = .error .accessDuringReset :=
  if_pos h

/-- Settles O56: each of the four accesses goes through `regAccess`. -/
theorem registersAreClosedDuringReset : Obligations.RegistersAreClosedDuringReset := by
  intro s offset bits v rest hr
  have closed : ∀ o b, regAccess o b (setAgenda rest s) = .error .accessDuringReset :=
    fun o b => regAccess_of_reset o b _ hr
  refine ⟨fun ha => ?_, fun ha => ?_, fun ha => ?_, fun n ha => ?_⟩ <;> rw [step_of_host s _ rest ha (by simp)]
  · rw [hostAct, hostWriteReg, closed]
  · rw [hostAct, hostReadReg, closed]
  · rw [hostAct, hostWriteReg, closed]
  · simp only [hostAct, hostWait, closed]

end Sys2Proof.Machine
end
